-- ==== Sys2Proof/Word.lean ====
section
/-! DEFINITION. The plain word types of the CRP engine (spec/00_scope.md R10, R11). -/

namespace Sys2Proof

/-- A byte: 8 bits, an unsigned integer 0 to 255 (R10). -/
abbrev Byte := BitVec 8

/-- A byte string: a finite sequence of bytes, the byte of index 0 first (R10). -/
abbrev Bytes := List Byte

/-- An operand of a challenge: an unsigned 32-bit integer (R7 `OPERAND_BITS`). -/
abbrev Operand := BitVec 32

/-- A result of the solver: an unsigned 64-bit integer (R7 `ARITH_BITS`). -/
abbrev Result := BitVec 64

end Sys2Proof
end

