-- ==== Sys2Proof/Config.lean ====
section
/-! DEFINITION. What an implementation fixes (spec/00_scope.md R7 to R9): the sizes, and the two
parameters the spec leaves open, as constants without a body. -/

namespace Sys2Proof.Config

/-- `BLOCK`, one block of the cipher, in bytes (R7). -/
def block : Nat := 16
/-- `KEY_LEN` (R7). -/
def keyLen : Nat := 16
/-- `IV_LEN` (R7). -/
def ivLen : Nat := 16
/-- `CODE_LEN` (R7). -/
def codeLen : Nat := 3
/-- `UNAME_LEN` (R7). -/
def unameLen : Nat := 16
/-- `UNAME_VISIBLE_MAX` (R7). -/
def unameVisibleMax : Nat := 15
/-- `LEN_FIELD` (R7). -/
def lenField : Nat := 4
/-- `PAYLOAD_MAX` (R7). -/
def payloadMax : Nat := 128
/-- `PT_MAX` (R7). -/
def ptMax : Nat := 96
/-- `CT_MAX` (R7). -/
def ctMax : Nat := 128
/-- `CHAL_LEN` (R7). -/
def chalLen : Nat := 9
/-- `RESULT_LEN` (R7). -/
def resultLen : Nat := 8
/-- `SHORT_FRAME`: Request and Status frames (R8). -/
def shortFrame : Nat := codeLen + unameLen
/-- `LONG_FRAME`: Challenge and Response frames (R8). -/
def longFrame : Nat := codeLen + unameLen + ivLen + lenField + payloadMax
/-- `RESP_TAIL_FILL`, the byte of the unused payload tail of a Response frame (R9, D6). -/
def respTailFill : Byte := 0x00

/-- The raw choice behind `UNAME_SRC_MAX`, which the spec leaves open (R9, D16): no body, so
nothing rests on its value. Assumption log 3. -/
opaque unameSrcChoice : Nat

/-- `UNAME_SRC_MAX`, the capacity of the user-name buffer: any number from 20 to 255 (R9, R37,
D16). Assumption log 3. -/
def unameSrcMax : Nat := unameSrcChoice % 236 + 20

/-- What a host write of a length above `UNAME_SRC_MAX` does to `UNAME_SRC_LEN`, which the spec does not
say: a FREE VALUE. `none`: the write has no effect on it; `some n`: it takes `n` modulo
`UNAME_SRC_MAX + 1`, so that the range of R37 is kept. Assumption log 3. -/
opaque unameLenChoice : BitVec 8 → Option Nat

/-- `Draw16`, the entropy source (R9, R139, D15): the 16 bytes of the n-th draw, under no law, a FREE
VALUE. The counter `State.draws` says which draw comes next. Assumption log 2. -/
opaque draw16 : Nat → BitVec 128

end Sys2Proof.Config
end

