-- ==== Sys2Proof/Syntax.lean ====
section
/-! DEFINITION. The instructions of the CRP engine: one constructor for each row of
spec/opcode_table.json (spec/00_scope.md R3). Operands are what the row's `source_fields` name. -/

namespace Sys2Proof

/-- What the CRP engine is told by a bit pattern: a challenge word (F-CHAL), a wire frame
(F-SHORT, F-LONG) or a host command (F-CMD); R3, R90. Byte-string operands have the lengths of
`WellFormed`. -/
inductive Instr where
  /-- `+` challenge (R192). -/
  | add (left right : Operand)
  /-- `-` challenge (R193). -/
  | sub (left right : Operand)
  /-- `*` challenge (R194). -/
  | mul (left right : Operand)
  /-- `/` challenge (R195). -/
  | div (left right : Operand)
  /-- `%` challenge (R196). -/
  | mod (left right : Operand)
  /-- A challenge with any other operator byte (R105, R197). -/
  | unknownOperator (op : Byte) (left right : Operand)
  /-- Request frame `"105"`, client to server (R162). -/
  | request105 (username : Bytes)
  /-- Challenge frame `"110"`, server to client (R165). -/
  | challenge110 (username iv : Bytes) (payloadLen : BitVec 32) (payload : Bytes)
  /-- Response frame `"115"`, client to server (R163). -/
  | response115 (username iv : Bytes) (payloadLen : BitVec 32) (payload : Bytes)
  /-- Status frame `"205"`, server to client (R168). -/
  | status205 (username : Bytes)
  /-- Status frame `"210"`, server to client (R168). -/
  | status210 (username : Bytes)
  /-- `"305"` in a long frame at the challenge point (R164, R221). -/
  | error305AtChallenge (username iv : Bytes) (payloadLen : BitVec 32) (payload : Bytes)
  /-- `"305"` in a short frame at the status point (R164, R221). -/
  | error305AtStatus (username : Bytes)
  /-- A long inbound frame with any code but `"110"` and `"305"` (R104, R164). -/
  | unexpectedCodeAtChallenge (code username iv : Bytes) (payloadLen : BitVec 32) (payload : Bytes)
  /-- A short inbound frame with any code but `"205"`, `"210"` and `"305"` (R104, R164). -/
  | unexpectedCodeAtStatus (code username : Bytes)
  /-- Host command `0x01` (R211). -/
  | start
  /-- Host command `0x02` (R162). -/
  | buildReq
  /-- Host command `0x03` (R165). -/
  | parseChal
  /-- Host command `0x04` (R138). -/
  | decrypt
  /-- Host command `0x05` (R191). -/
  | decode
  /-- Host command `0x06` (R198). -/
  | solve
  /-- Host command `0x07` (R199). -/
  | encode
  /-- Host command `0x08` (R137). -/
  | encrypt
  /-- Host command `0x09` (R163). -/
  | buildResp
  /-- Host command `0x0A` (R168). -/
  | parseStat
  /-- Host command `0x0B` (R224). -/
  | reset
  /-- A reserved host command code: `0x00` and `0x0C` to `0xFF` (R112). -/
  | reservedCmd (opcode : Byte)
  deriving DecidableEq, Repr

end Sys2Proof
end

