-- ==== Sys2Proof/WellFormed.lean ====
section
/-! DEFINITION. Which terms of `Instr` are instructions: byte-string operands have the lengths of
their fields, and a complement row does not hold a value that another row takes. -/

namespace Sys2Proof

/-- The frame code `"105"` (R12, R101). -/
def code105 : Bytes := [0x31, 0x30, 0x35]
/-- The frame code `"110"` (R12, R101). -/
def code110 : Bytes := [0x31, 0x31, 0x30]
/-- The frame code `"115"` (R12, R101). -/
def code115 : Bytes := [0x31, 0x31, 0x35]
/-- The frame code `"205"` (R12, R101). -/
def code205 : Bytes := [0x32, 0x30, 0x35]
/-- The frame code `"210"` (R12, R101). -/
def code210 : Bytes := [0x32, 0x31, 0x30]
/-- The frame code `"305"` (R12, R100, R101). -/
def code305 : Bytes := [0x33, 0x30, 0x35]

/-- The five operator bytes `% * + - /` (R102). -/
def operators : Bytes := [0x25, 0x2A, 0x2B, 0x2D, 0x2F]

/-- The eleven command codes that select an operation (R103). -/
def commandCodes : Bytes := [0x01, 0x02, 0x03, 0x04, 0x05, 0x06, 0x07, 0x08, 0x09, 0x0A, 0x0B]

/-- Field lengths of a short frame's `username` (R91). -/
def shortFields (username : Bytes) : Bool :=
  username.length == Config.unameLen

/-- Field lengths of a long frame's `username`, `iv` and `payload` (R92). -/
def longFields (username iv payload : Bytes) : Bool :=
  username.length == Config.unameLen && iv.length == Config.ivLen
    && payload.length == Config.payloadMax

/-- A term that stands for some bit pattern of the opcode table. -/
def WellFormed : Instr → Bool
  | .add _ _ | .sub _ _ | .mul _ _ | .div _ _ | .mod _ _ => true
  | .unknownOperator op _ _ => !operators.contains op
  | .request105 u | .status205 u | .status210 u | .error305AtStatus u => shortFields u
  | .challenge110 u iv _ p | .response115 u iv _ p | .error305AtChallenge u iv _ p =>
    longFields u iv p
  | .unexpectedCodeAtChallenge c u iv _ p =>
    longFields u iv p && c.length == Config.codeLen && c != code110 && c != code305
  | .unexpectedCodeAtStatus c u =>
    shortFields u && c.length == Config.codeLen && c != code205 && c != code210 && c != code305
  | .start | .buildReq | .parseChal | .decrypt | .decode | .solve | .encode | .encrypt
  | .buildResp | .parseStat | .reset => true
  | .reservedCmd c => !commandCodes.contains c

end Sys2Proof
end

