-- ==== Sys2Proof/Decode.lean ====
section
/-! DEFINITION. Byte order, the decoder (total on any bytes) and after it the encoder
(spec/30_encoding.md, spec/20_memory.md R60 to R67). -/

namespace Sys2Proof

/-- The value of a byte string read big-endian (R11, R60). -/
def fromBE (bs : Bytes) : Nat := bs.foldl (fun acc b => acc * 256 + b.toNat) 0

/-- The `k`-byte big-endian string of a value below `256 ^ k` (R11, R60). -/
def toBE : Nat → Nat → Bytes
  | 0, _ => []
  | k + 1, v => BitVec.ofNat 8 (v / 256 ^ k) :: toBE k v

/-- `BE32` (R11). -/
def be32 (bs : Bytes) : BitVec 32 := BitVec.ofNat 32 (fromBE bs)

/-- `ToBE32` (R11). -/
def toBE32 (v : BitVec 32) : Bytes := toBE 4 v.toNat

/-- `ToBE64` (R11, R113). -/
def toBE64 (v : BitVec 64) : Bytes := toBE 8 v.toNat

/-- The `n` bytes of `bs` from offset `off` on: `bs[off .. off+n)` (R10). -/
def slice (bs : Bytes) (off n : Nat) : Bytes := (bs.drop off).take n

/-- Where a bit pattern is met, which fixes how it is read (R3, R109: the length and the meaning of a
received frame come from the protocol state, never from the frame). -/
inductive Port where
  /-- a byte written to `CMD` (R96) -/
  | command
  /-- the 9-byte challenge plaintext (R93) -/
  | challengeWord
  /-- a frame received at the challenge point (R104, R164) -/
  | challengePoint
  /-- a frame received at the status point (R104, R164) -/
  | statusPoint
  /-- a frame the client builds (R162, R163) -/
  | outbound
  deriving DecidableEq, Repr

/-- Why bytes are no instruction at a port. -/
inductive DecodeError where
  /-- the number of bytes is not the length of the port's format (R90, R109) -/
  | wrongLength
  /-- an outbound frame has a code or a length that the client never builds (R160, R170) -/
  | notOutbound
  deriving DecidableEq, Repr

/-- The decoder's answer. -/
inductive Decoded where
  | instr (i : Instr)
  | rejected (e : DecodeError)
  deriving DecidableEq, Repr

/-- The instruction a challenge's operator selects (R102, R105). -/
def challengeInstr (op : Byte) (left right : Operand) : Instr :=
  if op = 0x2B then .add left right
  else if op = 0x2D then .sub left right
  else if op = 0x2A then .mul left right
  else if op = 0x2F then .div left right
  else if op = 0x25 then .mod left right
  else .unknownOperator op left right

/-- The operation a byte written to `CMD` selects (R103, R112). -/
def commandInstr (b : Byte) : Instr :=
  if b = 0x01 then .start
  else if b = 0x02 then .buildReq
  else if b = 0x03 then .parseChal
  else if b = 0x04 then .decrypt
  else if b = 0x05 then .decode
  else if b = 0x06 then .solve
  else if b = 0x07 then .encode
  else if b = 0x08 then .encrypt
  else if b = 0x09 then .buildResp
  else if b = 0x0A then .parseStat
  else if b = 0x0B then .reset
  else .reservedCmd b

/-- The `code` of a frame (R91, R92). -/
def frameCode (f : Bytes) : Bytes := slice f 0 3
/-- The `username` field of a frame (R91, R92). -/
def frameUsername (f : Bytes) : Bytes := slice f 3 16
/-- The `iv` field of a long frame (R92). -/
def frameIv (f : Bytes) : Bytes := slice f 19 16
/-- The `payload_len` field of a long frame (R92, R98). -/
def framePayloadLen (f : Bytes) : BitVec 32 := be32 (slice f 35 4)
/-- The `payload` field of a long frame (R92). -/
def framePayload (f : Bytes) : Bytes := slice f 39 128

/-- A 167-byte frame met at the challenge point; `"305"` is tested first (R104, R164, R276). -/
def challengePointInstr (f : Bytes) : Instr :=
  let c := frameCode f
  let u := frameUsername f
  let iv := frameIv f
  let n := framePayloadLen f
  let p := framePayload f
  if c = code305 then .error305AtChallenge u iv n p
  else if c = code110 then .challenge110 u iv n p
  else .unexpectedCodeAtChallenge c u iv n p

/-- A 19-byte frame met at the status point; `"305"` is tested first (R104, R164, R276). -/
def statusPointInstr (f : Bytes) : Instr :=
  let c := frameCode f
  let u := frameUsername f
  if c = code305 then .error305AtStatus u
  else if c = code205 then .status205 u
  else if c = code210 then .status210 u
  else .unexpectedCodeAtStatus c u

/-- The decoder: total on any bytes at any port. -/
def decode : Port → Bytes → Decoded
  | .command, bs =>
    match bs with
    | [b] => .instr (commandInstr b)
    | _ => .rejected .wrongLength
  | .challengeWord, bs =>
    if bs.length = Config.chalLen then
      .instr (challengeInstr (bs.headD 0) (be32 (slice bs 1 4)) (be32 (slice bs 5 4)))
    else .rejected .wrongLength
  | .challengePoint, bs =>
    if bs.length = Config.longFrame then .instr (challengePointInstr bs)
    else .rejected .wrongLength
  | .statusPoint, bs =>
    if bs.length = Config.shortFrame then .instr (statusPointInstr bs)
    else .rejected .wrongLength
  | .outbound, bs =>
    if frameCode bs = code105 ∧ bs.length = Config.shortFrame then
      .instr (.request105 (frameUsername bs))
    else if frameCode bs = code115 ∧ bs.length = Config.longFrame then
      .instr (.response115 (frameUsername bs) (frameIv bs) (framePayloadLen bs) (framePayload bs))
    else .rejected .notOutbound

/-- The port at which an instruction is met. -/
def portOf : Instr → Port
  | .add _ _ | .sub _ _ | .mul _ _ | .div _ _ | .mod _ _ | .unknownOperator _ _ _ => .challengeWord
  | .request105 _ | .response115 _ _ _ _ => .outbound
  | .challenge110 _ _ _ _ | .error305AtChallenge _ _ _ _
  | .unexpectedCodeAtChallenge _ _ _ _ _ => .challengePoint
  | .status205 _ | .status210 _ | .error305AtStatus _ | .unexpectedCodeAtStatus _ _ => .statusPoint
  | .start | .buildReq | .parseChal | .decrypt | .decode | .solve | .encode | .encrypt
  | .buildResp | .parseStat | .reset | .reservedCmd _ => .command

/-- The bytes of a challenge word (R93). -/
def challengeWord (op : Byte) (left right : Operand) : Bytes := op :: (toBE32 left ++ toBE32 right)

/-- The bytes of a short frame (R91). -/
def shortFrameBytes (code username : Bytes) : Bytes := code ++ username

/-- The bytes of a long frame (R92). -/
def longFrameBytes (code username iv : Bytes) (payloadLen : BitVec 32) (payload : Bytes) : Bytes :=
  code ++ username ++ iv ++ toBE32 payloadLen ++ payload

/-- The encoder: the bytes of an instruction, from the same tables (R91 to R96, R101 to R103). -/
def encode : Instr → Bytes
  | .add l r => challengeWord 0x2B l r
  | .sub l r => challengeWord 0x2D l r
  | .mul l r => challengeWord 0x2A l r
  | .div l r => challengeWord 0x2F l r
  | .mod l r => challengeWord 0x25 l r
  | .unknownOperator op l r => challengeWord op l r
  | .request105 u => shortFrameBytes code105 u
  | .challenge110 u iv n p => longFrameBytes code110 u iv n p
  | .response115 u iv n p => longFrameBytes code115 u iv n p
  | .status205 u => shortFrameBytes code205 u
  | .status210 u => shortFrameBytes code210 u
  | .error305AtChallenge u iv n p => longFrameBytes code305 u iv n p
  | .error305AtStatus u => shortFrameBytes code305 u
  | .unexpectedCodeAtChallenge c u iv n p => longFrameBytes c u iv n p
  | .unexpectedCodeAtStatus c u => shortFrameBytes c u
  | .start => [0x01]
  | .buildReq => [0x02]
  | .parseChal => [0x03]
  | .decrypt => [0x04]
  | .decode => [0x05]
  | .solve => [0x06]
  | .encode => [0x07]
  | .encrypt => [0x08]
  | .buildResp => [0x09]
  | .parseStat => [0x0A]
  | .reset => [0x0B]
  | .reservedCmd c => [c]

/-- The bytes of the table's word: a row's format is ONE word whose byte of index 0 is the most
significant (opcode_table.json: "as a big-endian word, byte 0 most significant"; R91 to R93), so
the hardware stores the most significant byte first. Assumption log 4. -/
def tableBytes (nbits w : Nat) : Bytes := toBE (nbits / 8) w

/-- The port the table's word belongs to: by its width, and for a frame by its code, since
`"105"` and `"115"` are the client's own (R101). Assumption log 4. -/
def tablePort (nbits w : Nat) : Option Port :=
  if nbits = 8 then some .command
  else if nbits = 72 then some .challengeWord
  else if nbits = 152 then
    some (if frameCode (tableBytes nbits w) = code105 then .outbound else .statusPoint)
  else if nbits = 1336 then
    some (if frameCode (tableBytes nbits w) = code115 then .outbound else .challengePoint)
  else none

/-- What the decoder reads from a word of spec/opcode_table.json. -/
def decodeTableWord (nbits w : Nat) : Option Instr :=
  match tablePort nbits w with
  | none => none
  | some port =>
    match decode port (tableBytes nbits w) with
    | .instr i => some i
    | .rejected _ => none

end Sys2Proof
end

