-- ==== Sys2Proof/Machine/Aes.lean ====
section
/-! DEFINITION. The AES-128 block cipher, the primitive of the Crypto Engine (spec/44_aes128_primitive.md R250
to R258; assumption log 10). Blocks and keys are strings of 16 bytes. -/

namespace Sys2Proof.Machine

/-- Sixteen bytes of a table row, written as one number, first byte most significant. -/
def tableByte (rows : List (BitVec 128)) (a : Byte) : Byte :=
  ((rows.getD (a.toNat / 16) 0) >>> (8 * (15 - a.toNat % 16))).setWidth 8

/-- The rows of `SBOX` (R252). -/
def sboxRows : List (BitVec 128) := [
  0x637c777bf26b6fc53001672bfed7ab76, 0xca82c97dfa5947f0add4a2af9ca472c0,
  0xb7fd9326363ff7cc34a5e5f171d83115, 0x04c723c31896059a071280e2eb27b275,
  0x09832c1a1b6e5aa0523bd6b329e32f84, 0x53d100ed20fcb15b6acbbe394a4c58cf,
  0xd0efaafb434d338545f9027f503c9fa8, 0x51a3408f929d38f5bcb6da2110fff3d2,
  0xcd0c13ec5f974417c4a77e3d645d1973, 0x60814fdc222a908846eeb814de5e0bdb,
  0xe0323a0a4906245cc2d3ac629195e479, 0xe7c8376d8dd54ea96c56f4ea657aae08,
  0xba78252e1ca6b4c6e8dd741f4bbd8b8a, 0x703eb5664803f60e613557b986c11d9e,
  0xe1f8981169d98e949b1e87e9ce5528df, 0x8ca1890dbfe6426841992d0fb054bb16]

/-- The rows of `INVSBOX` (R253). -/
def invSboxRows : List (BitVec 128) := [
  0x52096ad53036a538bf40a39e81f3d7fb, 0x7ce339829b2fff87348e4344c4dee9cb,
  0x547b9432a6c2233dee4c950b42fac34e, 0x082ea16628d924b2765ba2496d8bd125,
  0x72f8f66486689816d4a45ccc5d65b692, 0x6c704850fdedb9da5e154657a78d9d84,
  0x90d8ab008cbcd30af7e45805b8b34506, 0xd02c1e8fca3f0f02c1afbd0301138a6b,
  0x3a9111414f67dcea97f2cfcef0b4e673, 0x96ac7422e7ad3585e2f937e81c75df6e,
  0x47f11a711d29c5896fb7620eaa18be1b, 0xfc563e4bc6d279209adbc0fe78cd5af4,
  0x1fdda8338807c731b11210592780ec5f, 0x60517fa919b54a0d2de57a9f93c99cef,
  0xa0e03b4dae2af5b0c8ebbb3c83539961, 0x172b047eba77d626e169146355210c7d]

/-- `SBOX` (R252). -/
def sbox (a : Byte) : Byte := tableByte sboxRows a

/-- `INVSBOX` (R253). -/
def invSbox (a : Byte) : Byte := tableByte invSboxRows a

/-- `xtime` (R251). -/
def xtime (a : Byte) : Byte := if a < 0x80 then a <<< 1 else (a <<< 1) ^^^ 0x1B

/-- The product in GF(2^8), from bit `i` of the second factor on (R251). -/
def gmulFrom : Nat → Byte → Byte → Byte
  | 0, _, _ => 0
  | n + 1, a, b => (if b.getLsbD 0 then a else 0) ^^^ gmulFrom n (xtime a) (b >>> 1)

/-- The product in GF(2^8): the exclusive or of `xtime^i(a)` over the set bits `i` of `b` (R251). -/
def gmul (a b : Byte) : Byte := gmulFrom 8 a b

/-- `S xor T` for strings of one length (R10). -/
def xorBytes (x y : Bytes) : Bytes := List.zipWith (· ^^^ ·) x y

/-- `SubBytes` (R255). -/
def subBytes (s : Bytes) : Bytes := s.map sbox

/-- `InvSubBytes` (R255). -/
def invSubBytes (s : Bytes) : Bytes := s.map invSbox

/-- `ShiftRows` (R250, R255): byte `r + 4c` of the result is byte `r + 4((c + r) mod 4)`. -/
def shiftRows (s : Bytes) : Bytes :=
  (List.range 16).map fun j => s.getD (j % 4 + 4 * ((j / 4 + j % 4) % 4)) 0

/-- `InvShiftRows` (R250, R255): byte `r + 4c` of the result is byte `r + 4((c - r) mod 4)`. -/
def invShiftRows (s : Bytes) : Bytes :=
  (List.range 16).map fun j => s.getD (j % 4 + 4 * ((j / 4 + 4 - j % 4) % 4)) 0

/-- `MixColumns` (R255), column by column; the product is commutative, and the column's byte is written
as its first factor. -/
def mixColumns : Bytes → Bytes
  | a0 :: a1 :: a2 :: a3 :: s =>
    (gmul a0 2 ^^^ gmul a1 3 ^^^ a2 ^^^ a3) :: (a0 ^^^ gmul a1 2 ^^^ gmul a2 3 ^^^ a3)
      :: (a0 ^^^ a1 ^^^ gmul a2 2 ^^^ gmul a3 3) :: (gmul a0 3 ^^^ a1 ^^^ a2 ^^^ gmul a3 2)
      :: mixColumns s
  | _ => []

/-- `InvMixColumns` (R255), column by column, the products written as in `mixColumns`. -/
def invMixColumns : Bytes → Bytes
  | a0 :: a1 :: a2 :: a3 :: s =>
    (gmul a0 14 ^^^ gmul a1 11 ^^^ gmul a2 13 ^^^ gmul a3 9)
      :: (gmul a0 9 ^^^ gmul a1 14 ^^^ gmul a2 11 ^^^ gmul a3 13)
      :: (gmul a0 13 ^^^ gmul a1 9 ^^^ gmul a2 14 ^^^ gmul a3 11)
      :: (gmul a0 11 ^^^ gmul a1 13 ^^^ gmul a2 9 ^^^ gmul a3 14)
      :: invMixColumns s
  | _ => []

/-- `RCON` (R254). -/
def rcon : Bytes := [0x01, 0x02, 0x04, 0x08, 0x10, 0x20, 0x40, 0x80, 0x1b, 0x36]

/-- The next round key (R254): its first word is the last one's first word xor `SubWord(RotWord(t))`
xor the round constant for the last one's last word `t`; each later word is the word four back xor
the word before. -/
def nextRoundKey (k : Bytes) (c : Byte) : Bytes :=
  let word (i : Nat) : Bytes := (k.drop (4 * i)).take 4
  let t := word 3
  let w0 := xorBytes (xorBytes (word 0) ((t.drop 1 ++ t.take 1).map sbox)) [c, 0, 0, 0]
  let w1 := xorBytes (word 1) w0
  let w2 := xorBytes (word 2) w1
  let w3 := xorBytes (word 3) w2
  w0 ++ w1 ++ w2 ++ w3

/-- The round keys that follow `k`, one for each round constant (R254). -/
def roundKeysFrom (k : Bytes) : Bytes → List Bytes
  | [] => []
  | c :: cs => nextRoundKey k c :: roundKeysFrom (nextRoundKey k c) cs

/-- The eleven round keys (R254). -/
def roundKeys (k : Bytes) : List Bytes := k :: roundKeysFrom k rcon

/-- The rounds of encryption after the first `AddRoundKey`; the last has no `MixColumns` (R256). -/
def encRounds (s : Bytes) : List Bytes → Bytes
  | [] => s
  | [k] => xorBytes (shiftRows (subBytes s)) k
  | k :: ks => encRounds (xorBytes (mixColumns (shiftRows (subBytes s))) k) ks

/-- `BlockEnc(K, X)`: AES-128 encryption (R256). -/
def blockEnc (k x : Bytes) : Bytes :=
  match roundKeys k with
  | [] => x
  | k0 :: ks => encRounds (xorBytes x k0) ks

/-- The rounds of decryption after the first `AddRoundKey`; the last has no `InvMixColumns` (R257). -/
def decRounds (s : Bytes) : List Bytes → Bytes
  | [] => s
  | [k] => xorBytes (invSubBytes (invShiftRows s)) k
  | k :: ks => decRounds (invMixColumns (xorBytes (invSubBytes (invShiftRows s)) k)) ks

/-- `BlockDec(K, Y)`: AES-128 decryption (R257), the round keys taken from the last to the first. -/
def blockDec (k y : Bytes) : Bytes :=
  match (roundKeys k).reverse with
  | [] => y
  | k0 :: ks => decRounds (xorBytes y k0) ks

end Sys2Proof.Machine
end

