-- ==== Sys2Proof/Machine/Cipher.lean ====
section
/-! DEFINITION. The pure functions of the Crypto Engine (spec/40_crypto_engine.md R131 to R136). The block
cipher is an argument, as R9 and R146 leave it open; the operations pass AES-128. -/

namespace Sys2Proof.Machine

/-- `Pad(P)`: `k = 16 - (len(P) mod 16)` bytes of value `k` are added (R95, R131). R131 defines it up to
96 bytes; that it pads longer strings in the same way is the model's choice (assumption log 18). -/
def pad (p : Bytes) : Bytes :=
  p ++ List.replicate (16 - p.length % 16) (BitVec.ofNat 8 (16 - p.length % 16))

/-- `Unpad(M)`; `none` is `invalid` (R108, R132). -/
def unpad (m : Bytes) : Option Bytes :=
  let v := m.getLastD 0
  if v.toNat < 1 ∨ 16 < v.toNat then none
  else if (m.drop (m.length - v.toNat)).all (fun b => b == v) then
    some (m.take (m.length - v.toNat))
  else none

/-- The first `n` blocks of a message (R133). -/
def blocksOf : Nat → Bytes → List Bytes
  | 0, _ => []
  | n + 1, m => m.take 16 :: blocksOf n (m.drop 16)

/-- The CBC chain over plaintext blocks: `C_i = BlockEnc(K, M_i xor C_(i-1))` (R133). -/
def cbcEncBlocks (enc : Bytes → Bytes → Bytes) (k : Bytes) : Bytes → List Bytes → Bytes
  | _, [] => []
  | c, m :: ms => enc k (xorBytes m c) ++ cbcEncBlocks enc k (enc k (xorBytes m c)) ms

/-- `CbcEnc(K, IV, M)`; the IV is not part of the output (R133). -/
def cbcEnc (enc : Bytes → Bytes → Bytes) (k iv m : Bytes) : Bytes :=
  cbcEncBlocks enc k iv (blocksOf (m.length / 16) m)

/-- The CBC chain over ciphertext blocks: `M_i = BlockDec(K, C_i) xor C_(i-1)` (R134). -/
def cbcDecBlocks (dec : Bytes → Bytes → Bytes) (k : Bytes) : Bytes → List Bytes → Bytes
  | _, [] => []
  | c, y :: ys => xorBytes (dec k y) c ++ cbcDecBlocks dec k y ys

/-- `CbcDec(K, IV, C)` (R134). -/
def cbcDec (dec : Bytes → Bytes → Bytes) (k iv c : Bytes) : Bytes :=
  cbcDecBlocks dec k iv (blocksOf (c.length / 16) c)

/-- `Encrypt(P, K, IV)`: the pair of ciphertext and IV (R135). Above 96 bytes R135 gives it no value; that
the function then encrypts all the same is the model's choice (assumption log 18), and ENCRYPT raises
before it calls it there (R145). -/
def cbcEncrypt (enc : Bytes → Bytes → Bytes) (p k iv : Bytes) : Bytes × Bytes :=
  (cbcEnc enc k iv (pad p), iv)

/-- The ciphertext lengths `Decrypt` accepts: positive multiples of 16 up to 128 (R106, R136). -/
def validCtLen (n : Nat) : Bool := n != 0 && n % 16 == 0 && decide (n ≤ Config.ctMax)

/-- `Decrypt(C, K, IV)`: total; the empty string is the failure sentinel (R136, R143). -/
def cbcDecrypt (dec : Bytes → Bytes → Bytes) (c k iv : Bytes) : Bytes :=
  if validCtLen c.length then (unpad (cbcDec dec k iv c)).getD [] else []

end Sys2Proof.Machine
end

