-- ==== Sys2Proof/Machine/State.lean ====
section
/-! DEFINITION. The state of one CRP engine as plain data, with the environment it meets
(spec/10_state.md R20 to R45), the reset state (R43), and the reasons a step can stop. -/

namespace Sys2Proof.Machine

/-- `PSTATE`: the state of the protocol state machine (R24); the code 7 never occurs (U14). -/
inductive PState where
  | init | awaitChallenge | challengeReceived | responseSent | success | failure | error
  deriving DecidableEq, Repr

/-- `ERR_REASON`: the reason inside `Error(reason)` (R29). -/
inductive Reason where
  | none | serverReported | protocolViolation | cryptoFailure | arithmetic | unexpectedStatus
  | transport
  deriving DecidableEq, Repr

/-- `ERR_CAUSE` and `UNIT_CAUSE`: the precise event (R30, R271). -/
inductive Cause where
  | none | serverReported | unexpectedCode | badLength | decryptFail | encryptFail | divByZero
  | unknownOperator | unexpectedStatus | transportClosed | transportError | badChallengeLen
  | badSequence
  deriving DecidableEq, Repr

/-- `VERDICT`: the outcome of the last PARSE_STAT (R31). -/
inductive Verdict where
  | none | success | failure
  deriving DecidableEq, Repr

/-- `COUT_KIND`: what `COUT` holds (R26). -/
inductive CoutKind where
  | none | ciphertext | plaintext
  deriving DecidableEq, Repr

/-- The byte-array registers, each an address space of bytes indexed from 0 (R32 to R39, R41). -/
inductive Space where
  | key | ivRx | ivTx | unameSrc | cin | cout | rxbuf | txbuf
  deriving DecidableEq, Repr

/-- The host registers that are moved as integers (R40). -/
inductive HostReg where
  | cmd | status | pstate | errReason | errCause | unitCause | verdict | cinLen | coutLen
  | unameSrcLen | txLen | txCnt | rxNeed | rxCnt | op | left | right | result
  deriving DecidableEq, Repr

/-- One access of the host (R40, R45, R212). An integer write carries 64 bits, of which the register
takes its width; a byte-array access names a first index and moves its bytes in index order. -/
inductive HostAction where
  | write (r : HostReg) (v : BitVec 64)
  | read (r : HostReg)
  | writeBytes (sp : Space) (off : Nat) (data : Bytes)
  | readBytes (sp : Space) (off len : Nat)
  deriving DecidableEq, Repr

/-- What a host read returned: a value, bytes, or a refusal (R14, R27, R36). -/
inductive HostData where
  | value (v : BitVec 64)
  | bytes (bs : Bytes)
  | refused
  deriving DecidableEq, Repr

/-- The peer's answer to an offered byte (R213). -/
inductive TxEvent where
  | accept | err
  deriving DecidableEq, Repr

/-- The peer's next event on the inbound stream (R214). -/
inductive RxEvent where
  | byte (b : Byte) | close | err
  deriving DecidableEq, Repr

/-- Who moves next: the host, the engine, or the hardware reset input (R212, R300). -/
inductive Turn where
  | host | engine | resetInput
  deriving DecidableEq, Repr

/-- The byte buffers as (address, byte) pairs in one canonical form: addresses strictly rising. An
address that is not listed holds NO VALUE (R14, R43); the address of a buffer's byte is
`Space.addr`. -/
abbrev Memory := List Host.Cell

/-- The whole state. `none` in a register is the spec's own `holds no value` (R14, R43), not a
missing reset value; assumption log 1. -/
structure State where
  /-- `OP` (R21) -/
  op : Option Byte
  /-- `LEFT` (R22) -/
  left : Option Operand
  /-- `RIGHT` (R22) -/
  right : Option Operand
  /-- `RESULT` (R23) -/
  result : Option Result
  /-- `PSTATE` (R24) -/
  pstate : PState
  /-- `TX_CNT` (R25) -/
  txCnt : BitVec 8
  /-- `TX_LEN` (R25, R39) -/
  txLen : BitVec 8
  /-- `RX_CNT` (R25) -/
  rxCnt : BitVec 8
  /-- `RX_NEED` (R25) -/
  rxNeed : BitVec 8
  /-- `BUSY` (R26) -/
  busy : Bool
  /-- `TX_ACTIVE` (R26) -/
  txActive : Bool
  /-- `IV_RX_VALID` (R26, R34) -/
  ivRxValid : Bool
  /-- `IV_TX_VALID` (R26, R35) -/
  ivTxValid : Bool
  /-- `RESULT_VALID` (R23, R26) -/
  resultValid : Bool
  /-- `CMD_ERR` (R26) -/
  cmdErr : Bool
  /-- `COUT_KIND` (R26) -/
  coutKind : CoutKind
  /-- `ERR_REASON` (R29) -/
  errReason : Reason
  /-- `ERR_CAUSE` (R30) -/
  errCause : Cause
  /-- `UNIT_CAUSE` (R30) -/
  unitCause : Cause
  /-- `VERDICT` (R31) -/
  verdict : Verdict
  /-- `CIN_LEN` (R32) -/
  cinLen : Option (BitVec 8)
  /-- `COUT_LEN` (R33) -/
  coutLen : BitVec 8
  /-- `UNAME_SRC_LEN` (R37) -/
  unameSrcLen : Option (BitVec 8)
  /-- `KEY`, `IV_RX`, `IV_TX`, `UNAME_SRC`, `CIN`, `COUT`, `RXBUF`, `TXBUF` (R32 to R39) -/
  mem : Memory
  /-- the outbound transport stream: the bytes the peer has accepted, oldest first (R41, R213) -/
  txStream : Bytes
  /-- the inbound transport stream: the peer's events not yet met, next first (R41, R42, R214) -/
  rxStream : List RxEvent
  /-- the MODEL's own: the peer's answers to the bytes to be offered, next first (R213) -/
  txEvents : List TxEvent
  /-- the MODEL's own: the accesses the host is about to make, next first (R212) -/
  hostQueue : List HostAction
  /-- the MODEL's own: whose move each coming step is, next first (R212) -/
  turns : List Turn
  /-- the MODEL's own: what the host's last read returned (R45) -/
  lastRead : Option HostData
  /-- the MODEL's own: how many values `Draw16` has given, which picks the next one (R139) -/
  draws : Nat
  deriving DecidableEq, Repr

/-- The machine right after reset (R43, R301), its environment empty (assumption log 5). -/
def State.reset : State where
  op := none
  left := none
  right := none
  result := none
  pstate := .init
  txCnt := 0
  txLen := 0
  rxCnt := 0
  rxNeed := 0
  busy := false
  txActive := false
  ivRxValid := false
  ivTxValid := false
  resultValid := false
  cmdErr := false
  coutKind := .none
  errReason := .none
  errCause := .none
  unitCause := .none
  verdict := .none
  cinLen := none
  coutLen := 0
  unameSrcLen := none
  mem := []
  txStream := []
  rxStream := []
  txEvents := []
  hostQueue := []
  turns := []
  lastRead := none
  draws := 0

/-- Why the machine stops with a fault. -/
inductive Fault where
  /-- A step of a session would read state that holds no value. Raised by the engine's own steps.
  R225 says this cannot arise in a session, and gives no effect; safe (assumption log 6). -/
  | noValueInSession
  /-- The host writes, while no session runs, a byte that its buffer does not have. Raised by a host
  write of a byte array. R40 has no such address; safe (assumption log 7). -/
  | noSuchByte
  deriving DecidableEq, Repr

/-- Why the machine refuses. -/
inductive Refusal where
  /-- An instruction without a meaning. Raised by no arm of `exec`; safe. -/
  | notModelled (mnemonic : String)
  /-- A received frame is no instruction at its receive point. Raised by no step, since a frame is
  decoded only when all its bytes are in (R109); safe. -/
  | undecodable
  deriving DecidableEq, Repr

/-- What a unit operation did: all its writes, a raise after the writes its rule places before
that point (R273), or nothing because an input holds no value or an interlock flag is wrong (R14). -/
inductive OpResult where
  | done (s : State)
  | raised (c : Cause) (s : State)
  | lacking
  deriving DecidableEq, Repr

end Sys2Proof.Machine
end

