-- ==== Sys2Proof/Machine/Flags.lean ====
section
/-! DEFINITION. The numeric codes of the enumerated registers (D27), `STATUS` (spec/10_state.md R28), and the
flags the operations write (R26). The solver sets no arithmetic flag (R200). -/

namespace Sys2Proof.Machine

/-- The 3-bit code of `PSTATE` (R24). -/
def PState.code : PState → Nat
  | .init => 0
  | .awaitChallenge => 1
  | .challengeReceived => 2
  | .responseSent => 3
  | .success => 4
  | .failure => 5
  | .error => 6

/-- The code of `ERR_REASON` (R29). -/
def Reason.code : Reason → Nat
  | .none => 0
  | .serverReported => 1
  | .protocolViolation => 2
  | .cryptoFailure => 3
  | .arithmetic => 4
  | .unexpectedStatus => 5
  | .transport => 6

/-- The code of `ERR_CAUSE` and `UNIT_CAUSE` (R30, R271). -/
def Cause.code : Cause → Nat
  | .none => 0
  | .serverReported => 1
  | .unexpectedCode => 2
  | .badLength => 3
  | .decryptFail => 4
  | .encryptFail => 5
  | .divByZero => 6
  | .unknownOperator => 7
  | .unexpectedStatus => 8
  | .transportClosed => 9
  | .transportError => 10
  | .badChallengeLen => 11
  | .badSequence => 12

/-- The code of `VERDICT` (R31). -/
def Verdict.code : Verdict → Nat
  | .none => 0
  | .success => 1
  | .failure => 2

/-- The code of `COUT_KIND` (R26). -/
def CoutKind.code : CoutKind → Nat
  | .none => 0
  | .ciphertext => 1
  | .plaintext => 2

/-- The terminal states (R210, R219). -/
def PState.terminal : PState → Bool
  | .success | .failure | .error => true
  | .init | .awaitChallenge | .challengeReceived | .responseSent => false

/-- `STATUS.DONE` (R28): not separate state. -/
def State.isDone (s : State) : Bool := s.pstate.terminal

/-- `STATUS`, assembled from the flags (R28). -/
def State.statusWord (s : State) : BitVec 8 :=
  BitVec.ofNat 8 (s.busy.toNat + 2 * s.isDone.toNat + 4 * s.ivRxValid.toNat
    + 8 * s.ivTxValid.toNat + 16 * s.resultValid.toNat + 32 * s.cmdErr.toNat
    + 64 * s.coutKind.code)

/-- A successful SOLVE: the value and `RESULT_VALID <- 1` (R23, R198). -/
def putResult (v : Result) (s : State) : State :=
  { s with result := some v, resultValid := true }

/-- A failed SOLVE: `RESULT_VALID <- 0` and `RESULT` holds no value (R23, R198, D30). -/
def dropResult (s : State) : State :=
  { s with result := none, resultValid := false }

/-- A crypto operation without output: `COUT_LEN <- 0`, `COUT_KIND <- 0` (R137, R138). -/
def dropOutput (s : State) : State :=
  { s with coutLen := 0, coutKind := .none }

end Sys2Proof.Machine
end

