-- ==== Sys2Proof/Machine/Ops.lean ====
section
/-! DEFINITION. The named operations over buffers, transfers and reports; what `raise` does
(spec/60_exceptions.md R273, R277) and what reset does (R300, R301), the only way back. -/

namespace Sys2Proof.Machine

/-- The byte at an address; `none` where nothing has written it: no value (R14). -/
def Memory.read : Memory → Nat → Option Byte
  | [], _ => none
  | (a, b) :: m, x => if x = a then some b else Memory.read m x

/-- Writes one byte, keeping addresses strictly rising. -/
def Memory.write : Memory → Nat → Byte → Memory
  | [], x, v => [(x, v)]
  | (a, b) :: m, x, v =>
    if x < a then (x, v) :: (a, b) :: m
    else if x = a then (a, v) :: m
    else (a, b) :: Memory.write m x v

/-- The canonical form: addresses strictly rising. (An unlisted address holds no value, which no
entry can equal.) -/
def Memory.wf : Memory → Bool
  | [] => true
  | [_] => true
  | (a, _) :: (a', b') :: m => decide (a < a') && Memory.wf ((a', b') :: m)

/-- The `n` bytes from `a` on, if every one of them holds a value. -/
def Memory.readRange (m : Memory) (a : Nat) : Nat → Option Bytes
  | 0 => some []
  | n + 1 =>
    match m.read a, Memory.readRange m (a + 1) n with
    | some b, some bs => some (b :: bs)
    | _, _ => none

/-- Writes a byte string from `a` on. -/
def Memory.writeRange (m : Memory) (a : Nat) : Bytes → Memory
  | [] => m
  | b :: bs => Memory.writeRange (m.write a b) (a + 1) bs

/-- The register number of a byte array in the host map (R40). -/
def Space.number : Space → Nat
  | .key => 0x20
  | .ivRx => 0x21
  | .ivTx => 0x22
  | .unameSrc => 0x23
  | .cin => 0x24
  | .cout => 0x25
  | .rxbuf => 0x26
  | .txbuf => 0x27

/-- How many bytes a byte array has (R32 to R39). -/
def Space.size : Space → Nat
  | .key => Config.keyLen
  | .ivRx => Config.ivLen
  | .ivTx => Config.ivLen
  | .unameSrc => Config.unameSrcMax
  | .cin => 128
  | .cout => 128
  | .rxbuf => Config.longFrame
  | .txbuf => Config.longFrame

/-- The model's address of byte `i` of a byte array: register number times 256 plus the index, so that
the arrays of R40 lie apart. Assumption log 8. -/
def Space.addr (sp : Space) (i : Nat) : Nat := sp.number * 256 + i

/-- `BUF[off .. off+n)`, if the array has these bytes and each holds a value (R13, R14). -/
def State.readBytes (s : State) (sp : Space) (off n : Nat) : Option Bytes :=
  if off + n ≤ sp.size then Memory.readRange s.mem (sp.addr off) n else none

/-- `BUF[off .. off+len) <- bs` (R13). -/
def State.writeBytes (s : State) (sp : Space) (off : Nat) (bs : Bytes) : State :=
  { s with mem := Memory.writeRange s.mem (sp.addr off) bs }

/-- The session reason of a cause (R271). `NONE` and `BAD_SEQUENCE` never reach a session. -/
def reasonOf : Cause → Reason
  | .none => .none
  | .serverReported => .serverReported
  | .unexpectedCode => .protocolViolation
  | .badLength => .protocolViolation
  | .decryptFail => .cryptoFailure
  | .encryptFail => .cryptoFailure
  | .divByZero => .arithmetic
  | .unknownOperator => .arithmetic
  | .unexpectedStatus => .unexpectedStatus
  | .transportClosed => .transport
  | .transportError => .transport
  | .badChallengeLen => .protocolViolation
  | .badSequence => .none

/-- Entry to `Error` (R277): the block's trap entry. Nothing else is changed. -/
def enterError (c : Cause) (s : State) : State :=
  { s with
    pstate := .error
    errReason := reasonOf c
    errCause := c
    busy := false
    txActive := false }

/-- The outcome of a unit command goes to `UNIT_CAUSE` (R30). -/
def setUnitCause (c : Cause) (s : State) : State := { s with unitCause := c }

/-- `CMD_ERR` is cleared by the next accepted command (R26). -/
def clearCmdErr (s : State) : State := { s with cmdErr := false }

/-- `PSTATE <- p` (R24). -/
def setPState (p : PState) (s : State) : State := { s with pstate := p }

/-- What `raise` does (R273): inside a session the entry to `Error`, inside a unit command the
report in `UNIT_CAUSE`. -/
def raise (c : Cause) (s : State) : State :=
  if s.busy then enterError c s else setUnitCause c s

/-- Reset, the only way out of `Error` (R278, R300, R301): every piece of the engine's state takes
its reset value; the environment stays (bytes sent stay sent, bytes consumed stay consumed). -/
def hardReset (s : State) : State :=
  { State.reset with
    txStream := s.txStream
    rxStream := s.rxStream
    txEvents := s.txEvents
    hostQueue := s.hostQueue
    turns := s.turns
    lastRead := s.lastRead
    draws := s.draws }

/-- A command or write that is not accepted: it changes nothing except `CMD_ERR` (R45, R112, R273). -/
def refuseCommand (s : State) : State := { s with cmdErr := true }

/-- One operation after another; a raise or a lack stops the sequence where it is (R216, R217). -/
def OpResult.andThen (r : OpResult) (f : State → OpResult) : OpResult :=
  match r with
  | .done s => f s
  | .raised c s => .raised c s
  | .lacking => .lacking

/-- An operation as a unit command (R45, R273): refused while busy; else its outcome goes to
`UNIT_CAUSE`, and acceptance clears `CMD_ERR` (R26; assumption log 9). -/
def unitCommand (op : State → OpResult) (s : State) : State :=
  if s.busy then refuseCommand s
  else
    match op (clearCmdErr s) with
    | .done t => setUnitCause .none t
    | .raised c t => raise c t
    | .lacking => setUnitCause .badSequence s

/-- An operation as a step of a session (R216 to R218, R273): a raise enters `Error`; a lack cannot
arise (R225; assumption log 6). -/
def sessionStep (r : OpResult) : Host.Outcome State Fault Refusal :=
  match r with
  | .done s => .next s
  | .raised c s => .next (enterError c s)
  | .lacking => .fault .noValueInSession

end Sys2Proof.Machine
end

