-- ==== Sys2Proof/Machine/Operands.lean ====
section
/-! DEFINITION. Where the operations take their operands from: the user name, a frame's code, the
drawn IV, widened operands (spec/41_message_framer.md R161, R164; spec/40_crypto_engine.md R139; R97). -/

namespace Sys2Proof.Machine

/-- `UnameField(U)`: up to 15 source bytes, then zeros to 16 (R99, R161). -/
def usernameField (u : Bytes) : Bytes :=
  u.take Config.unameVisibleMax
    ++ List.replicate (Config.unameLen - min u.length Config.unameVisibleMax) 0

/-- `UNAME_SRC[0 .. min(UNAME_SRC_LEN, 15))`, the bytes of the name that are read (R37, R162). -/
def State.sourceName (s : State) : Option Bytes :=
  match s.unameSrcLen with
  | none => none
  | some u => s.readBytes .unameSrc 0 (min u.toNat Config.unameVisibleMax)

/-- The username field of the frames the framer builds (R161). -/
def State.userField (s : State) : Option Bytes := s.sourceName.map usernameField

/-- `KEY[0 .. 16)` (R36). -/
def State.keyBytes (s : State) : Option Bytes := s.readBytes .key 0 Config.keyLen

/-- The value `Draw16` gives next (R139). -/
def State.nextDraw (s : State) : Bytes := toBE Config.ivLen (Config.draw16 s.draws).toNat

/-- The code of the frame in `RXBUF` (R164). -/
def State.rxCode (s : State) : Option Bytes := s.readBytes .rxbuf 0 Config.codeLen

/-- `zext_64` (R11, R97). -/
def zext64 (v : Operand) : Result := v.setWidth 64

/-- The two receive points (R164). -/
inductive ReceivePoint where
  | challenge | status
  deriving DecidableEq, Repr

/-- What `ClassifyCode` finds. -/
inductive CodeClass where
  | proceed
  | success
  | failure
  | raises (c : Cause)
  deriving DecidableEq, Repr

/-- `ClassifyCode(point, code)`: `"305"` is tested first at both points (R164, R276). -/
def classifyCode : ReceivePoint → Bytes → CodeClass
  | .challenge, c =>
    if c = code305 then .raises .serverReported
    else if c = code110 then .proceed
    else .raises .unexpectedCode
  | .status, c =>
    if c = code305 then .raises .serverReported
    else if c = code205 then .success
    else if c = code210 then .failure
    else .raises .unexpectedStatus

/-- The outcome of an instruction whose operands are all at hand: its writes, or its raise (R273). -/
def outcomeOf (r : OpResult) : Host.Outcome State Fault Refusal :=
  match r with
  | .done s => .next s
  | .raised c s => .next (raise c s)
  | .lacking => .fault .noValueInSession

end Sys2Proof.Machine
end

