-- ==== Sys2Proof/Machine/Crypto.lean ====
section
/-! DEFINITION. The Crypto Engine's two operations, ENCRYPT and DECRYPT (spec/40_crypto_engine.md R137, R138),
over the pure functions of Cipher and the AES-128 primitive. -/

namespace Sys2Proof.Machine

/-- A successful ENCRYPT: the IV, the ciphertext, one draw taken (R137). -/
def putCiphertext (iv ct : Bytes) (s : State) : State :=
  { (s.writeBytes .ivTx 0 iv).writeBytes .cout 0 ct with
    ivTxValid := true
    coutLen := BitVec.ofNat 8 ct.length
    coutKind := .ciphertext
    draws := s.draws + 1 }

/-- A failed ENCRYPT: no output, no IV (R137). -/
def encryptFailed (s : State) : State := { dropOutput s with ivTxValid := false }

/-- A successful DECRYPT: the plaintext; the received IV is consumed (R138). -/
def putPlaintext (u : Bytes) (s : State) : State :=
  { s.writeBytes .cout 0 u with
    ivRxValid := false
    coutLen := BitVec.ofNat 8 u.length
    coutKind := .plaintext }

/-- A failed DECRYPT: no output; the received IV is consumed (R138). -/
def decryptFailed (s : State) : State := { dropOutput s with ivRxValid := false }

/-- ENCRYPT with the drawn IV made an argument (R135, R137). A plaintext above 96 bytes raises, with
no draw taken (R145). -/
def encryptWith (iv : Bytes) (s : State) : OpResult :=
  match s.cinLen with
  | none => .lacking
  | some n =>
    if Config.ptMax < n.toNat then
      .raised .encryptFail (encryptFailed s)
    else
      match s.readBytes .cin 0 n.toNat, s.keyBytes with
      | some p, some k =>
        .done (putCiphertext (cbcEncrypt blockEnc p k iv).2 (cbcEncrypt blockEnc p k iv).1 s)
      | _, _ => .lacking

/-- ENCRYPT (R137): the IV is the next draw (R139). -/
def encryptOp (s : State) : OpResult := encryptWith s.nextDraw s

/-- DECRYPT (R138): no valid IV, then the length, then the bytes (R276); an empty result is the
failure sentinel (R143). -/
def decryptOp (s : State) : OpResult :=
  if s.ivRxValid then
    match s.cinLen with
    | none => .lacking
    | some n =>
      if validCtLen n.toNat then
        match s.readBytes .cin 0 n.toNat, s.keyBytes, s.readBytes .ivRx 0 Config.ivLen with
        | some c, some k, some iv =>
          if (cbcDecrypt blockDec c k iv).length = 0 then .raised .decryptFail (decryptFailed s)
          else .done (putPlaintext (cbcDecrypt blockDec c k iv) s)
        | _, _, _ => .lacking
      else .raised .decryptFail (decryptFailed s)
  else .raised .decryptFail (decryptFailed s)

/-- Host command ENCRYPT (R137). -/
def execEncrypt (s : State) : Host.Outcome State Fault Refusal := .next (unitCommand encryptOp s)

/-- Host command DECRYPT (R138). -/
def execDecrypt (s : State) : Host.Outcome State Fault Refusal := .next (unitCommand decryptOp s)

end Sys2Proof.Machine
end

