-- ==== Sys2Proof/Machine/Framer.lean ====
section
/-! DEFINITION. The Message Framer (spec/41_message_framer.md R160 to R170): the frames as instructions, and
the four host commands that build and parse them. -/

namespace Sys2Proof.Machine

/-- A Request frame is put into `TXBUF` (R162). -/
def putRequest (u : Bytes) (s : State) : State :=
  { s.writeBytes .txbuf 0 (shortFrameBytes code105 u) with txLen := 19 }

/-- A Response frame is put into `TXBUF`; its IV and ciphertext cannot be framed again (R163). -/
def putResponse (u iv : Bytes) (n : BitVec 32) (p : Bytes) (s : State) : State :=
  { s.writeBytes .txbuf 0 (longFrameBytes code115 u iv n p) with
    txLen := 167
    ivTxValid := false
    coutKind := .none }

/-- IV and payload of an accepted Challenge frame (R167). -/
def extractChallenge (iv ct : Bytes) (s : State) : State :=
  { (s.writeBytes .ivRx 0 iv).writeBytes .cin 0 ct with
    ivRxValid := true
    cinLen := some (BitVec.ofNat 8 ct.length) }

/-- A Challenge frame whose code is `"110"`: the length check on all 32 bits, then the extraction;
on a bad length nothing is written (R106, R165 to R167). -/
def acceptChallenge (iv : Bytes) (n : BitVec 32) (p : Bytes) (s : State) : OpResult :=
  if Config.ptMax < n.toNat then .raised .badLength s
  else .done (extractChallenge iv (p.take n.toNat) s)

/-- The verdict of a Status frame (R168). -/
def putVerdict (v : Verdict) (s : State) : State := { s with verdict := v }

/-- BUILD_REQ (R162). -/
def buildReqOp (s : State) : OpResult :=
  match s.userField with
  | none => .lacking
  | some u => .done (putRequest u s)

/-- The payload field of a Response: the ciphertext, then the tail (R163, D6). -/
def responsePayload (ct : Bytes) : Bytes :=
  ct ++ List.replicate (Config.payloadMax - ct.length) Config.respTailFill

/-- BUILD_RESP (R163). -/
def buildRespOp (s : State) : OpResult :=
  if s.ivTxValid = false ∨ s.coutKind ≠ .ciphertext then .lacking
  else
    match s.userField, s.readBytes .ivTx 0 Config.ivLen, s.readBytes .cout 0 s.coutLen.toNat with
    | some u, some iv, some ct =>
      .done (putResponse u iv (s.coutLen.setWidth 32) (responsePayload ct) s)
    | _, _, _ => .lacking

/-- PARSE_CHAL (R165): only the bytes its path needs are read. -/
def parseChalOp (s : State) : OpResult :=
  match s.rxCode with
  | none => .lacking
  | some code =>
    match classifyCode .challenge code with
    | .raises c => .raised c s
    | _ =>
      match s.readBytes .rxbuf 35 Config.lenField with
      | none => .lacking
      | some lenBytes =>
        let n := be32 lenBytes
        if Config.ptMax < n.toNat then .raised .badLength s
        else
          match s.readBytes .rxbuf 19 Config.ivLen, s.readBytes .rxbuf 39 n.toNat with
          | some iv, some ct => acceptChallenge iv n ct s
          | _, _ => .lacking

/-- PARSE_STAT (R168). -/
def parseStatOp (s : State) : OpResult :=
  match s.rxCode with
  | none => .lacking
  | some code =>
    match classifyCode .status code with
    | .success => .done (putVerdict .success s)
    | .failure => .done (putVerdict .failure s)
    | .raises c => .raised c (putVerdict .none s)
    | .proceed => .lacking

/-- The Request frame (R101, R162). That a username field whose byte 15 is not zero, which the framer never
builds (R170), is copied as it stands is the model's choice (assumption log 19). -/
def execRequest105 (u : Bytes) (s : State) : Host.Outcome State Fault Refusal :=
  .next (putRequest u s)

/-- The Response frame (R101, R163). That a frame which the framer never builds (R170: byte 15 of its
username, its length, its tail) is copied as it stands is the model's choice (assumption log 19). -/
def execResponse115 (u iv : Bytes) (n : BitVec 32) (p : Bytes) (s : State) :
    Host.Outcome State Fault Refusal :=
  .next (putResponse u iv n p s)

/-- The Challenge frame; its username is not examined (R165, R169). -/
def execChallenge110 (iv : Bytes) (n : BitVec 32) (p : Bytes) (s : State) :
    Host.Outcome State Fault Refusal :=
  outcomeOf (acceptChallenge iv n p s)

/-- The Status frame `"205"` (R168). -/
def execStatus205 (s : State) : Host.Outcome State Fault Refusal :=
  outcomeOf (.done (putVerdict .success s))

/-- The Status frame `"210"`: the server's verdict, not an error (R168). -/
def execStatus210 (s : State) : Host.Outcome State Fault Refusal :=
  outcomeOf (.done (putVerdict .failure s))

/-- `"305"` at the challenge point: no further field is read (R164, R221). -/
def execError305AtChallenge (s : State) : Host.Outcome State Fault Refusal :=
  outcomeOf (.raised .serverReported s)

/-- `"305"` at the status point (R164, R168). -/
def execError305AtStatus (s : State) : Host.Outcome State Fault Refusal :=
  outcomeOf (.raised .serverReported (putVerdict .none s))

/-- Any other code at the challenge point (R104, R164). -/
def execUnexpectedCodeAtChallenge (s : State) : Host.Outcome State Fault Refusal :=
  outcomeOf (.raised .unexpectedCode s)

/-- Any other code at the status point (R104, R164, R168). -/
def execUnexpectedCodeAtStatus (s : State) : Host.Outcome State Fault Refusal :=
  outcomeOf (.raised .unexpectedStatus (putVerdict .none s))

/-- Host command BUILD_REQ (R162). -/
def execBuildReq (s : State) : Host.Outcome State Fault Refusal := .next (unitCommand buildReqOp s)

/-- Host command PARSE_CHAL (R165). -/
def execParseChal (s : State) : Host.Outcome State Fault Refusal :=
  .next (unitCommand parseChalOp s)

/-- Host command BUILD_RESP (R163). -/
def execBuildResp (s : State) : Host.Outcome State Fault Refusal :=
  .next (unitCommand buildRespOp s)

/-- Host command PARSE_STAT (R168). -/
def execParseStat (s : State) : Host.Outcome State Fault Refusal :=
  .next (unitCommand parseStatOp s)

end Sys2Proof.Machine
end

