-- ==== Sys2Proof/Machine/Solver.lean ====
section
/-! DEFINITION. The Challenge Solver (spec/42_challenge_solver.md R190 to R201): DECODE, the five
arithmetic instructions and the unknown operator, SOLVE, ENCODE. -/

namespace Sys2Proof.Machine

/-- ADD (R192). -/
def addOp (l r : Operand) (s : State) : OpResult := .done (putResult (zext64 l + zext64 r) s)

/-- SUB: wraps modulo 2^64, with no flag and no error (R193). -/
def subOp (l r : Operand) (s : State) : OpResult := .done (putResult (zext64 l - zext64 r) s)

/-- MUL (R194). -/
def mulOp (l r : Operand) (s : State) : OpResult := .done (putResult (zext64 l * zext64 r) s)

/-- DIV: a zero right operand raises, and no result is produced (R195). -/
def divOp (l r : Operand) (s : State) : OpResult :=
  if r = 0 then .raised .divByZero (dropResult s) else .done (putResult (zext64 l / zext64 r) s)

/-- MOD: a zero right operand raises, and no result is produced (R196). -/
def modOp (l r : Operand) (s : State) : OpResult :=
  if r = 0 then .raised .divByZero (dropResult s) else .done (putResult (zext64 l % zext64 r) s)

/-- Any other operator; the operands are not examined (R197). -/
def unknownOp (s : State) : OpResult := .raised .unknownOperator (dropResult s)

/-- What SOLVE does with `OP`, `LEFT` and `RIGHT`: the operator is looked at first (R198, R276). -/
def evaluate (op : Byte) (l r : Operand) (s : State) : OpResult :=
  if op = 0x2B then addOp l r s
  else if op = 0x2D then subOp l r s
  else if op = 0x2A then mulOp l r s
  else if op = 0x2F then divOp l r s
  else if op = 0x25 then modOp l r s
  else unknownOp s

/-- The challenge `c` goes into `OP`, `LEFT`, `RIGHT` (R97, R191). -/
def loadChallenge (c : Bytes) (s : State) : State :=
  { s with
    op := some (c.headD 0)
    left := some (be32 (slice c 1 4))
    right := some (be32 (slice c 5 4)) }

/-- The result's eight bytes go into `CIN` (R113, R199). -/
def putResultBytes (v : Result) (s : State) : State :=
  { s.writeBytes .cin 0 (toBE64 v) with cinLen := some 8 }

/-- DECODE (R191, R201). -/
def decodeOp (s : State) : OpResult :=
  if s.coutKind ≠ .plaintext then .lacking
  else if s.coutLen ≠ 9 then .raised .badChallengeLen s
  else
    match s.readBytes .cout 0 Config.chalLen with
    | none => .lacking
    | some c => .done (loadChallenge c s)

/-- SOLVE (R198). -/
def solveOp (s : State) : OpResult :=
  match s.op, s.left, s.right with
  | some op, some l, some r => evaluate op l r s
  | _, _, _ => .lacking

/-- ENCODE (R113, R199). -/
def encodeOp (s : State) : OpResult :=
  if s.resultValid then
    match s.result with
    | none => .lacking
    | some v => .done (putResultBytes v s)
  else .lacking

/-- The `+` challenge (R192). -/
def execAdd (l r : Operand) (s : State) : Host.Outcome State Fault Refusal := outcomeOf (addOp l r s)

/-- The `-` challenge (R193). -/
def execSub (l r : Operand) (s : State) : Host.Outcome State Fault Refusal := outcomeOf (subOp l r s)

/-- The `*` challenge (R194). -/
def execMul (l r : Operand) (s : State) : Host.Outcome State Fault Refusal := outcomeOf (mulOp l r s)

/-- The `/` challenge (R195). -/
def execDiv (l r : Operand) (s : State) : Host.Outcome State Fault Refusal := outcomeOf (divOp l r s)

/-- The `%` challenge (R196). -/
def execMod (l r : Operand) (s : State) : Host.Outcome State Fault Refusal := outcomeOf (modOp l r s)

/-- A challenge with an unknown operator (R105, R197). -/
def execUnknownOperator (s : State) : Host.Outcome State Fault Refusal := outcomeOf (unknownOp s)

/-- Host command DECODE (R191). -/
def execDecode (s : State) : Host.Outcome State Fault Refusal := .next (unitCommand decodeOp s)

/-- Host command SOLVE (R198). -/
def execSolve (s : State) : Host.Outcome State Fault Refusal := .next (unitCommand solveOp s)

/-- Host command ENCODE (R199). -/
def execEncode (s : State) : Host.Outcome State Fault Refusal := .next (unitCommand encodeOp s)

end Sys2Proof.Machine
end

