-- ==== Sys2Proof/Machine/Sequencer.lean ====
section
/-! DEFINITION. The protocol sequencer (spec/43_protocol_sequencer.md R210 to R227): START, RESET, the reserved
commands, and what each transition does before and after the frame or the challenge it runs. -/

namespace Sys2Proof.Machine

/-- START is accepted when idle in `Init` with the key and the user name written (R211, R302). -/
def startAccepted (s : State) : Option Bytes :=
  if s.busy = false ∧ s.pstate = .init ∧ s.keyBytes.isSome then s.userField else none

/-- The next frame of `TXBUF` is to be sent from its first byte (R211, R217 step 6). -/
def startSending (s : State) : State := { s with txCnt := 0, txActive := true }

/-- START is accepted: the session begins with its Request frame (R211). -/
def startSession (u : Bytes) (s : State) : State :=
  startSending { putRequest u (clearCmdErr s) with busy := true }

/-- Host command START (R211). -/
def execStart (s : State) : Host.Outcome State Fault Refusal :=
  match startAccepted s with
  | none => .next (refuseCommand s)
  | some u => .next (startSession u s)

/-- Host command RESET: accepted while not busy (R224). -/
def execReset (s : State) : Host.Outcome State Fault Refusal :=
  .next (if s.busy then refuseCommand s else hardReset s)

/-- A reserved command code: no operation (R112). -/
def execReservedCmd (s : State) : Host.Outcome State Fault Refusal := .next (refuseCommand s)

/-- Nothing more is to be sent (R213). -/
def stopSending (s : State) : State := { s with txActive := false }

/-- A frame of `n` bytes is to be received in state `p` (R215, R217). -/
def startReceiving (p : PState) (n : BitVec 8) (s : State) : State :=
  { s with pstate := p, rxNeed := n, rxCnt := 0 }

/-- The last byte of a frame is accepted: the end of T1 (R215) or of T3 (R217). -/
def frameSent (s : State) : State :=
  match s.pstate with
  | .init => startReceiving .awaitChallenge 167 (stopSending s)
  | .challengeReceived => startReceiving .responseSent 19 (stopSending s)
  | .awaitChallenge | .responseSent | .success | .failure | .error => stopSending s

/-- T2 after PARSE_CHAL: DECRYPT, then `ChallengeReceived` (R216). -/
def afterChallenge (s : State) : Host.Outcome State Fault Refusal :=
  sessionStep ((decryptOp s).andThen fun t => .done (setPState .challengeReceived t))

/-- T3 after SOLVE: ENCODE, ENCRYPT, BUILD_RESP, and the frame is to be sent (R217 steps 3 to 6). -/
def afterSolve (s : State) : Host.Outcome State Fault Refusal :=
  sessionStep ((((encodeOp s).andThen encryptOp).andThen buildRespOp).andThen fun t =>
    .done (startSending t))

/-- Entry to `Success` or `Failure` (R218, R219). -/
def endSession (p : PState) (s : State) : State :=
  { s with pstate := p, busy := false, txActive := false }

/-- T4 after PARSE_STAT: the verdict ends the session; a raise has entered `Error` (R218). -/
def afterStatus (s : State) : State :=
  match s.verdict with
  | .success => endSession .success s
  | .failure => endSession .failure s
  | .none => s

end Sys2Proof.Machine
end

