-- ==== Sys2Proof/Machine/Dispatch.lean ====
section
/-! DEFINITION. One arm for each instruction of the opcode table. -/

namespace Sys2Proof.Machine

def exec (i : Instr) (s : State) : Host.Outcome State Fault Refusal :=
  match i with
  | .add l r => Sys2Proof.Machine.execAdd l r s
  | .sub l r => Sys2Proof.Machine.execSub l r s
  | .mul l r => Sys2Proof.Machine.execMul l r s
  | .div l r => Sys2Proof.Machine.execDiv l r s
  | .mod l r => Sys2Proof.Machine.execMod l r s
  | .unknownOperator _ _ _ => Sys2Proof.Machine.execUnknownOperator s
  | .request105 u => Sys2Proof.Machine.execRequest105 u s
  | .challenge110 _ iv n p => Sys2Proof.Machine.execChallenge110 iv n p s
  | .response115 u iv n p => Sys2Proof.Machine.execResponse115 u iv n p s
  | .status205 _ => Sys2Proof.Machine.execStatus205 s
  | .status210 _ => Sys2Proof.Machine.execStatus210 s
  | .error305AtChallenge _ _ _ _ => Sys2Proof.Machine.execError305AtChallenge s
  | .error305AtStatus _ => Sys2Proof.Machine.execError305AtStatus s
  | .unexpectedCodeAtChallenge _ _ _ _ _ => Sys2Proof.Machine.execUnexpectedCodeAtChallenge s
  | .unexpectedCodeAtStatus _ _ => Sys2Proof.Machine.execUnexpectedCodeAtStatus s
  | .start => Sys2Proof.Machine.execStart s
  | .buildReq => Sys2Proof.Machine.execBuildReq s
  | .parseChal => Sys2Proof.Machine.execParseChal s
  | .decrypt => Sys2Proof.Machine.execDecrypt s
  | .decode => Sys2Proof.Machine.execDecode s
  | .solve => Sys2Proof.Machine.execSolve s
  | .encode => Sys2Proof.Machine.execEncode s
  | .encrypt => Sys2Proof.Machine.execEncrypt s
  | .buildResp => Sys2Proof.Machine.execBuildResp s
  | .parseStat => Sys2Proof.Machine.execParseStat s
  | .reset => Sys2Proof.Machine.execReset s
  | .reservedCmd _ => Sys2Proof.Machine.execReservedCmd s

end Sys2Proof.Machine
end

