-- ==== Sys2Proof/Machine/Engine.lean ====
section
/-! DEFINITION. The engine's own steps: the TX step, the RX step and the compute step
(spec/43_protocol_sequencer.md R212 to R218). At most one is enabled in any state (R212). -/

namespace Sys2Proof.Machine

/-- The RX step is enabled (R214). -/
def State.rxEnabled (s : State) : Bool :=
  s.busy && !s.txActive && (s.pstate == .awaitChallenge || s.pstate == .responseSent)
    && decide (s.rxCnt < s.rxNeed)

/-- The compute step is enabled (R217). -/
def State.computeEnabled (s : State) : Bool := s.pstate == .challengeReceived && !s.txActive

/-- The offered byte is accepted: it is on the stream for good (R213). -/
def byteAccepted (b : Bytes) (s : State) : State :=
  { s with txCnt := s.txCnt + 1, txStream := s.txStream ++ b }

/-- The TX step (R213): the engine offers `TXBUF[TX_CNT]` and the peer accepts it or reports an
error. -/
def txStep (e : TxEvent) (s : State) : Host.Outcome State Fault Refusal :=
  match s.readBytes .txbuf s.txCnt.toNat 1 with
  | none => .fault .noValueInSession
  | some b =>
    match e with
    | .err => .next (enterError .transportError s)
    | .accept =>
      if (byteAccepted b s).txCnt = s.txLen then .next (frameSent (byteAccepted b s))
      else .next (byteAccepted b s)

/-- A frame received at the challenge point runs, and T2 goes on unless it raised (R216). -/
def runChallengeFrame (i : Instr) (s : State) : Host.Outcome State Fault Refusal :=
  match exec i s with
  | .next t => if t.pstate = .error then .next t else afterChallenge t
  | .fault f => .fault f
  | .refused r => .refused r

/-- A frame received at the status point runs, and its verdict ends the session (R218). -/
def runStatusFrame (i : Instr) (s : State) : Host.Outcome State Fault Refusal :=
  match exec i s with
  | .next t => .next (afterStatus t)
  | .fault f => .fault f
  | .refused r => .refused r

/-- The frame in `RXBUF` is complete: it is read at the session's receive point (R109, R216, R218). -/
def frameReceived (s : State) : Host.Outcome State Fault Refusal :=
  match s.pstate with
  | .awaitChallenge =>
    match s.readBytes .rxbuf 0 Config.longFrame with
    | none => .fault .noValueInSession
    | some f =>
      match decode .challengePoint f with
      | .instr i => runChallengeFrame i s
      | .rejected _ => .refused .undecodable
  | .responseSent =>
    match s.readBytes .rxbuf 0 Config.shortFrame with
    | none => .fault .noValueInSession
    | some f =>
      match decode .statusPoint f with
      | .instr i => runStatusFrame i s
      | .rejected _ => .refused .undecodable
  | .init | .challengeReceived | .success | .failure | .error => .next s

/-- The byte `b` is put at `RXBUF[RX_CNT]` (R214). -/
def putRxByte (b : Byte) (s : State) : State :=
  { s.writeBytes .rxbuf s.rxCnt.toNat [b] with rxCnt := s.rxCnt + 1 }

/-- The RX step (R214). -/
def rxStep (e : RxEvent) (s : State) : Host.Outcome State Fault Refusal :=
  match e with
  | .close => .next (enterError .transportClosed s)
  | .err => .next (enterError .transportError s)
  | .byte b =>
    if (putRxByte b s).rxCnt = s.rxNeed then frameReceived (putRxByte b s)
    else .next (putRxByte b s)

/-- The challenge that `OP`, `LEFT` and `RIGHT` hold, as an instruction (R74, R190). -/
def State.challenge (s : State) : Option Instr :=
  match s.op, s.left, s.right with
  | some op, some l, some r => some (challengeInstr op l r)
  | _, _, _ => none

/-- SOLVE in a session: the challenge runs, and T3 goes on if it gave a result (R217). -/
def runChallengeWord (i : Instr) (s : State) : Host.Outcome State Fault Refusal :=
  match exec i s with
  | .next t => if t.resultValid then afterSolve t else .next t
  | .fault f => .fault f
  | .refused r => .refused r

/-- The compute step of T3: DECODE, SOLVE, ENCODE, ENCRYPT, BUILD_RESP in one step (R217). -/
def computeStep (s : State) : Host.Outcome State Fault Refusal :=
  match decodeOp s with
  | .lacking => .fault .noValueInSession
  | .raised c t => .next (enterError c t)
  | .done t =>
    match t.challenge with
    | none => .fault .noValueInSession
    | some i => runChallengeWord i t

/-- The peer's answer to the offered byte is met (R213). -/
def takeTxEvent (s : State) : State := { s with txEvents := s.txEvents.tail }

/-- The peer's next event on the inbound stream is met: each once (R64, R214). -/
def takeRxEvent (s : State) : State := { s with rxStream := s.rxStream.tail }

/-- The engine's move: the one step that is enabled, if the peer's event it needs is there; else the
engine waits and holds its state (R212, R222, R285). -/
def engineStep (s : State) : Host.Outcome State Fault Refusal :=
  if s.txActive then
    match s.txEvents with
    | [] => .next s
    | e :: _ => txStep e (takeTxEvent s)
  else if s.rxEnabled then
    match s.rxStream with
    | [] => .next s
    | e :: _ => rxStep e (takeRxEvent s)
  else if s.computeEnabled then computeStep s
  else .next s

end Sys2Proof.Machine
end

