-- ==== Sys2Proof/Machine/Fetch.lean ====
section
/-! DEFINITION. Where each kind of instruction is fetched from (spec/20_memory.md R74), for placing one there:
a command at the write of `CMD`, a received frame in `RXBUF`, a challenge in `OP`, `LEFT`, `RIGHT`,
an outbound frame in the registers it is built from. Assumption log 4. -/

namespace Sys2Proof.Machine

/-- The host is to move next, writing this byte to `CMD`. -/
def pendCommand (c : Byte) (s : State) : State :=
  { s with
    hostQueue := .write .cmd (c.setWidth 64) :: s.hostQueue
    turns := .host :: s.turns }

/-- The user name from which `UnameField` makes this field, if its last byte is zero (R161). -/
def placeName (u : Bytes) (s : State) : State :=
  { s.writeBytes .unameSrc 0 (u.take 15) with unameSrcLen := some 15 }

/-- A received frame stands in `RXBUF` (R74). -/
def placeInbound (f : Bytes) (s : State) : State :=
  { s.writeBytes .rxbuf 0 f with busy := false }

/-- The registers from which BUILD_REQ makes this Request frame (R162), with byte 15 of its username zero
(R170; assumption log 19). -/
def placeRequest (f : Bytes) (s : State) : State :=
  { placeName (frameUsername f) s with busy := false }

/-- The registers from which BUILD_RESP makes this Response frame (R163). What a frame outside R170 gives is
the model's choice: the length's low 8 bits go into `COUT_LEN`, and BUILD_RESP refuses above 128
(assumption log 19). -/
def placeResponse (f : Bytes) (s : State) : State :=
  let n := (framePayloadLen f).toNat
  { ((placeName (frameUsername f) s).writeBytes .ivTx 0 (frameIv f)).writeBytes .cout 0
      ((framePayload f).take n) with
    busy := false
    ivTxValid := true
    coutKind := .ciphertext
    coutLen := BitVec.ofNat 8 n }

/-- A challenge stands in the solver's registers, where SOLVE takes it (R74, R198). -/
def placeChallenge (w : Bytes) (s : State) : State :=
  { s with
    busy := false
    op := some (w.headD 0)
    left := some (be32 (slice w 1 4))
    right := some (be32 (slice w 5 4)) }

/-- The instruction with these bytes at this port stands where the next step fetches it. -/
def placeWord (port : Port) (bs : Bytes) (s : State) : State :=
  match port with
  | .command => pendCommand (bs.headD 0) s
  | .challengeWord => pendCommand 0x06 (placeChallenge bs s)
  | .challengePoint => pendCommand 0x03 (placeInbound bs s)
  | .statusPoint => pendCommand 0x0A (placeInbound bs s)
  | .outbound =>
    if frameCode bs = code105 then pendCommand 0x02 (placeRequest bs s)
    else pendCommand 0x09 (placeResponse bs s)

end Sys2Proof.Machine
end

