-- ==== Sys2Proof/Machine/HostPort.lean ====
section
/-! DEFINITION. The host's accesses of the register map (spec/10_state.md R27, R40, R45): writes, refused while
a session runs, and reads, which have no side effect. -/

namespace Sys2Proof.Machine

/-- The register number of an integer register (R40). -/
def HostReg.number : HostReg → Nat
  | .cmd => 0x00
  | .status => 0x01
  | .pstate => 0x02
  | .errReason => 0x03
  | .errCause => 0x04
  | .unitCause => 0x05
  | .verdict => 0x06
  | .cinLen => 0x07
  | .coutLen => 0x08
  | .unameSrcLen => 0x09
  | .txLen => 0x0A
  | .txCnt => 0x0B
  | .rxNeed => 0x0C
  | .rxCnt => 0x0D
  | .op => 0x10
  | .left => 0x11
  | .right => 0x12
  | .result => 0x13

/-- The byte arrays the host can write (R40). -/
def Space.hostWritable : Space → Bool
  | .key | .ivRx | .unameSrc | .cin | .rxbuf => true
  | .ivTx | .cout | .txbuf => false

/-- The byte arrays the host can read: all but `KEY` (R36, R40). -/
def Space.hostReadable : Space → Bool
  | .key => false
  | .ivRx | .ivTx | .unameSrc | .cin | .cout | .rxbuf | .txbuf => true

/-- What a host write leaves in `UNAME_SRC_LEN`: the value written, if it is in the register's range of 0
to `UNAME_SRC_MAX` (R37); else a free value in that range, or what was there (assumption log 3). -/
def nameLengthAfter (old : Option (BitVec 8)) (v : BitVec 8) : Option (BitVec 8) :=
  if v.toNat ≤ Config.unameSrcMax then some v
  else
    match Config.unameLenChoice v with
    | none => old
    | some n => some (BitVec.ofNat 8 (n % (Config.unameSrcMax + 1)))

/-- An integer register takes a value from the host; a read-only register is not changed (R37, R40;
assumption logs 7 and 15). -/
def putReg (r : HostReg) (v : BitVec 64) (s : State) : State :=
  match r with
  | .cinLen => { s with cinLen := some (v.setWidth 8) }
  | .unameSrcLen => { s with unameSrcLen := nameLengthAfter s.unameSrcLen (v.setWidth 8) }
  | .op => { s with op := some (v.setWidth 8) }
  | .left => { s with left := some (v.setWidth 32) }
  | .right => { s with right := some (v.setWidth 32) }
  | .cmd | .status | .pstate | .errReason | .errCause | .unitCause | .verdict | .coutLen
  | .txLen | .txCnt | .rxNeed | .rxCnt | .result => s

/-- A host write of an integer register: refused while busy (R45). -/
def hostWrite (r : HostReg) (v : BitVec 64) (s : State) : State :=
  if s.busy then refuseCommand s else putReg r v s

/-- A byte array takes bytes from the host; a write of all 16 bytes of `IV_RX` makes it valid (R34,
R40; assumption log 11). -/
def putBytes (sp : Space) (off : Nat) (data : Bytes) (s : State) : State :=
  { s.writeBytes sp off data with
    ivRxValid :=
      s.ivRxValid || (sp == .ivRx && off == 0 && data.length == Config.ivLen) }

/-- A host write of a byte array: refused while busy (R45); a read-only array is not changed (R40); bytes
that the array does not have are a fault while idle (assumption log 7). -/
def hostWriteBytes (sp : Space) (off : Nat) (data : Bytes) (s : State) :
    Host.Outcome State Fault Refusal :=
  if s.busy then .next (refuseCommand s)
  else if sp.hostWritable then
    if off + data.length ≤ sp.size then .next (putBytes sp off data s) else .fault .noSuchByte
  else .next s

/-- A register that holds a value gives it; one that holds none refuses the read (R14). -/
def readValue {w : Nat} (v : Option (BitVec w)) : HostData :=
  match v with
  | none => .refused
  | some x => .value (x.setWidth 64)

/-- What a host read of an integer register returns (R27 to R31, R40). -/
def readReg (s : State) : HostReg → HostData
  | .cmd => .refused
  | .status => readValue (some s.statusWord)
  | .pstate => .value (BitVec.ofNat 64 s.pstate.code)
  | .errReason => .value (BitVec.ofNat 64 s.errReason.code)
  | .errCause => .value (BitVec.ofNat 64 s.errCause.code)
  | .unitCause => .value (BitVec.ofNat 64 s.unitCause.code)
  | .verdict => .value (BitVec.ofNat 64 s.verdict.code)
  | .cinLen => readValue s.cinLen
  | .coutLen => readValue (some s.coutLen)
  | .unameSrcLen => readValue s.unameSrcLen
  | .txLen => readValue (some s.txLen)
  | .txCnt => readValue (some s.txCnt)
  | .rxNeed => readValue (some s.rxNeed)
  | .rxCnt => readValue (some s.rxCnt)
  | .op => readValue s.op
  | .left => readValue s.left
  | .right => readValue s.right
  | .result => if s.resultValid then readValue s.result else .refused

/-- What a host read of a byte array returns (R36, R40, D24): a refusal where a byte holds no value, or is
none of the array (R14; assumption log 7). -/
def readArray (s : State) (sp : Space) (off n : Nat) : HostData :=
  if sp.hostReadable then
    match s.readBytes sp off n with
    | none => .refused
    | some bs => .bytes bs
  else .refused

/-- What a read returned goes to the host; a read changes nothing else (R45). -/
def noteRead (d : HostData) (s : State) : State := { s with lastRead := some d }

/-- One access of the host. A write of `CMD` runs the instruction its byte selects (R27, R96); a read is
always allowed (R45). -/
def hostAccess (a : HostAction) (s : State) : Host.Outcome State Fault Refusal :=
  match a with
  | .write .cmd v => exec (commandInstr (v.setWidth 8)) s
  | .write r v => .next (hostWrite r v s)
  | .read r => .next (noteRead (readReg s r) s)
  | .writeBytes sp off data => hostWriteBytes sp off data s
  | .readBytes sp off n => .next (noteRead (readArray s sp off n) s)

/-- The host makes its next access. -/
def takeHostAction (s : State) : State := { s with hostQueue := s.hostQueue.tail }

/-- The host's move: its next access, if it makes one. -/
def hostStep (s : State) : Host.Outcome State Fault Refusal :=
  match s.hostQueue with
  | [] => .next s
  | a :: _ => hostAccess a (takeHostAction s)

end Sys2Proof.Machine
end

