-- ==== Sys2Proof/Machine/Step.lean ====
section
/-! DEFINITION. One step of the machine, and where the host's pipeline places an instruction. -/

namespace Sys2Proof.Machine

/-- The state in which the agent whose turn it was has moved. -/
def State.nextTurn (s : State) : State := { s with turns := s.turns.tail }

/-- One step: the agent whose turn it is moves (R212); with no turn left nobody moves. -/
def step (s : State) : Host.Outcome State Fault Refusal :=
  match s.turns with
  | [] => .next s
  | .host :: _ => hostStep s.nextTurn
  | .engine :: _ => engineStep s.nextTurn
  | .resetInput :: _ => .next (hardReset s.nextTurn)

/-- The state with the table's word placed where the next step fetches its instruction
(assumption log 4). -/
def State.withFetchWord (s : State) (nbits w : Nat) : State :=
  match tablePort nbits w with
  | none => s
  | some port => placeWord port (tableBytes nbits w) s

end Sys2Proof.Machine
end

