-- ==== Sys2Proof/Safety.lean ====
section
/-! DEFINITION. What the statements speak of: what a store leaves as it was, the invariant of the engine,
the transition table, the law of the block cipher, and the solver's results as natural numbers. -/

namespace Sys2Proof.Machine

/-- The bytes `bs` stand in an array from index `off` on, and every other byte of every array reads as
before. -/
def Stored (sp : Space) (off : Nat) (bs : Bytes) (m m' : Memory) : Prop :=
  m'.readRange (sp.addr off) bs.length = some bs
    ∧ ∀ a, ¬(sp.addr off ≤ a ∧ a < sp.addr off + bs.length) → m'.read a = m.read a

/-- The bytes `bs` and `bs'` stand in two arrays from their first index on, and every other byte of
every array reads as before. -/
def StoredBoth (sp : Space) (bs : Bytes) (sp' : Space) (bs' : Bytes) (m m' : Memory) : Prop :=
  m'.readRange (sp.addr 0) bs.length = some bs
    ∧ m'.readRange (sp'.addr 0) bs'.length = some bs'
    ∧ ∀ a, ¬(sp.addr 0 ≤ a ∧ a < sp.addr 0 + bs.length) →
        ¬(sp'.addr 0 ≤ a ∧ a < sp'.addr 0 + bs'.length) → m'.read a = m.read a

/-- The address belongs to one of the byte arrays of R40. -/
def addressMapped (a : Nat) : Bool :=
  [Space.key, .ivRx, .ivTx, .unameSrc, .cin, .cout, .rxbuf, .txbuf].any fun sp =>
    decide (sp.addr 0 ≤ a) && decide (a < sp.addr sp.size)

/-- Every listed byte belongs to one of the byte arrays of R40. -/
def Memory.mapped (m : Memory) : Bool := m.all fun c => addressMapped c.1

/-- Where a running session stands (R213 to R218, R225): what it needs is written. -/
def SessionAt (s : State) : Prop :=
  match s.pstate with
  | .init =>
    s.txActive = true ∧ s.txLen = 19 ∧ s.txCnt < 19 ∧ (s.readBytes .txbuf 0 19).isSome
  | .awaitChallenge =>
    s.txActive = false ∧ s.rxNeed = 167 ∧ s.rxCnt < 167
      ∧ (s.readBytes .rxbuf 0 s.rxCnt.toNat).isSome
  | .challengeReceived =>
    (s.txActive = true ∧ s.txLen = 167 ∧ s.txCnt < 167 ∧ (s.readBytes .txbuf 0 167).isSome)
      ∨ (s.txActive = false ∧ s.coutKind = .plaintext)
  | .responseSent =>
    s.txActive = false ∧ s.rxNeed = 19 ∧ s.rxCnt < 19
      ∧ (s.readBytes .rxbuf 0 s.rxCnt.toNat).isSome
  | .success | .failure | .error => False

/-- The invariant of the engine, which every step keeps. -/
structure EngineInv (s : State) : Prop where
  /-- the buffers are in canonical form and hold no byte outside the arrays -/
  memory : s.mem.wf = true ∧ s.mem.mapped = true
  /-- `RESULT` holds a value exactly when `RESULT_VALID` is set (R23) -/
  result : s.resultValid = s.result.isSome
  /-- a valid received IV is written (R34) -/
  ivRx : s.ivRxValid = true → (s.readBytes .ivRx 0 16).isSome
  /-- a valid drawn IV is written (R35) -/
  ivTx : s.ivTxValid = true → (s.readBytes .ivTx 0 16).isSome
  /-- a ciphertext in `COUT` has a length of R140, is written, and its IV has not been framed (R139) -/
  ciphertext : s.coutKind = .ciphertext →
    s.ivTxValid = true ∧ 16 ≤ s.coutLen.toNat ∧ s.coutLen.toNat ≤ 112 ∧ s.coutLen.toNat % 16 = 0
      ∧ (s.readBytes .cout 0 s.coutLen.toNat).isSome
  /-- a plaintext in `COUT` has 1 to 127 bytes and is written (R33, R138) -/
  plaintext : s.coutKind = .plaintext →
    1 ≤ s.coutLen.toNat ∧ s.coutLen.toNat ≤ 127 ∧ (s.readBytes .cout 0 s.coutLen.toNat).isSome
  /-- the session's report is there exactly in `Error`, and is one of R271 (R29, R30) -/
  report : (s.pstate = .error ↔ s.errCause ≠ .none) ∧ s.errReason = reasonOf s.errCause
    ∧ s.errCause ≠ .badSequence
  /-- the user name's length is in its range (R37) -/
  nameLength : ∀ n, s.unameSrcLen = some n → n.toNat ≤ Config.unameSrcMax
  /-- the transfer counters keep to R25; `TX_CNT` is bounded by `TX_LEN` until the session has ended,
  after which BUILD_REQ as a unit command may shorten `TX_LEN` (assumption log 14) -/
  counters : (s.txLen = 0 ∨ s.txLen = 19 ∨ s.txLen = 167)
    ∧ (s.rxNeed = 0 ∨ s.rxNeed = 19 ∨ s.rxNeed = 167) ∧ s.rxCnt ≤ s.rxNeed
    ∧ s.txCnt ≤ 167 ∧ (s.pstate.terminal = false → s.txCnt ≤ s.txLen)
  /-- without a session nothing is sent, and the state is `Init`, with nothing sent yet, or terminal
  (R211, R219) -/
  idle : s.busy = false →
    s.txActive = false ∧ ((s.pstate = .init ∧ s.txCnt = 0) ∨ s.pstate.terminal = true)
  /-- a session has its key and its user name, and stands at one of its points -/
  session : s.busy = true →
    s.keyBytes.isSome = true ∧ s.userField.isSome = true ∧ SessionAt s

/-- The causes that can end a session in `Error`, by the state it was in (R227). -/
def endCauses : PState → List Cause
  | .init => [.transportError]
  | .awaitChallenge =>
    [.transportClosed, .transportError, .serverReported, .unexpectedCode, .badLength, .decryptFail]
  | .challengeReceived => [.badChallengeLen, .unknownOperator, .divByZero, .transportError]
  | .responseSent => [.transportClosed, .transportError, .serverReported, .unexpectedStatus]
  | .success | .failure | .error => []

/-- The state a session goes on to, other than `Error` (R227). -/
def nextStates : PState → List PState
  | .init => [.awaitChallenge]
  | .awaitChallenge => [.challengeReceived]
  | .challengeReceived => [.responseSent]
  | .responseSent => [.success, .failure]
  | .success | .failure | .error => []

/-- How many engine steps a running session has behind it, of the 373 of a whole one: 19 sends, 167
receives, the compute step, 167 sends, 19 receives (R24, R215 to R218). -/
def sessionPosition (s : State) : Nat :=
  match s.pstate with
  | .init => s.txCnt.toNat
  | .awaitChallenge => 19 + s.rxCnt.toNat
  | .challengeReceived => if s.txActive then 187 + s.txCnt.toNat else 186
  | .responseSent => 354 + s.rxCnt.toNat
  | .success | .failure | .error => 373

/-- The peer's event that the engine's next step needs is there; the compute step needs none (R212). -/
def eventReady (s : State) : Bool :=
  if s.txActive then !s.txEvents.isEmpty
  else if s.rxEnabled then !s.rxStream.isEmpty
  else s.computeEnabled

/-- The law required of the block cipher, on 16-byte keys and blocks (R146), and that it gives
blocks (R9). -/
structure CipherLaw (enc dec : Bytes → Bytes → Bytes) : Prop where
  encLength : ∀ k x, k.length = 16 → x.length = 16 → (enc k x).length = 16
  decLength : ∀ k x, k.length = 16 → x.length = 16 → (dec k x).length = 16
  inverse : ∀ k x, k.length = 16 → x.length = 16 → dec k (enc k x) = x

/-- The solver's results as natural numbers (R192 to R197, R200); `none` where it raises. -/
def solverValue (op : Byte) (a b : Nat) : Option Nat :=
  if op = 0x2B then some (a + b)
  else if op = 0x2D then some (if b ≤ a then a - b else 2 ^ 64 + a - b)
  else if op = 0x2A then some (a * b)
  else if op = 0x2F then (if b = 0 then none else some (a / b))
  else if op = 0x25 then (if b = 0 then none else some (a % b))
  else none

/-- The cause that a SOLVE without result raises (R197, R198, R276). -/
def solverCause (op : Byte) : Cause :=
  if op = 0x2F ∨ op = 0x25 then .divByZero else .unknownOperator

/-- The state a raise leaves (R273, R277), written out. -/
def raisedState (c : Cause) (s : State) : State :=
  if s.busy then
    { s with pstate := .error, errReason := reasonOf c, errCause := c, busy := false,
             txActive := false }
  else { s with unitCause := c }

end Sys2Proof.Machine
end

