-- ==== Sys2Proof/Certificates/Slice0/Obligations.lean ====
section
/-! DEFINITION. The statements for the provers (OBLIGATIONS.json lists them). A record update of `s` in a
conclusion is the whole frame: every field it does not name is as it was in `s`; where `mem` is a new
memory, `Stored` and `StoredBoth` say which bytes it differs in. -/

open Sys2Proof Sys2Proof.Machine

/-! ### Encodings -/

/-- Every well-formed instruction, its operands at any value, decodes from its encoding (R90 to R96,
R101 to R103). -/
def Obligations.DecodeOfEncodeIsTheInstruction : Prop :=
  ∀ i : Instr, WellFormed i = true → decode (portOf i) (encode i) = .instr i

/-- What the decoder reads is a well-formed instruction of its port, whose encoding is the bytes read:
no two byte strings stand for one instruction (R90 to R96, R104, R105, R112). -/
def Obligations.DecodedBytesAreTheEncoding : Prop :=
  ∀ (p : Port) (bs : Bytes) (i : Instr), decode p bs = .instr i →
    portOf i = p ∧ WellFormed i = true ∧ encode i = bs

/-- At each place where the engine takes bits, only their number decides whether they are an
instruction (R90, R109): 1, 9, 167 and 19 bytes, whatever their values are. -/
def Obligations.OnlyTheLengthDecidesDecoding : Prop :=
  ∀ bs : Bytes,
    ((∃ i, decode .command bs = .instr i) ↔ bs.length = 1)
      ∧ ((∃ i, decode .challengeWord bs = .instr i) ↔ bs.length = 9)
      ∧ ((∃ i, decode .challengePoint bs = .instr i) ↔ bs.length = 167)
      ∧ ((∃ i, decode .statusPoint bs = .instr i) ↔ bs.length = 19)

/-- A few words written out from the encoding tables (R91 to R93, R101 to R103). -/
def Obligations.KnownWordsDecode : Prop :=
  decode .challengeWord [0x2B, 0, 0, 0, 0x0A, 0, 0, 0, 0x20] = .instr (.add 10 32)
    ∧ decode .challengeWord [0x2F, 0, 0, 1, 0, 0x12, 0x34, 0x56, 0x78]
        = .instr (.div 256 0x12345678)
    ∧ decode .challengeWord [0x5E, 0, 0, 0, 1, 0, 0, 0, 0] = .instr (.unknownOperator 0x5E 1 0)
    ∧ decode .command [0x0A] = .instr .parseStat
    ∧ decode .command [0x0C] = .instr (.reservedCmd 0x0C)
    ∧ decode .statusPoint ([0x32, 0x31, 0x30, 0x61] ++ List.replicate 15 0)
        = .instr (.status210 (0x61 :: List.replicate 15 0))
    ∧ decode .challengePoint ([0x31, 0x31, 0x30] ++ List.replicate 16 0x41
          ++ List.replicate 16 0x55 ++ [0, 1, 0, 0x10] ++ List.replicate 128 0x77)
        = .instr (.challenge110 (List.replicate 16 0x41) (List.replicate 16 0x55) 65552
            (List.replicate 128 0x77))

/-! ### Reset and the invariant of the engine -/

/-- What reset leaves (R43, R301): the values the spec gives, and no value anywhere else. -/
def Obligations.ResetLeavesTheSpecsValues : Prop :=
  State.reset.pstate = .init ∧ State.reset.errReason = .none ∧ State.reset.errCause = .none
    ∧ State.reset.unitCause = .none ∧ State.reset.verdict = .none
    ∧ State.reset.busy = false ∧ State.reset.txActive = false ∧ State.reset.ivRxValid = false
    ∧ State.reset.ivTxValid = false ∧ State.reset.resultValid = false
    ∧ State.reset.cmdErr = false ∧ State.reset.coutKind = .none ∧ State.reset.coutLen = 0
    ∧ State.reset.txLen = 0 ∧ State.reset.txCnt = 0 ∧ State.reset.rxNeed = 0
    ∧ State.reset.rxCnt = 0 ∧ State.reset.cinLen = none ∧ State.reset.unameSrcLen = none
    ∧ State.reset.op = none ∧ State.reset.left = none ∧ State.reset.right = none
    ∧ State.reset.result = none
    ∧ ∀ (sp : Space) (i : Nat), State.reset.mem.read (sp.addr i) = none

/-- The hardware reset input at any time, and the command RESET while idle, put every piece of the
engine's state to its reset value; what was sent and what was consumed stays so (R224, R300). While
busy the command is refused. That the world's queues and the count of draws stay is the model's choice
(assumption logs 2 and 5). -/
def Obligations.ResetClearsTheEngineOnly : Prop :=
  commandInstr 0x0B = .reset ∧ ∀ s : State,
    (∀ ts, s.turns = .resetInput :: ts →
      step s = .next { State.reset with
        txStream := s.txStream, rxStream := s.rxStream, txEvents := s.txEvents,
        hostQueue := s.hostQueue, turns := ts, lastRead := s.lastRead, draws := s.draws })
    ∧ (s.busy = false → exec .reset s = .next { State.reset with
        txStream := s.txStream, rxStream := s.rxStream, txEvents := s.txEvents,
        hostQueue := s.hostQueue, turns := s.turns, lastRead := s.lastRead, draws := s.draws })
    ∧ (s.busy = true → exec .reset s = .next { s with cmdErr := true })

/-- The reset state meets the invariant. -/
def Obligations.ResetMeetsTheEngineInvariant : Prop := EngineInv State.reset

/-- Every step of every agent keeps the invariant of the engine: the buffers stay in canonical form and
inside their arrays, the validity flags say the truth, the report stands exactly in `Error`, and a
running session has written all it will read (R23, R25, R29, R30, R33 to R35, R37, R219, R225).
`TX_CNT` is at most 167, and at most `TX_LEN` until the session has ended: that BUILD_REQ as a unit
command may leave it above `TX_LEN` afterwards is the model's reading (assumption log 14). -/
def Obligations.StepKeepsTheEngineInvariant : Prop :=
  ∀ s t : State, EngineInv s → step s = .next t → EngineInv t

/-- No step of the engine stops, and none of a session's own steps reports in `UNIT_CAUSE`: in a
session every read of state is preceded by its write (R225, R30), and nothing the host does stops a
session (R45). The host alone can stop the machine, on its own turn while no session runs, by writing
a byte that an array does not have (the model's choice, assumption log 7). -/
def Obligations.SessionStepsNeverLackAValue : Prop :=
  ∀ s : State, EngineInv s →
    ((∃ t, step s = .next t)
        ∨ (s.busy = false ∧ s.turns.head? = some .host ∧ step s = .fault .noSuchByte))
      ∧ ∀ ts, s.turns = .engine :: ts → ∃ t, step s = .next t ∧ t.unitCause = s.unitCause

/-- `PSTATE` moves only along the rows of the transition table, with the cause of the row and that
cause's reason (R24, R227); only a reset goes back to `Init`. -/
def Obligations.PstateMovesOnlyByTheTable : Prop :=
  ∀ s t : State, EngineInv s → step s = .next t →
    (t.pstate = s.pstate ∧ t.errReason = s.errReason ∧ t.errCause = s.errCause)
      ∨ (t.pstate ∈ nextStates s.pstate ∧ t.errReason = .none ∧ t.errCause = .none)
      ∨ (t.pstate = .error ∧ t.errCause ∈ endCauses s.pstate ∧ t.errReason = reasonOf t.errCause)
      ∨ (t.pstate = .init ∧ t.errReason = .none ∧ t.errCause = .none
          ∧ (s.turns.head? = some .resetInput
            ∨ (s.turns.head? = some .host ∧ s.busy = false
                ∧ ∃ v, s.hostQueue.head? = some (.write .cmd v) ∧ v.setWidth 8 = 0x0B)))

/-- A terminal state holds, with its report, and does no I/O, until a reset (R219). -/
def Obligations.TerminalStatesHoldWithoutReset : Prop :=
  ∀ s t : State, EngineInv s → s.pstate.terminal = true → step s = .next t →
    s.turns.head? ≠ some .resetInput →
    (∀ v, s.hostQueue.head? = some (.write .cmd v) → v.setWidth 8 ≠ 0x0B) →
    t.pstate = s.pstate ∧ t.errReason = s.errReason ∧ t.errCause = s.errCause
      ∧ t.busy = false ∧ t.txActive = false
      ∧ t.txStream = s.txStream ∧ t.rxStream = s.rxStream ∧ t.txEvents = s.txEvents

/-- A running session goes one step of its 373 further at each engine step that has its event, or ends;
so a session whose peer answers ends (R215 to R219, R222). -/
def Obligations.SessionAdvancesOrEnds : Prop :=
  ∀ s : State, EngineInv s → s.busy = true → eventReady s = true → ∀ ts, s.turns = .engine :: ts →
    ∃ t, step s = .next t ∧
      ((t.busy = true ∧ sessionPosition t = sessionPosition s + 1 ∧ sessionPosition t < 373)
        ∨ (t.busy = false ∧ t.pstate.terminal = true))

/-- While a session runs, nothing but the reset input changes the key or the user name (R36, R37, R45). -/
def Obligations.SessionKeepsKeyAndUserName : Prop :=
  ∀ s t : State, EngineInv s → s.busy = true → s.turns.head? ≠ some .resetInput →
    step s = .next t →
    (∀ i, i < 16 → t.mem.read (Space.key.addr i) = s.mem.read (Space.key.addr i))
      ∧ (∀ i, i < Config.unameSrcMax →
          t.mem.read (Space.unameSrc.addr i) = s.mem.read (Space.unameSrc.addr i))
      ∧ t.unameSrcLen = s.unameSrcLen

/-! ### The challenge as an instruction -/

/-- ADD (R192). -/
def Obligations.AddGivesTheExactSum : Prop :=
  ∀ (l r : Operand) (s : State), challengeInstr 0x2B l r = .add l r ∧
    ∃ v : Result, v.toNat = l.toNat + r.toNat
      ∧ exec (.add l r) s = .next { s with result := some v, resultValid := true }

/-- SUB wraps modulo 2^64, without a flag and without an error (R193, R200). -/
def Obligations.SubWrapsModulo64Bits : Prop :=
  ∀ (l r : Operand) (s : State), challengeInstr 0x2D l r = .sub l r ∧
    ∃ v : Result,
      v.toNat = (if r.toNat ≤ l.toNat then l.toNat - r.toNat else 2 ^ 64 + l.toNat - r.toNat)
      ∧ (l.toNat < r.toNat → v.toNat / 2 ^ 32 = 2 ^ 32 - 1)
      ∧ exec (.sub l r) s = .next { s with result := some v, resultValid := true }

/-- MUL: the exact product, never above 64 bits (R194). -/
def Obligations.MulGivesTheExactProduct : Prop :=
  ∀ (l r : Operand) (s : State), challengeInstr 0x2A l r = .mul l r ∧
    ∃ v : Result, v.toNat = l.toNat * r.toNat
      ∧ exec (.mul l r) s = .next { s with result := some v, resultValid := true }

/-- DIV: the truncated quotient, or `DIV_BY_ZERO` and no result (R195). -/
def Obligations.DivGivesTheQuotientOrRaises : Prop :=
  ∀ (l r : Operand) (s : State), challengeInstr 0x2F l r = .div l r
    ∧ (r.toNat ≠ 0 → ∃ v : Result, v.toNat = l.toNat / r.toNat ∧ v.toNat ≤ l.toNat
        ∧ exec (.div l r) s = .next { s with result := some v, resultValid := true })
    ∧ (r.toNat = 0 → exec (.div l r) s
        = .next (raisedState .divByZero { s with result := none, resultValid := false }))

/-- MOD: the remainder, or `DIV_BY_ZERO` and no result (R196). -/
def Obligations.ModGivesTheRemainderOrRaises : Prop :=
  ∀ (l r : Operand) (s : State), challengeInstr 0x25 l r = .mod l r
    ∧ (r.toNat ≠ 0 → ∃ v : Result, v.toNat < r.toNat
        ∧ l.toNat = r.toNat * (l.toNat / r.toNat) + v.toNat
        ∧ exec (.mod l r) s = .next { s with result := some v, resultValid := true })
    ∧ (r.toNat = 0 → exec (.mod l r) s
        = .next (raisedState .divByZero { s with result := none, resultValid := false }))

/-- Any other operator raises `UNKNOWN_OPERATOR`, whatever the operands are, and no result is left
(R197). -/
def Obligations.UnknownOperatorRaises : Prop :=
  ∀ (op : Byte) (l r : Operand) (s : State),
    op ≠ 0x25 → op ≠ 0x2A → op ≠ 0x2B → op ≠ 0x2D → op ≠ 0x2F →
    challengeInstr op l r = .unknownOperator op l r
      ∧ exec (.unknownOperator op l r) s
        = .next (raisedState .unknownOperator { s with result := none, resultValid := false })

/-! ### The solver's commands -/

/-- DECODE as a command (R191, R201; the byte order is R97's; the refusals are R14's). That an accepted
command, one that raises included, clears `CMD_ERR` and a BAD_SEQUENCE refusal leaves it is the model's
choice (assumption log 9). -/
def Obligations.DecodeLoadsTheChallenge : Prop :=
  commandInstr 0x05 = .decode ∧ ∀ s : State, s.busy = false →
    (∀ c0 c1 c2 c3 c4 c5 c6 c7 c8 : Byte, s.coutKind = .plaintext → s.coutLen = 9 →
      s.readBytes .cout 0 9 = some [c0, c1, c2, c3, c4, c5, c6, c7, c8] →
      ∃ l r : Operand,
        l.toNat = c1.toNat * 2 ^ 24 + c2.toNat * 2 ^ 16 + c3.toNat * 2 ^ 8 + c4.toNat
        ∧ r.toNat = c5.toNat * 2 ^ 24 + c6.toNat * 2 ^ 16 + c7.toNat * 2 ^ 8 + c8.toNat
        ∧ exec .decode s = .next { s with
            op := some c0, left := some l, right := some r, cmdErr := false,
            unitCause := .none })
    ∧ (s.coutKind = .plaintext → s.coutLen ≠ 9 →
        exec .decode s = .next { s with cmdErr := false, unitCause := .badChallengeLen })
    ∧ (s.coutKind ≠ .plaintext ∨ (s.coutLen = 9 ∧ s.readBytes .cout 0 9 = none) →
        exec .decode s = .next { s with unitCause := .badSequence })

/-- SOLVE as a command: the value of the operation `OP` names, or the cause, and no other effect (R198).
That an accepted command, one that raises included, clears `CMD_ERR` and a BAD_SEQUENCE refusal leaves
it is the model's choice (assumption log 9). -/
def Obligations.SolveEvaluatesTheRegisters : Prop :=
  commandInstr 0x06 = .solve ∧ ∀ s : State, s.busy = false →
    (∀ op l r, s.op = some op → s.left = some l → s.right = some r →
      (∀ n, solverValue op l.toNat r.toNat = some n → ∃ v : Result, v.toNat = n
        ∧ exec .solve s = .next { s with
            result := some v, resultValid := true, cmdErr := false, unitCause := .none })
      ∧ (solverValue op l.toNat r.toNat = none → exec .solve s = .next { s with
            result := none, resultValid := false, cmdErr := false, unitCause := solverCause op }))
    ∧ (s.op = none ∨ s.left = none ∨ s.right = none →
        exec .solve s = .next { s with unitCause := .badSequence })

/-- ENCODE as a command: eight bytes, the most significant first (R113, R199). That success clears
`CMD_ERR` and a BAD_SEQUENCE refusal leaves it is the model's choice (assumption log 9). -/
def Obligations.EncodeWritesTheResultBytes : Prop :=
  commandInstr 0x07 = .encode ∧ ∀ s : State, s.busy = false →
    (∀ v, s.resultValid = true → s.result = some v →
      ∃ (bs : Bytes) (m : Memory), bs.length = 8
        ∧ (∀ i, i < 8 → bs[i]? = some (BitVec.ofNat 8 (v.toNat / 2 ^ (8 * (7 - i)))))
        ∧ Stored .cin 0 bs s.mem m
        ∧ exec .encode s = .next { s with
            mem := m, cinLen := some 8, cmdErr := false, unitCause := .none })
    ∧ (s.resultValid = false ∨ s.result = none →
        exec .encode s = .next { s with unitCause := .badSequence })

/-! ### The Crypto Engine -/

/-- ENCRYPT as a command (R137): the next draw is the IV, one draw is taken; the primitive is AES-128
(assumption log 10), the draw a free value (log 2). That ENCRYPT_FAIL clears `CMD_ERR` and BAD_SEQUENCE
leaves it is the model's choice (log 9); that a length above 96 raises whether or not `CIN` and `KEY`
are written is the model's reading (log 13). -/
def Obligations.EncryptWritesCiphertextAndItsIv : Prop :=
  commandInstr 0x08 = .encrypt ∧ ∀ s : State, s.busy = false →
    (∀ n p k, s.cinLen = some n → n.toNat ≤ 96 → s.readBytes .cin 0 n.toNat = some p →
      s.readBytes .key 0 16 = some k →
      ∃ (iv ct : Bytes) (m : Memory), iv = toBE 16 (Config.draw16 s.draws).toNat
        ∧ ct = cbcEnc blockEnc k iv (pad p)
        ∧ ct.length = 16 * (n.toNat / 16 + 1)
        ∧ StoredBoth .ivTx iv .cout ct s.mem m
        ∧ exec .encrypt s = .next { s with
            mem := m, ivTxValid := true, coutLen := BitVec.ofNat 8 ct.length,
            coutKind := .ciphertext, draws := s.draws + 1, cmdErr := false,
            unitCause := .none })
    ∧ (∀ n, s.cinLen = some n → 96 < n.toNat →
        exec .encrypt s = .next { s with
          ivTxValid := false, coutLen := 0, coutKind := .none, cmdErr := false,
          unitCause := .encryptFail })
    ∧ (s.cinLen = none ∨ (∃ n, s.cinLen = some n ∧ n.toNat ≤ 96
          ∧ (s.readBytes .cin 0 n.toNat = none ∨ s.readBytes .key 0 16 = none)) →
        exec .encrypt s = .next { s with unitCause := .badSequence })

/-- DECRYPT as a command (R138): the received IV is consumed whatever follows; an empty result is the
failure (R143); an unwritten input is refused (R14). The primitive is AES-128 (assumption log 10). That
DECRYPT_FAIL clears `CMD_ERR` and BAD_SEQUENCE leaves it is the model's choice (log 9); that without a
valid IV, or with a wrong length, it raises whatever else is unwritten is the model's reading
(log 13). -/
def Obligations.DecryptWritesPlaintextOrFails : Prop :=
  commandInstr 0x04 = .decrypt ∧ ∀ s : State, s.busy = false →
    (∀ n c k iv, s.ivRxValid = true → s.cinLen = some n → n.toNat % 16 = 0 → 0 < n.toNat →
      n.toNat ≤ 128 → s.readBytes .cin 0 n.toNat = some c → s.readBytes .key 0 16 = some k →
      s.readBytes .ivRx 0 16 = some iv →
      (∀ u, unpad (cbcDec blockDec k iv c) = some u → u ≠ [] →
        ∃ m : Memory, Stored .cout 0 u s.mem m
          ∧ exec .decrypt s = .next { s with
              mem := m, ivRxValid := false, coutLen := BitVec.ofNat 8 u.length,
              coutKind := .plaintext, cmdErr := false, unitCause := .none })
      ∧ (unpad (cbcDec blockDec k iv c) = none ∨ unpad (cbcDec blockDec k iv c) = some [] →
          exec .decrypt s = .next { s with
            ivRxValid := false, coutLen := 0, coutKind := .none, cmdErr := false,
            unitCause := .decryptFail }))
    ∧ (s.ivRxValid = false ∨ (∃ n, s.cinLen = some n
          ∧ (n.toNat = 0 ∨ n.toNat % 16 ≠ 0 ∨ 128 < n.toNat)) →
        exec .decrypt s = .next { s with
          ivRxValid := false, coutLen := 0, coutKind := .none, cmdErr := false,
          unitCause := .decryptFail })
    ∧ (s.ivRxValid = true →
        s.cinLen = none ∨ (∃ n, s.cinLen = some n ∧ n.toNat % 16 = 0 ∧ 0 < n.toNat ∧ n.toNat ≤ 128
          ∧ (s.readBytes .cin 0 n.toNat = none ∨ s.readBytes .key 0 16 = none
            ∨ s.readBytes .ivRx 0 16 = none)) →
        exec .decrypt s = .next { s with unitCause := .badSequence })

/-- `Pad` adds 1 to 16 bytes, up to the next multiple of 16, and `Unpad` takes them off again
(R131, R132). That this holds above the 96 bytes of R131 too is the model's choice (assumption log 18). -/
def Obligations.UnpadOfPadIsTheMessage : Prop :=
  ∀ p : Bytes, unpad (pad p) = some p ∧ (pad p).length = 16 * (p.length / 16 + 1)

/-- CBC decryption undoes CBC encryption for every cipher with the law of R146 (R134). -/
def Obligations.CbcDecryptionUndoesEncryption : Prop :=
  ∀ (enc dec : Bytes → Bytes → Bytes), CipherLaw enc dec →
    ∀ k iv m : Bytes, k.length = 16 → iv.length = 16 → m.length % 16 = 0 →
      cbcDec dec k iv (cbcEnc enc k iv m) = m

/-- The round trip, as an equality of byte strings, the empty one included (R141). -/
def Obligations.DecryptOfEncryptIsThePlaintext : Prop :=
  ∀ (enc dec : Bytes → Bytes → Bytes), CipherLaw enc dec →
    ∀ k iv p : Bytes, k.length = 16 → iv.length = 16 → p.length ≤ 96 →
      cbcDecrypt dec (cbcEncrypt enc p k iv).1 k iv = p

/-- A wrong IV changes the first block alone, by the difference of the two IVs (R134). -/
def Obligations.WrongIvChangesOnlyTheFirstBlock : Prop :=
  ∀ (enc dec : Bytes → Bytes → Bytes), CipherLaw enc dec →
    ∀ k iv iv' c : Bytes, k.length = 16 → iv.length = 16 → iv'.length = 16 →
      c.length % 16 = 0 → c ≠ [] →
      (cbcDec dec k iv c).drop 16 = (cbcDec dec k iv' c).drop 16
        ∧ xorBytes ((cbcDec dec k iv c).take 16) ((cbcDec dec k iv' c).take 16) = xorBytes iv iv'

/-- `Decrypt` is total, and a success of length `L` gives `max(1, L - 16)` to `L - 1` bytes (R136,
R140). -/
def Obligations.DecryptLengthLaw : Prop :=
  ∀ (enc dec : Bytes → Bytes → Bytes), CipherLaw enc dec →
    ∀ k iv c : Bytes, k.length = 16 → iv.length = 16 →
      (cbcDecrypt dec c k iv = []
        ∨ (1 ≤ (cbcDecrypt dec c k iv).length
            ∧ c.length - 16 ≤ (cbcDecrypt dec c k iv).length
            ∧ (cbcDecrypt dec c k iv).length + 1 ≤ c.length))
      ∧ (c.length = 0 ∨ c.length % 16 ≠ 0 ∨ 128 < c.length → cbcDecrypt dec c k iv = [])

/-- AES-128 as it stands in the model has the law of R146: decryption undoes encryption, block by block
(R257). That the primitive is AES-128 is PRESUMED (assumption log 10): the spec leaves it open (R9), and
marks all of spec/44_aes128_primitive.md as from general knowledge. -/
def Obligations.AesMeetsTheCipherLaw : Prop := CipherLaw blockEnc blockDec

/-! ### The framer's commands -/

/-- The username field: 16 bytes, the first 15 source bytes at most, zeros after them (R99, R161). -/
def Obligations.UsernameFieldTruncatesAndPads : Prop :=
  ∀ u : Bytes, (usernameField u).length = 16
    ∧ ∀ i, i < 16 → (usernameField u)[i]?
        = if i < 15 ∧ i < u.length then u[i]? else some 0

/-- BUILD_REQ as a command (R162). That success clears `CMD_ERR` and a BAD_SEQUENCE refusal leaves it is
the model's choice (assumption log 9); that `TX_CNT` stays as it was beside `TX_LEN` = 19 is its reading
(log 14). -/
def Obligations.BuildReqWritesTheRequestFrame : Prop :=
  commandInstr 0x02 = .buildReq ∧ ∀ s : State, s.busy = false →
    (∀ n u, s.unameSrcLen = some n → s.readBytes .unameSrc 0 (min n.toNat 15) = some u →
      ∃ m : Memory,
        Stored .txbuf 0 ([0x31, 0x30, 0x35] ++ u ++ List.replicate (16 - u.length) 0) s.mem m
        ∧ exec .buildReq s = .next { s with
            mem := m, txLen := 19, cmdErr := false, unitCause := .none })
    ∧ (s.unameSrcLen = none ∨ (∃ n, s.unameSrcLen = some n
          ∧ s.readBytes .unameSrc 0 (min n.toNat 15) = none) →
        exec .buildReq s = .next { s with unitCause := .badSequence })

/-- BUILD_RESP as a command (R163): the ciphertext's own IV beside it, its length, a tail of zeros;
neither is framed twice; an unwritten input is refused (R14). That success clears `CMD_ERR` and a
BAD_SEQUENCE refusal leaves it is the model's choice (assumption log 9). -/
def Obligations.BuildRespWritesTheResponseFrame : Prop :=
  commandInstr 0x09 = .buildResp ∧ ∀ s : State, s.busy = false →
    (∀ n u iv ct, s.ivTxValid = true → s.coutKind = .ciphertext → s.unameSrcLen = some n →
      s.readBytes .unameSrc 0 (min n.toNat 15) = some u → s.readBytes .ivTx 0 16 = some iv →
      s.readBytes .cout 0 s.coutLen.toNat = some ct →
      ∃ m : Memory,
        Stored .txbuf 0 ([0x31, 0x31, 0x35] ++ (u ++ List.replicate (16 - u.length) 0) ++ iv
            ++ [0, 0, 0, s.coutLen] ++ ct ++ List.replicate (128 - s.coutLen.toNat) 0) s.mem m
        ∧ exec .buildResp s = .next { s with
            mem := m, txLen := 167, ivTxValid := false, coutKind := .none, cmdErr := false,
            unitCause := .none })
    ∧ (s.ivTxValid = false ∨ s.coutKind ≠ .ciphertext ∨ s.unameSrcLen = none
          ∨ (∃ n, s.unameSrcLen = some n ∧ s.readBytes .unameSrc 0 (min n.toNat 15) = none)
          ∨ s.readBytes .ivTx 0 16 = none ∨ s.readBytes .cout 0 s.coutLen.toNat = none →
        exec .buildResp s = .next { s with unitCause := .badSequence })

/-- PARSE_CHAL as a command (R165 to R167): the code first, then all 32 bits of the length; on an error
nothing is written; an unwritten input is refused (R14). That a raise clears `CMD_ERR` and a
BAD_SEQUENCE refusal leaves it is the model's choice (assumption log 9); that a raise needs only the
fields tested before it written is its reading (log 13). -/
def Obligations.ParseChalChecksThenExtracts : Prop :=
  commandInstr 0x03 = .parseChal ∧ ∀ s : State, s.busy = false →
    (s.readBytes .rxbuf 0 3 = some [0x33, 0x30, 0x35] →
      exec .parseChal s = .next { s with cmdErr := false, unitCause := .serverReported })
    ∧ (∀ c, s.readBytes .rxbuf 0 3 = some c → c ≠ [0x33, 0x30, 0x35] → c ≠ [0x31, 0x31, 0x30] →
        exec .parseChal s = .next { s with cmdErr := false, unitCause := .unexpectedCode })
    ∧ (∀ n0 n1 n2 n3 : Byte, s.readBytes .rxbuf 0 3 = some [0x31, 0x31, 0x30] →
        s.readBytes .rxbuf 35 4 = some [n0, n1, n2, n3] →
        (96 < n0.toNat * 2 ^ 24 + n1.toNat * 2 ^ 16 + n2.toNat * 2 ^ 8 + n3.toNat →
          exec .parseChal s = .next { s with cmdErr := false, unitCause := .badLength })
        ∧ ∀ iv ct, n0 = 0 → n1 = 0 → n2 = 0 → n3.toNat ≤ 96 →
            s.readBytes .rxbuf 19 16 = some iv → s.readBytes .rxbuf 39 n3.toNat = some ct →
            ∃ m : Memory, StoredBoth .ivRx iv .cin ct s.mem m
              ∧ exec .parseChal s = .next { s with
                  mem := m, ivRxValid := true, cinLen := some n3, cmdErr := false,
                  unitCause := .none })
    ∧ (s.readBytes .rxbuf 0 3 = none
          ∨ (s.readBytes .rxbuf 0 3 = some [0x31, 0x31, 0x30]
            ∧ (s.readBytes .rxbuf 35 4 = none
              ∨ ∃ n3 : Byte, s.readBytes .rxbuf 35 4 = some [0, 0, 0, n3] ∧ n3.toNat ≤ 96
                ∧ (s.readBytes .rxbuf 19 16 = none ∨ s.readBytes .rxbuf 39 n3.toNat = none))) →
        exec .parseChal s = .next { s with unitCause := .badSequence })

/-- PARSE_STAT as a command (R164, R168). That an accepted command, one that raises included, clears
`CMD_ERR` and a BAD_SEQUENCE refusal leaves it is the model's choice (assumption log 9). -/
def Obligations.ParseStatGivesTheVerdict : Prop :=
  commandInstr 0x0A = .parseStat ∧ ∀ s : State, s.busy = false →
    (∀ c, s.readBytes .rxbuf 0 3 = some c →
      exec .parseStat s = .next { s with
        cmdErr := false
        verdict :=
          if c = [0x32, 0x30, 0x35] then .success
          else if c = [0x32, 0x31, 0x30] then .failure else .none
        unitCause :=
          if c = [0x33, 0x30, 0x35] then .serverReported
          else if c = [0x32, 0x30, 0x35] ∨ c = [0x32, 0x31, 0x30] then .none
          else .unexpectedStatus })
    ∧ (s.readBytes .rxbuf 0 3 = none →
        exec .parseStat s = .next { s with unitCause := .badSequence })

/-! ### The frames as instructions -/

/-- The two frames the client builds stand in `TXBUF`, byte for byte their encoding, with their length;
a built Response uses up its IV and its ciphertext (R162, R163; assumption log 12). That this holds of the
fields that the framer never builds (R170) too is the model's choice (assumption log 19). -/
def Obligations.BuiltFramesStandInTxbuf : Prop :=
  ∀ (u : Bytes) (s : State), u.length = 16 →
    (∃ m : Memory, Stored .txbuf 0 (encode (.request105 u)) s.mem m
      ∧ exec (.request105 u) s = .next { s with mem := m, txLen := 19 })
    ∧ ∀ (iv p : Bytes) (n : BitVec 32), iv.length = 16 → p.length = 128 →
        ∃ m : Memory, Stored .txbuf 0 (encode (.response115 u iv n p)) s.mem m
          ∧ exec (.response115 u iv n p) s = .next { s with
              mem := m, txLen := 167, ivTxValid := false, coutKind := .none }

/-- The Challenge frame: its IV and the meaningful part of its payload, whatever its username and its
tail are; or `BAD_LENGTH`, with nothing written (R106, R107, R166, R167, R169). -/
def Obligations.ChallengeFrameIsCheckedThenExtracted : Prop :=
  ∀ (u iv p : Bytes) (n : BitVec 32) (s : State), iv.length = 16 → p.length = 128 →
    (n.toNat ≤ 96 →
      ∃ m : Memory, StoredBoth .ivRx iv .cin (p.take n.toNat) s.mem m
        ∧ exec (.challenge110 u iv n p) s = .next { s with
            mem := m, ivRxValid := true, cinLen := some (BitVec.ofNat 8 n.toNat) })
    ∧ (96 < n.toNat → exec (.challenge110 u iv n p) s = .next (raisedState .badLength s))

/-- The frames without an extraction: the two verdicts, and the codes that raise; no field but the code
has an effect (R104, R107, R164, R168, R221). -/
def Obligations.StatusAndErrorFramesHaveOneEffect : Prop :=
  ∀ (c u iv p : Bytes) (n : BitVec 32) (s : State),
    exec (.status205 u) s = .next { s with verdict := .success }
    ∧ exec (.status210 u) s = .next { s with verdict := .failure }
    ∧ exec (.error305AtChallenge u iv n p) s = .next (raisedState .serverReported s)
    ∧ exec (.error305AtStatus u) s
        = .next (raisedState .serverReported { s with verdict := .none })
    ∧ exec (.unexpectedCodeAtChallenge c u iv n p) s = .next (raisedState .unexpectedCode s)
    ∧ exec (.unexpectedCodeAtStatus c u) s
        = .next (raisedState .unexpectedStatus { s with verdict := .none })

/-! ### Errors -/

/-- Entry to `Error` (R277) and the reason of each cause that can end a session (R271): nothing else is
changed. -/
def Obligations.RaisingInASessionEntersError : Prop :=
  (∀ (c : Cause) (s : State), s.busy = true →
    raise c s = { s with
      pstate := .error, errReason := reasonOf c, errCause := c, busy := false,
      txActive := false })
  ∧ reasonOf .serverReported = .serverReported ∧ reasonOf .unexpectedCode = .protocolViolation
  ∧ reasonOf .badLength = .protocolViolation ∧ reasonOf .decryptFail = .cryptoFailure
  ∧ reasonOf .encryptFail = .cryptoFailure ∧ reasonOf .divByZero = .arithmetic
  ∧ reasonOf .unknownOperator = .arithmetic ∧ reasonOf .unexpectedStatus = .unexpectedStatus
  ∧ reasonOf .transportClosed = .transport ∧ reasonOf .transportError = .transport
  ∧ reasonOf .badChallengeLen = .protocolViolation

/-- A unit command, whatever its outcome, leaves the session, its report, the transfers, the user name,
the key and the world as they were (R24, R36, R37, R219, R273, R278). -/
def Obligations.UnitCommandsLeaveTheSessionAlone : Prop :=
  ∀ (b : Byte) (s : State), s.busy = false → 0x02 ≤ b.toNat → b.toNat ≤ 0x0A →
    ∃ t, exec (commandInstr b) s = .next t
      ∧ t.pstate = s.pstate ∧ t.errReason = s.errReason ∧ t.errCause = s.errCause
      ∧ t.busy = false ∧ t.txActive = s.txActive ∧ t.txCnt = s.txCnt ∧ t.rxCnt = s.rxCnt
      ∧ t.rxNeed = s.rxNeed ∧ t.txStream = s.txStream ∧ t.rxStream = s.rxStream
      ∧ t.txEvents = s.txEvents ∧ t.hostQueue = s.hostQueue ∧ t.turns = s.turns
      ∧ t.lastRead = s.lastRead ∧ t.unameSrcLen = s.unameSrcLen
      ∧ (∀ i, i < Config.unameSrcMax →
          t.mem.read (Space.unameSrc.addr i) = s.mem.read (Space.unameSrc.addr i))
      ∧ ∀ i, i < 16 → t.mem.read (Space.key.addr i) = s.mem.read (Space.key.addr i)

/-! ### Host commands and host accesses -/

/-- START (R211): accepted when idle in `Init` with the key and the user name written; otherwise
refused. -/
def Obligations.StartBeginsASession : Prop :=
  commandInstr 0x01 = .start ∧ ∀ s : State,
    (∀ k n u, s.busy = false → s.pstate = .init → s.readBytes .key 0 16 = some k →
      s.unameSrcLen = some n → s.readBytes .unameSrc 0 (min n.toNat 15) = some u →
      ∃ m : Memory,
        Stored .txbuf 0 ([0x31, 0x30, 0x35] ++ u ++ List.replicate (16 - u.length) 0) s.mem m
        ∧ exec .start s = .next { s with
            mem := m, busy := true, txLen := 19, txCnt := 0, txActive := true,
            cmdErr := false })
    ∧ (s.busy = true ∨ s.pstate ≠ .init ∨ s.readBytes .key 0 16 = none ∨ s.unameSrcLen = none
          ∨ (∃ n, s.unameSrcLen = some n ∧ s.readBytes .unameSrc 0 (min n.toNat 15) = none) →
        exec .start s = .next { s with cmdErr := true })

/-- A reserved command code sets `CMD_ERR` and changes nothing else (R112). -/
def Obligations.ReservedCommandsOnlySetCmdErr : Prop :=
  ∀ (b : Byte) (s : State), b.toNat = 0 ∨ 0x0C ≤ b.toNat →
    commandInstr b = .reservedCmd b
      ∧ exec (.reservedCmd b) s = .next { s with cmdErr := true }

/-- While busy every host write, of `CMD` with any code or of any register, changes nothing except
`CMD_ERR`; a read is always allowed and leaves nothing but its answer (R45). R45 names the writes of
`CMD` and of writable registers: that a write of a read-only register or array, or at an index outside
its array, is refused in the same way while busy, and that a read at such an index is answered too,
are the model's choices (assumption log 7). -/
def Obligations.HostCannotDisturbASession : Prop :=
  ∀ s : State,
    (s.busy = true →
      (∀ r v, hostAccess (.write r v) s = .next { s with cmdErr := true })
        ∧ ∀ sp off data, hostAccess (.writeBytes sp off data) s = .next { s with cmdErr := true })
    ∧ (∀ r, ∃ d, hostAccess (.read r) s = .next { s with lastRead := some d })
    ∧ ∀ sp off n, ∃ d, hostAccess (.readBytes sp off n) s = .next { s with lastRead := some d }

/-- Host writes while idle (R34, R37, R40). That a write of a read-only register or array changes nothing,
that a register takes the low bits of the 64 written, which writes make `IV_RX` valid, and that a
length above `UNAME_SRC_MAX` leaves in `UNAME_SRC_LEN` what was there or a free value of its range, are
the model's choices (assumption logs 7, 15, 11 and 3). -/
def Obligations.HostWritesReachTheirRegister : Prop :=
  ∀ (s : State) (v : BitVec 64), s.busy = false →
    hostAccess (.write .cinLen v) s = .next { s with cinLen := some (v.setWidth 8) }
    ∧ ((v.setWidth 8).toNat ≤ Config.unameSrcMax →
        hostAccess (.write .unameSrcLen v) s = .next { s with unameSrcLen := some (v.setWidth 8) })
    ∧ (Config.unameSrcMax < (v.setWidth 8).toNat →
        hostAccess (.write .unameSrcLen v) s = .next s
          ∨ ∃ w : BitVec 8, w.toNat ≤ Config.unameSrcMax
            ∧ hostAccess (.write .unameSrcLen v) s = .next { s with unameSrcLen := some w })
    ∧ hostAccess (.write .op v) s = .next { s with op := some (v.setWidth 8) }
    ∧ hostAccess (.write .left v) s = .next { s with left := some (v.setWidth 32) }
    ∧ hostAccess (.write .right v) s = .next { s with right := some (v.setWidth 32) }
    ∧ (∀ r, r ≠ .cmd → r ≠ .cinLen → r ≠ .unameSrcLen → r ≠ .op → r ≠ .left → r ≠ .right →
        hostAccess (.write r v) s = .next s)
    ∧ (∀ sp off data, sp = .ivTx ∨ sp = .cout ∨ sp = .txbuf →
        hostAccess (.writeBytes sp off data) s = .next s)
    ∧ ∀ sp off data, sp ≠ .ivTx → sp ≠ .cout → sp ≠ .txbuf → off + data.length ≤ sp.size →
        ∃ m : Memory, Stored sp off data s.mem m
          ∧ hostAccess (.writeBytes sp off data) s = .next { s with
              mem := m
              ivRxValid := s.ivRxValid
                || decide (sp = .ivRx ∧ off = 0 ∧ data.length = 16) }

/-- No host read depends on the key: two states that differ in `KEY` alone answer alike, and a read of
`KEY` is refused (R36, R280). -/
def Obligations.KeyIsNeverReadable : Prop :=
  ∀ (s : State) (m : Memory),
    (∀ a, ¬(Space.key.addr 0 ≤ a ∧ a < Space.key.addr 16) → m.read a = s.mem.read a) →
    (∀ r, ∃ d, hostAccess (.read r) s = .next { s with lastRead := some d }
        ∧ hostAccess (.read r) { s with mem := m }
          = .next { s with mem := m, lastRead := some d })
    ∧ (∀ sp off n,
        ∃ d, hostAccess (.readBytes sp off n) s = .next { s with lastRead := some d }
          ∧ hostAccess (.readBytes sp off n) { s with mem := m }
            = .next { s with mem := m, lastRead := some d })
    ∧ ∀ off n,
        hostAccess (.readBytes .key off n) s = .next { s with lastRead := some .refused }

/-- `STATUS`, bit by bit, and a host read of it (R28). That the value read comes extended with zeros to 64
bits is the model's choice (assumption log 15). -/
def Obligations.StatusWordShowsTheFlags : Prop :=
  ∀ s : State,
    s.statusWord.getLsbD 0 = s.busy
    ∧ (s.statusWord.getLsbD 1 = true
        ↔ s.pstate = .success ∨ s.pstate = .failure ∨ s.pstate = .error)
    ∧ s.statusWord.getLsbD 2 = s.ivRxValid ∧ s.statusWord.getLsbD 3 = s.ivTxValid
    ∧ s.statusWord.getLsbD 4 = s.resultValid ∧ s.statusWord.getLsbD 5 = s.cmdErr
    ∧ s.statusWord.toNat / 64 = s.coutKind.code
    ∧ hostAccess (.read .status) s
        = .next { s with lastRead := some (.value (s.statusWord.setWidth 64)) }

/-- A host read of state that can hold no value: refused while it holds none, else its value (R14, R21 to
R23, R32, R37); `CMD` refuses always, `RESULT` while it is not valid (R23, R27); the bytes of an array
but `KEY` are returned if each holds a value. That bytes an array does not have are refused like bytes
without a value is the model's choice (assumption log 7); that a value comes extended with zeros is log
15's. -/
def Obligations.ReadOfNoValueIsRefused : Prop :=
  ∀ s : State,
    hostAccess (.read .cmd) s = .next { s with lastRead := some .refused }
    ∧ hostAccess (.read .op) s = .next { s with
        lastRead := some (match s.op with | none => .refused | some v => .value (v.setWidth 64)) }
    ∧ hostAccess (.read .left) s = .next { s with
        lastRead := some (match s.left with | none => .refused | some v => .value (v.setWidth 64)) }
    ∧ hostAccess (.read .right) s = .next { s with
        lastRead := some (match s.right with | none => .refused | some v => .value (v.setWidth 64)) }
    ∧ hostAccess (.read .cinLen) s = .next { s with
        lastRead := some (match s.cinLen with | none => .refused | some v => .value (v.setWidth 64)) }
    ∧ hostAccess (.read .unameSrcLen) s = .next { s with
        lastRead := some
          (match s.unameSrcLen with | none => .refused | some v => .value (v.setWidth 64)) }
    ∧ (s.resultValid = false ∨ s.result = none →
        hostAccess (.read .result) s = .next { s with lastRead := some .refused })
    ∧ (∀ v, s.resultValid = true → s.result = some v →
        hostAccess (.read .result) s = .next { s with lastRead := some (.value v) })
    ∧ (∀ sp off n bs, sp ≠ .key → s.readBytes sp off n = some bs →
        hostAccess (.readBytes sp off n) s = .next { s with lastRead := some (.bytes bs) })
    ∧ ∀ sp off n, sp = .key ∨ s.readBytes sp off n = none →
        hostAccess (.readBytes sp off n) s = .next { s with lastRead := some .refused }

/-! ### Steps -/

/-- On the host's turn a write of `CMD` runs the instruction its byte decodes to, in the state with the
turn and the access taken (R27, R74). That a value wider than 8 bits runs its low byte is the model's
choice (assumption log 15). -/
def Obligations.StepRunsTheCommandWritten : Prop :=
  ∀ (s : State) (ts : List Turn) (q : List HostAction) (v : BitVec 64) (i : Instr),
    s.turns = .host :: ts → s.hostQueue = .write .cmd v :: q →
    decode .command [v.setWidth 8] = .instr i →
    step s = exec i { s with turns := ts, hostQueue := q }

/-- The last byte of a frame at the challenge point runs the frame's instruction in the state with the
byte stored and counted; unless that raised, DECRYPT follows in the same step, and then
`ChallengeReceived` (R74, R214, R216). That DECRYPT without a value it reads would be a fault here is
the model's (assumption log 6): by R225 it cannot arise, and `EngineInv` excludes it. -/
def Obligations.StepRunsTheChallengeFrame : Prop :=
  ∀ (s : State) (ts : List Turn) (es : List RxEvent) (b : Byte) (g : Bytes) (i : Instr),
    s.turns = .engine :: ts → s.busy = true → s.txActive = false → s.pstate = .awaitChallenge →
    s.rxNeed = 167 → s.rxCnt = 166 → s.rxStream = .byte b :: es →
    s.readBytes .rxbuf 0 166 = some g → decode .challengePoint (g ++ [b]) = .instr i →
    ∃ (m : Memory) (t : State), Stored .rxbuf 166 [b] s.mem m
      ∧ exec i { s with mem := m, turns := ts, rxStream := es, rxCnt := 167 } = .next t
      ∧ (t.pstate = .error → step s = .next t)
      ∧ (t.pstate ≠ .error → step s = match decryptOp t with
          | .done v => .next { v with pstate := .challengeReceived }
          | .raised c v => .next { v with
              pstate := .error, errReason := reasonOf c, errCause := c, busy := false,
              txActive := false }
          | .lacking => .fault .noValueInSession)

/-- The last byte of a frame at the status point runs the frame's instruction, and the verdict ends the
session in the same step (R74, R214, R218). -/
def Obligations.StepRunsTheStatusFrame : Prop :=
  ∀ (s : State) (ts : List Turn) (es : List RxEvent) (b : Byte) (g : Bytes) (i : Instr),
    s.turns = .engine :: ts → s.busy = true → s.txActive = false → s.pstate = .responseSent →
    s.rxNeed = 19 → s.rxCnt = 18 → s.rxStream = .byte b :: es →
    s.readBytes .rxbuf 0 18 = some g → decode .statusPoint (g ++ [b]) = .instr i →
    ∃ (m : Memory) (t : State), Stored .rxbuf 18 [b] s.mem m
      ∧ exec i { s with mem := m, turns := ts, rxStream := es, rxCnt := 19 } = .next t
      ∧ (t.verdict = .success →
          step s = .next { t with pstate := .success, busy := false, txActive := false })
      ∧ (t.verdict = .failure →
          step s = .next { t with pstate := .failure, busy := false, txActive := false })
      ∧ (t.verdict = .none → step s = .next t ∧ t.pstate = .error ∧ t.busy = false)

/-- The compute step decodes the plaintext into the solver's registers and runs the challenge they
hold; without a result the step ends there (R74, R217). -/
def Obligations.StepRunsTheChallengeWord : Prop :=
  ∀ (s : State) (ts : List Turn) (c : Bytes) (i : Instr),
    s.turns = .engine :: ts → s.busy = true → s.txActive = false →
    s.pstate = .challengeReceived → s.coutKind = .plaintext → s.coutLen = 9 →
    s.readBytes .cout 0 9 = some c → decode .challengeWord c = .instr i →
    ∃ t, exec i { s with
        turns := ts, op := some (c.headD 0), left := some (be32 (slice c 1 4)),
        right := some (be32 (slice c 5 4)) } = .next t
      ∧ (t.resultValid = false → step s = .next t)
      ∧ (t.resultValid = true → step s = afterSolve t)

/-- A solved challenge leaves the encrypted result in a Response frame that is to be sent: the IV is the
next draw, beside the ciphertext it was used for (R163, R217). That the primitive is AES-128 is PRESUMED
(assumption log 10); that the draw is a free value under the model's counter of draws is the model's
choice (log 2). -/
def Obligations.ComputeStepBuildsTheResponse : Prop :=
  ∀ (s : State) (ts : List Turn) (c k u : Bytes) (n : Nat), EngineInv s →
    s.turns = .engine :: ts → s.busy = true → s.txActive = false →
    s.pstate = .challengeReceived → s.coutLen = 9 → s.readBytes .cout 0 9 = some c →
    s.readBytes .key 0 16 = some k → s.userField = some u →
    solverValue (c.headD 0) (be32 (slice c 1 4)).toNat (be32 (slice c 5 4)).toNat = some n →
    ∃ (t : State) (v : Result) (iv : Bytes), step s = .next t
      ∧ v.toNat = n ∧ iv = toBE 16 (Config.draw16 s.draws).toNat
      ∧ t.readBytes .txbuf 0 167 = some (encode (.response115 u iv 16
          (cbcEnc blockEnc k iv (pad (toBE64 v)) ++ List.replicate 112 0)))
      ∧ t.result = some v ∧ t.resultValid = true ∧ t.draws = s.draws + 1
      ∧ t.txLen = 167 ∧ t.txCnt = 0 ∧ t.txActive = true ∧ t.busy = true
      ∧ t.pstate = .challengeReceived ∧ t.ivTxValid = false ∧ t.coutKind = .none
      ∧ t.txStream = s.txStream ∧ t.rxStream = s.rxStream ∧ t.turns = ts

/-- A challenge of a wrong length, with an unknown operator or with a zero divisor ends the session
with nothing sent, no draw taken and `TXBUF` as it was (R201, R217, R220). -/
def Obligations.NoResponseAfterASolverFailure : Prop :=
  ∀ (s : State) (ts : List Turn) (c : Bytes), EngineInv s →
    s.turns = .engine :: ts → s.busy = true → s.txActive = false →
    s.pstate = .challengeReceived →
    (s.coutLen ≠ 9 ∨ (s.readBytes .cout 0 9 = some c
      ∧ solverValue (c.headD 0) (be32 (slice c 1 4)).toNat (be32 (slice c 5 4)).toNat = none)) →
    ∃ t, step s = .next t ∧ t.pstate = .error ∧ t.busy = false ∧ t.txActive = false
      ∧ t.errCause = (if s.coutLen ≠ 9 then .badChallengeLen else solverCause (c.headD 0))
      ∧ t.mem = s.mem ∧ t.txLen = s.txLen ∧ t.txCnt = s.txCnt ∧ t.draws = s.draws
      ∧ t.txStream = s.txStream ∧ t.rxStream = s.rxStream

/-- The TX step (R213): the byte `TXBUF[TX_CNT]` is accepted, the last one of the Request or of the
Response with its transition (R215, R217), or the channel's error ends the session. -/
def Obligations.TxStepSendsOneByte : Prop :=
  ∀ (s : State) (ts : List Turn) (es : List TxEvent) (b : Byte),
    s.turns = .engine :: ts → s.txActive = true →
    s.readBytes .txbuf s.txCnt.toNat 1 = some [b] →
    (s.txEvents = .accept :: es → s.txCnt + 1 ≠ s.txLen →
      step s = .next { s with
        turns := ts, txEvents := es, txCnt := s.txCnt + 1, txStream := s.txStream ++ [b] })
    ∧ (s.txEvents = .accept :: es → s.txCnt + 1 = s.txLen → s.pstate = .init →
        step s = .next { s with
          turns := ts, txEvents := es, txCnt := s.txCnt + 1, txStream := s.txStream ++ [b],
          txActive := false, pstate := .awaitChallenge, rxNeed := 167, rxCnt := 0 })
    ∧ (s.txEvents = .accept :: es → s.txCnt + 1 = s.txLen → s.pstate = .challengeReceived →
        step s = .next { s with
          turns := ts, txEvents := es, txCnt := s.txCnt + 1, txStream := s.txStream ++ [b],
          txActive := false, pstate := .responseSent, rxNeed := 19, rxCnt := 0 })
    ∧ (s.txEvents = .err :: es →
        step s = .next { s with
          turns := ts, txEvents := es, pstate := .error, errReason := .transport,
          errCause := .transportError, busy := false, txActive := false })

/-- The RX step (R214) before the last byte, and its two ends. -/
def Obligations.RxStepReceivesOneByte : Prop :=
  ∀ (s : State) (ts : List Turn) (es : List RxEvent),
    s.turns = .engine :: ts → s.busy = true → s.txActive = false →
    s.pstate = .awaitChallenge ∨ s.pstate = .responseSent → s.rxCnt < s.rxNeed →
    (∀ b, s.rxStream = .byte b :: es → s.rxCnt + 1 ≠ s.rxNeed →
      ∃ m : Memory, Stored .rxbuf s.rxCnt.toNat [b] s.mem m
        ∧ step s = .next { s with
            mem := m, turns := ts, rxStream := es, rxCnt := s.rxCnt + 1 })
    ∧ (s.rxStream = .close :: es →
        step s = .next { s with
          turns := ts, rxStream := es, pstate := .error, errReason := .transport,
          errCause := .transportClosed, busy := false, txActive := false })
    ∧ (s.rxStream = .err :: es →
        step s = .next { s with
          turns := ts, rxStream := es, pstate := .error, errReason := .transport,
          errCause := .transportError, busy := false, txActive := false })

/-- Without the peer's event the engine holds its state, however often it is its turn (R222, R285). That
whose move it is stands in a queue of turns, and that a machine with no turn left holds its state, are
the model's choice (assumption log 5). -/
def Obligations.EngineWaitsWithoutAnEvent : Prop :=
  ∀ s : State,
    (s.turns = [] → step s = .next s)
    ∧ ∀ ts, s.turns = .engine :: ts → eventReady s = false →
        step s = .next { s with turns := ts }

/-! ### Padding, the chain, and the reports at the host port -/

/-- PKCS#7: `Pad` adds `k` bytes of value `k` (R131); `Unpad` takes off as many bytes as the last one says,
if it says 1 to 16 and each of them says so too, and is invalid otherwise (R108, R132). That `Pad` does so
above the 96 bytes of R131 too is the model's choice (assumption log 18). -/
def Obligations.PadAndUnpadFollowTheCount : Prop :=
  (∀ p : Bytes, ∃ k : Nat, k = 16 - p.length % 16 ∧ 1 ≤ k ∧ k ≤ 16
      ∧ pad p = p ++ List.replicate k (BitVec.ofNat 8 k)
      ∧ (pad p).length = 16 * (p.length / 16 + 1) ∧ unpad (pad p) = some p)
  ∧ ∀ (m : Bytes) (v : Byte), m.length % 16 = 0 → m.getLast? = some v →
      (1 ≤ v.toNat → v.toNat ≤ 16 →
        (∀ i, m.length - v.toNat ≤ i → i < m.length → m[i]? = some v) →
        unpad m = some (m.take (m.length - v.toNat)))
      ∧ (v.toNat < 1 ∨ 16 < v.toNat
          ∨ (∃ i, m.length - v.toNat ≤ i ∧ i < m.length ∧ m[i]? ≠ some v) →
        unpad m = none)

/-- A changed ciphertext block changes its own message block, changes the next one by the same
exclusive-or difference, and no other (R134). -/
def Obligations.CiphertextChangeSpreadsToTwoBlocks : Prop :=
  ∀ (enc dec : Bytes → Bytes → Bytes), CipherLaw enc dec →
    ∀ k iv before x y next rest : Bytes, k.length = 16 → iv.length = 16 →
      before.length % 16 = 0 → x.length = 16 → y.length = 16 → x ≠ y → next.length = 16 →
      rest.length % 16 = 0 →
      ∃ b mx my nx ny r : Bytes,
        cbcDec dec k iv (before ++ x ++ next ++ rest) = b ++ mx ++ nx ++ r
        ∧ cbcDec dec k iv (before ++ y ++ next ++ rest) = b ++ my ++ ny ++ r
        ∧ cbcDec dec k iv (before ++ x) = b ++ mx ∧ cbcDec dec k iv (before ++ y) = b ++ my
        ∧ b.length = before.length ∧ mx.length = 16 ∧ my.length = 16 ∧ nx.length = 16
        ∧ ny.length = 16 ∧ mx ≠ my ∧ xorBytes nx ny = xorBytes x y

/-- A host read of a report register or of a counter returns its code or its count, and changes nothing
else (R24, R25, R29 to R31, R33, R40). That a value comes extended with zeros is the model's choice
(assumption log 15). -/
def Obligations.ReadsShowReportsAndCounters : Prop :=
  ∀ s : State,
    hostAccess (.read .pstate) s = .next { s with lastRead := some (.value (match s.pstate with
      | .init => 0 | .awaitChallenge => 1 | .challengeReceived => 2 | .responseSent => 3
      | .success => 4 | .failure => 5 | .error => 6)) }
    ∧ hostAccess (.read .errReason) s = .next { s with
        lastRead := some (.value (match s.errReason with
          | .none => 0 | .serverReported => 1 | .protocolViolation => 2 | .cryptoFailure => 3
          | .arithmetic => 4 | .unexpectedStatus => 5 | .transport => 6)) }
    ∧ (∀ (c : Cause) (code : BitVec 64),
        (c, code) ∈ [(Cause.none, (0 : BitVec 64)), (.serverReported, 1), (.unexpectedCode, 2),
          (.badLength, 3), (.decryptFail, 4), (.encryptFail, 5), (.divByZero, 6),
          (.unknownOperator, 7), (.unexpectedStatus, 8), (.transportClosed, 9),
          (.transportError, 10), (.badChallengeLen, 11), (.badSequence, 12)] →
        (s.errCause = c →
          hostAccess (.read .errCause) s = .next { s with lastRead := some (.value code) })
        ∧ (s.unitCause = c →
          hostAccess (.read .unitCause) s = .next { s with lastRead := some (.value code) }))
    ∧ hostAccess (.read .verdict) s = .next { s with
        lastRead := some (.value (match s.verdict with
          | .none => 0 | .success => 1 | .failure => 2)) }
    ∧ hostAccess (.read .coutLen) s
        = .next { s with lastRead := some (.value (s.coutLen.setWidth 64)) }
    ∧ hostAccess (.read .txLen) s = .next { s with lastRead := some (.value (s.txLen.setWidth 64)) }
    ∧ hostAccess (.read .txCnt) s = .next { s with lastRead := some (.value (s.txCnt.setWidth 64)) }
    ∧ hostAccess (.read .rxNeed) s
        = .next { s with lastRead := some (.value (s.rxNeed.setWidth 64)) }
    ∧ hostAccess (.read .rxCnt) s = .next { s with lastRead := some (.value (s.rxCnt.setWidth 64)) }
end

