-- ==== Sys2Proof/Laws/Aes.lean ====
section
/-! SUPPORT. The lengths of what AES-128 computes: sixteen bytes from a key and a block of sixteen. -/

namespace Sys2Proof.Machine

theorem xorBytes_length (x y : Bytes) : (xorBytes x y).length = min x.length y.length := by
  simp [xorBytes]

theorem xorBytes_length_of_eq {x y : Bytes} {n : Nat} (hx : x.length = n) (hy : y.length = n) :
    (xorBytes x y).length = n := by
  rw [xorBytes_length, hx, hy, Nat.min_self]

/-- Exclusive or with the same bytes twice is the identity. -/
theorem xorBytes_xorBytes (x k : Bytes) (h : x.length = k.length) :
    xorBytes (xorBytes x k) k = x := by
  induction x generalizing k with
  | nil => simp [xorBytes]
  | cons b x ih =>
    cases k with
    | nil => simp at h
    | cons c k =>
      have := ih k (by simpa using h)
      simp only [xorBytes, List.zipWith_cons_cons] at this ⊢
      rw [this, BitVec.xor_assoc, BitVec.xor_self, BitVec.xor_zero]

theorem shiftRows_length (s : Bytes) : (shiftRows s).length = 16 := by simp [shiftRows]

theorem invShiftRows_length (s : Bytes) : (invShiftRows s).length = 16 := by simp [invShiftRows]

theorem subBytes_length (s : Bytes) : (subBytes s).length = s.length := by simp [subBytes]

theorem invSubBytes_length (s : Bytes) : (invSubBytes s).length = s.length := by
  simp [invSubBytes]

/-- Both column mixings keep the length of whole columns. -/
theorem mixColumns_length (n : Nat) (s : Bytes) (h : s.length = 4 * n) :
    (mixColumns s).length = 4 * n ∧ (invMixColumns s).length = 4 * n := by
  induction n generalizing s with
  | zero =>
    have : s = [] := List.length_eq_zero_iff.mp h
    subst this
    exact ⟨rfl, rfl⟩
  | succ n ih =>
    match s, h with
    | a :: b :: c :: d :: r, h =>
      have h' : r.length = 4 * n := by simp only [List.length_cons] at h; omega
      have := ih r h'
      simp only [mixColumns, invMixColumns, List.length_cons, this]
      omega
    | [], h | [_], h | [_, _], h | [_, _, _], h =>
      simp only [List.length_nil, List.length_cons] at h; omega

theorem nextRoundKey_length (k : Bytes) (c : Byte) (h : k.length = 16) :
    (nextRoundKey k c).length = 16 := by
  simp [nextRoundKey, xorBytes, h]

theorem roundKeysFrom_length (cs k : Bytes) (h : k.length = 16) :
    ∀ r ∈ roundKeysFrom k cs, r.length = 16 := by
  induction cs generalizing k with
  | nil => intro r hr; cases hr
  | cons c cs ih =>
    intro r hr
    have hk := nextRoundKey_length k c h
    rcases List.mem_cons.mp hr with rfl | hr
    · exact hk
    · exact ih _ hk r hr

/-- Every round key has sixteen bytes. -/
theorem roundKeys_length (k : Bytes) (h : k.length = 16) : ∀ r ∈ roundKeys k, r.length = 16 := by
  intro r hr
  rcases List.mem_cons.mp hr with rfl | hr
  · exact h
  · exact roundKeysFrom_length rcon k h r hr

theorem encRounds_length (ks : List Bytes) (s : Bytes) (hs : s.length = 16)
    (hk : ∀ r ∈ ks, r.length = 16) : (encRounds s ks).length = 16 := by
  induction ks generalizing s with
  | nil => exact hs
  | cons k ks ih =>
    have hk0 := hk k (by simp)
    cases ks with
    | nil => exact xorBytes_length_of_eq (shiftRows_length _) hk0
    | cons k' ks =>
      refine ih _ (xorBytes_length_of_eq ?_ hk0) fun r hr => hk r (List.mem_cons_of_mem _ hr)
      exact (mixColumns_length 4 _ (shiftRows_length _)).1

theorem decRounds_length (ks : List Bytes) (s : Bytes) (hs : s.length = 16)
    (hk : ∀ r ∈ ks, r.length = 16) : (decRounds s ks).length = 16 := by
  induction ks generalizing s with
  | nil => exact hs
  | cons k ks ih =>
    have hk0 := hk k (by simp)
    have hx : (xorBytes (invSubBytes (invShiftRows s)) k).length = 16 :=
      xorBytes_length_of_eq ((invSubBytes_length _).trans (invShiftRows_length _)) hk0
    cases ks with
    | nil => exact hx
    | cons k' ks =>
      exact ih _ (mixColumns_length 4 _ hx).2 fun r hr => hk r (List.mem_cons_of_mem _ hr)

/-- A block and a key of sixteen bytes give a block (R9, R256). -/
theorem blockEnc_length (k x : Bytes) (hk : k.length = 16) (hx : x.length = 16) :
    (blockEnc k x).length = 16 := by
  have hr := roundKeys_length k hk
  unfold blockEnc
  split
  · exact hx
  · rename_i k0 ks h
    rw [h] at hr
    exact encRounds_length _ _ (xorBytes_length_of_eq hx (hr k0 (by simp)))
      fun r h' => hr r (List.mem_cons_of_mem _ h')

/-- A block and a key of sixteen bytes give a block (R9, R257). -/
theorem blockDec_length (k y : Bytes) (hk : k.length = 16) (hy : y.length = 16) :
    (blockDec k y).length = 16 := by
  have hr : ∀ r ∈ (roundKeys k).reverse, r.length = 16 := fun r h =>
    roundKeys_length k hk r (List.mem_reverse.mp h)
  unfold blockDec
  split
  · exact hy
  · rename_i k0 ks h
    rw [h] at hr
    exact decRounds_length _ _ (xorBytes_length_of_eq hy (hr k0 (by simp)))
      fun r h' => hr r (List.mem_cons_of_mem _ h')

end Sys2Proof.Machine
end

