-- ==== Sys2Proof/Laws/State.lean ====
section
/-! SUPPORT. One lemma for each field of the state and each named update of it: what the field is after the
update. Later proofs unfold no record update. -/

namespace Sys2Proof.Machine

@[simp] theorem writeBytes_op (s : State) (sp : Space) (off : Nat) (bs : Bytes) :
    (s.writeBytes sp off bs).op = s.op := rfl
@[simp] theorem writeBytes_left (s : State) (sp : Space) (off : Nat) (bs : Bytes) :
    (s.writeBytes sp off bs).left = s.left := rfl
@[simp] theorem writeBytes_right (s : State) (sp : Space) (off : Nat) (bs : Bytes) :
    (s.writeBytes sp off bs).right = s.right := rfl
@[simp] theorem writeBytes_result (s : State) (sp : Space) (off : Nat) (bs : Bytes) :
    (s.writeBytes sp off bs).result = s.result := rfl
@[simp] theorem writeBytes_pstate (s : State) (sp : Space) (off : Nat) (bs : Bytes) :
    (s.writeBytes sp off bs).pstate = s.pstate := rfl
@[simp] theorem writeBytes_txCnt (s : State) (sp : Space) (off : Nat) (bs : Bytes) :
    (s.writeBytes sp off bs).txCnt = s.txCnt := rfl
@[simp] theorem writeBytes_txLen (s : State) (sp : Space) (off : Nat) (bs : Bytes) :
    (s.writeBytes sp off bs).txLen = s.txLen := rfl
@[simp] theorem writeBytes_rxCnt (s : State) (sp : Space) (off : Nat) (bs : Bytes) :
    (s.writeBytes sp off bs).rxCnt = s.rxCnt := rfl
@[simp] theorem writeBytes_rxNeed (s : State) (sp : Space) (off : Nat) (bs : Bytes) :
    (s.writeBytes sp off bs).rxNeed = s.rxNeed := rfl
@[simp] theorem writeBytes_busy (s : State) (sp : Space) (off : Nat) (bs : Bytes) :
    (s.writeBytes sp off bs).busy = s.busy := rfl
@[simp] theorem writeBytes_txActive (s : State) (sp : Space) (off : Nat) (bs : Bytes) :
    (s.writeBytes sp off bs).txActive = s.txActive := rfl
@[simp] theorem writeBytes_ivRxValid (s : State) (sp : Space) (off : Nat) (bs : Bytes) :
    (s.writeBytes sp off bs).ivRxValid = s.ivRxValid := rfl
@[simp] theorem writeBytes_ivTxValid (s : State) (sp : Space) (off : Nat) (bs : Bytes) :
    (s.writeBytes sp off bs).ivTxValid = s.ivTxValid := rfl
@[simp] theorem writeBytes_resultValid (s : State) (sp : Space) (off : Nat) (bs : Bytes) :
    (s.writeBytes sp off bs).resultValid = s.resultValid := rfl
@[simp] theorem writeBytes_cmdErr (s : State) (sp : Space) (off : Nat) (bs : Bytes) :
    (s.writeBytes sp off bs).cmdErr = s.cmdErr := rfl
@[simp] theorem writeBytes_coutKind (s : State) (sp : Space) (off : Nat) (bs : Bytes) :
    (s.writeBytes sp off bs).coutKind = s.coutKind := rfl
@[simp] theorem writeBytes_errReason (s : State) (sp : Space) (off : Nat) (bs : Bytes) :
    (s.writeBytes sp off bs).errReason = s.errReason := rfl
@[simp] theorem writeBytes_errCause (s : State) (sp : Space) (off : Nat) (bs : Bytes) :
    (s.writeBytes sp off bs).errCause = s.errCause := rfl
@[simp] theorem writeBytes_unitCause (s : State) (sp : Space) (off : Nat) (bs : Bytes) :
    (s.writeBytes sp off bs).unitCause = s.unitCause := rfl
@[simp] theorem writeBytes_verdict (s : State) (sp : Space) (off : Nat) (bs : Bytes) :
    (s.writeBytes sp off bs).verdict = s.verdict := rfl
@[simp] theorem writeBytes_cinLen (s : State) (sp : Space) (off : Nat) (bs : Bytes) :
    (s.writeBytes sp off bs).cinLen = s.cinLen := rfl
@[simp] theorem writeBytes_coutLen (s : State) (sp : Space) (off : Nat) (bs : Bytes) :
    (s.writeBytes sp off bs).coutLen = s.coutLen := rfl
@[simp] theorem writeBytes_unameSrcLen (s : State) (sp : Space) (off : Nat) (bs : Bytes) :
    (s.writeBytes sp off bs).unameSrcLen = s.unameSrcLen := rfl
@[simp] theorem writeBytes_mem (s : State) (sp : Space) (off : Nat) (bs : Bytes) :
    (s.writeBytes sp off bs).mem = s.mem.writeRange (sp.addr off) bs := rfl
@[simp] theorem writeBytes_txStream (s : State) (sp : Space) (off : Nat) (bs : Bytes) :
    (s.writeBytes sp off bs).txStream = s.txStream := rfl
@[simp] theorem writeBytes_rxStream (s : State) (sp : Space) (off : Nat) (bs : Bytes) :
    (s.writeBytes sp off bs).rxStream = s.rxStream := rfl
@[simp] theorem writeBytes_txEvents (s : State) (sp : Space) (off : Nat) (bs : Bytes) :
    (s.writeBytes sp off bs).txEvents = s.txEvents := rfl
@[simp] theorem writeBytes_hostQueue (s : State) (sp : Space) (off : Nat) (bs : Bytes) :
    (s.writeBytes sp off bs).hostQueue = s.hostQueue := rfl
@[simp] theorem writeBytes_turns (s : State) (sp : Space) (off : Nat) (bs : Bytes) :
    (s.writeBytes sp off bs).turns = s.turns := rfl
@[simp] theorem writeBytes_lastRead (s : State) (sp : Space) (off : Nat) (bs : Bytes) :
    (s.writeBytes sp off bs).lastRead = s.lastRead := rfl
@[simp] theorem writeBytes_draws (s : State) (sp : Space) (off : Nat) (bs : Bytes) :
    (s.writeBytes sp off bs).draws = s.draws := rfl

@[simp] theorem enterError_op (c : Cause) (s : State) : (enterError c s).op = s.op := rfl
@[simp] theorem enterError_left (c : Cause) (s : State) : (enterError c s).left = s.left := rfl
@[simp] theorem enterError_right (c : Cause) (s : State) : (enterError c s).right = s.right := rfl
@[simp] theorem enterError_result (c : Cause) (s : State) :
    (enterError c s).result = s.result := rfl
@[simp] theorem enterError_pstate (c : Cause) (s : State) : (enterError c s).pstate = .error := rfl
@[simp] theorem enterError_txCnt (c : Cause) (s : State) : (enterError c s).txCnt = s.txCnt := rfl
@[simp] theorem enterError_txLen (c : Cause) (s : State) : (enterError c s).txLen = s.txLen := rfl
@[simp] theorem enterError_rxCnt (c : Cause) (s : State) : (enterError c s).rxCnt = s.rxCnt := rfl
@[simp] theorem enterError_rxNeed (c : Cause) (s : State) :
    (enterError c s).rxNeed = s.rxNeed := rfl
@[simp] theorem enterError_busy (c : Cause) (s : State) : (enterError c s).busy = false := rfl
@[simp] theorem enterError_txActive (c : Cause) (s : State) :
    (enterError c s).txActive = false := rfl
@[simp] theorem enterError_ivRxValid (c : Cause) (s : State) :
    (enterError c s).ivRxValid = s.ivRxValid := rfl
@[simp] theorem enterError_ivTxValid (c : Cause) (s : State) :
    (enterError c s).ivTxValid = s.ivTxValid := rfl
@[simp] theorem enterError_resultValid (c : Cause) (s : State) :
    (enterError c s).resultValid = s.resultValid := rfl
@[simp] theorem enterError_cmdErr (c : Cause) (s : State) :
    (enterError c s).cmdErr = s.cmdErr := rfl
@[simp] theorem enterError_coutKind (c : Cause) (s : State) :
    (enterError c s).coutKind = s.coutKind := rfl
@[simp] theorem enterError_errReason (c : Cause) (s : State) :
    (enterError c s).errReason = reasonOf c := rfl
@[simp] theorem enterError_errCause (c : Cause) (s : State) : (enterError c s).errCause = c := rfl
@[simp] theorem enterError_unitCause (c : Cause) (s : State) :
    (enterError c s).unitCause = s.unitCause := rfl
@[simp] theorem enterError_verdict (c : Cause) (s : State) :
    (enterError c s).verdict = s.verdict := rfl
@[simp] theorem enterError_cinLen (c : Cause) (s : State) :
    (enterError c s).cinLen = s.cinLen := rfl
@[simp] theorem enterError_coutLen (c : Cause) (s : State) :
    (enterError c s).coutLen = s.coutLen := rfl
@[simp] theorem enterError_unameSrcLen (c : Cause) (s : State) :
    (enterError c s).unameSrcLen = s.unameSrcLen := rfl
@[simp] theorem enterError_mem (c : Cause) (s : State) : (enterError c s).mem = s.mem := rfl
@[simp] theorem enterError_txStream (c : Cause) (s : State) :
    (enterError c s).txStream = s.txStream := rfl
@[simp] theorem enterError_rxStream (c : Cause) (s : State) :
    (enterError c s).rxStream = s.rxStream := rfl
@[simp] theorem enterError_txEvents (c : Cause) (s : State) :
    (enterError c s).txEvents = s.txEvents := rfl
@[simp] theorem enterError_hostQueue (c : Cause) (s : State) :
    (enterError c s).hostQueue = s.hostQueue := rfl
@[simp] theorem enterError_turns (c : Cause) (s : State) : (enterError c s).turns = s.turns := rfl
@[simp] theorem enterError_lastRead (c : Cause) (s : State) :
    (enterError c s).lastRead = s.lastRead := rfl
@[simp] theorem enterError_draws (c : Cause) (s : State) : (enterError c s).draws = s.draws := rfl

@[simp] theorem refuseCommand_op (s : State) : (refuseCommand s).op = s.op := rfl
@[simp] theorem refuseCommand_left (s : State) : (refuseCommand s).left = s.left := rfl
@[simp] theorem refuseCommand_right (s : State) : (refuseCommand s).right = s.right := rfl
@[simp] theorem refuseCommand_result (s : State) : (refuseCommand s).result = s.result := rfl
@[simp] theorem refuseCommand_pstate (s : State) : (refuseCommand s).pstate = s.pstate := rfl
@[simp] theorem refuseCommand_txCnt (s : State) : (refuseCommand s).txCnt = s.txCnt := rfl
@[simp] theorem refuseCommand_txLen (s : State) : (refuseCommand s).txLen = s.txLen := rfl
@[simp] theorem refuseCommand_rxCnt (s : State) : (refuseCommand s).rxCnt = s.rxCnt := rfl
@[simp] theorem refuseCommand_rxNeed (s : State) : (refuseCommand s).rxNeed = s.rxNeed := rfl
@[simp] theorem refuseCommand_busy (s : State) : (refuseCommand s).busy = s.busy := rfl
@[simp] theorem refuseCommand_txActive (s : State) : (refuseCommand s).txActive = s.txActive := rfl
@[simp] theorem refuseCommand_ivRxValid (s : State) :
    (refuseCommand s).ivRxValid = s.ivRxValid := rfl
@[simp] theorem refuseCommand_ivTxValid (s : State) :
    (refuseCommand s).ivTxValid = s.ivTxValid := rfl
@[simp] theorem refuseCommand_resultValid (s : State) :
    (refuseCommand s).resultValid = s.resultValid := rfl
@[simp] theorem refuseCommand_cmdErr (s : State) : (refuseCommand s).cmdErr = true := rfl
@[simp] theorem refuseCommand_coutKind (s : State) : (refuseCommand s).coutKind = s.coutKind := rfl
@[simp] theorem refuseCommand_errReason (s : State) :
    (refuseCommand s).errReason = s.errReason := rfl
@[simp] theorem refuseCommand_errCause (s : State) : (refuseCommand s).errCause = s.errCause := rfl
@[simp] theorem refuseCommand_unitCause (s : State) :
    (refuseCommand s).unitCause = s.unitCause := rfl
@[simp] theorem refuseCommand_verdict (s : State) : (refuseCommand s).verdict = s.verdict := rfl
@[simp] theorem refuseCommand_cinLen (s : State) : (refuseCommand s).cinLen = s.cinLen := rfl
@[simp] theorem refuseCommand_coutLen (s : State) : (refuseCommand s).coutLen = s.coutLen := rfl
@[simp] theorem refuseCommand_unameSrcLen (s : State) :
    (refuseCommand s).unameSrcLen = s.unameSrcLen := rfl
@[simp] theorem refuseCommand_mem (s : State) : (refuseCommand s).mem = s.mem := rfl
@[simp] theorem refuseCommand_txStream (s : State) : (refuseCommand s).txStream = s.txStream := rfl
@[simp] theorem refuseCommand_rxStream (s : State) : (refuseCommand s).rxStream = s.rxStream := rfl
@[simp] theorem refuseCommand_txEvents (s : State) : (refuseCommand s).txEvents = s.txEvents := rfl
@[simp] theorem refuseCommand_hostQueue (s : State) :
    (refuseCommand s).hostQueue = s.hostQueue := rfl
@[simp] theorem refuseCommand_turns (s : State) : (refuseCommand s).turns = s.turns := rfl
@[simp] theorem refuseCommand_lastRead (s : State) : (refuseCommand s).lastRead = s.lastRead := rfl
@[simp] theorem refuseCommand_draws (s : State) : (refuseCommand s).draws = s.draws := rfl

@[simp] theorem hardReset_op (s : State) : (hardReset s).op = none := rfl
@[simp] theorem hardReset_left (s : State) : (hardReset s).left = none := rfl
@[simp] theorem hardReset_right (s : State) : (hardReset s).right = none := rfl
@[simp] theorem hardReset_result (s : State) : (hardReset s).result = none := rfl
@[simp] theorem hardReset_pstate (s : State) : (hardReset s).pstate = .init := rfl
@[simp] theorem hardReset_txCnt (s : State) : (hardReset s).txCnt = 0 := rfl
@[simp] theorem hardReset_txLen (s : State) : (hardReset s).txLen = 0 := rfl
@[simp] theorem hardReset_rxCnt (s : State) : (hardReset s).rxCnt = 0 := rfl
@[simp] theorem hardReset_rxNeed (s : State) : (hardReset s).rxNeed = 0 := rfl
@[simp] theorem hardReset_busy (s : State) : (hardReset s).busy = false := rfl
@[simp] theorem hardReset_txActive (s : State) : (hardReset s).txActive = false := rfl
@[simp] theorem hardReset_ivRxValid (s : State) : (hardReset s).ivRxValid = false := rfl
@[simp] theorem hardReset_ivTxValid (s : State) : (hardReset s).ivTxValid = false := rfl
@[simp] theorem hardReset_resultValid (s : State) : (hardReset s).resultValid = false := rfl
@[simp] theorem hardReset_cmdErr (s : State) : (hardReset s).cmdErr = false := rfl
@[simp] theorem hardReset_coutKind (s : State) : (hardReset s).coutKind = .none := rfl
@[simp] theorem hardReset_errReason (s : State) : (hardReset s).errReason = .none := rfl
@[simp] theorem hardReset_errCause (s : State) : (hardReset s).errCause = .none := rfl
@[simp] theorem hardReset_unitCause (s : State) : (hardReset s).unitCause = .none := rfl
@[simp] theorem hardReset_verdict (s : State) : (hardReset s).verdict = .none := rfl
@[simp] theorem hardReset_cinLen (s : State) : (hardReset s).cinLen = none := rfl
@[simp] theorem hardReset_coutLen (s : State) : (hardReset s).coutLen = 0 := rfl
@[simp] theorem hardReset_unameSrcLen (s : State) : (hardReset s).unameSrcLen = none := rfl
@[simp] theorem hardReset_mem (s : State) : (hardReset s).mem = [] := rfl
@[simp] theorem hardReset_txStream (s : State) : (hardReset s).txStream = s.txStream := rfl
@[simp] theorem hardReset_rxStream (s : State) : (hardReset s).rxStream = s.rxStream := rfl
@[simp] theorem hardReset_txEvents (s : State) : (hardReset s).txEvents = s.txEvents := rfl
@[simp] theorem hardReset_hostQueue (s : State) : (hardReset s).hostQueue = s.hostQueue := rfl
@[simp] theorem hardReset_turns (s : State) : (hardReset s).turns = s.turns := rfl
@[simp] theorem hardReset_lastRead (s : State) : (hardReset s).lastRead = s.lastRead := rfl
@[simp] theorem hardReset_draws (s : State) : (hardReset s).draws = s.draws := rfl

@[simp] theorem putResult_op (v : Result) (s : State) : (putResult v s).op = s.op := rfl
@[simp] theorem putResult_left (v : Result) (s : State) : (putResult v s).left = s.left := rfl
@[simp] theorem putResult_right (v : Result) (s : State) : (putResult v s).right = s.right := rfl
@[simp] theorem putResult_result (v : Result) (s : State) : (putResult v s).result = some v := rfl
@[simp] theorem putResult_pstate (v : Result) (s : State) : (putResult v s).pstate = s.pstate := rfl
@[simp] theorem putResult_txCnt (v : Result) (s : State) : (putResult v s).txCnt = s.txCnt := rfl
@[simp] theorem putResult_txLen (v : Result) (s : State) : (putResult v s).txLen = s.txLen := rfl
@[simp] theorem putResult_rxCnt (v : Result) (s : State) : (putResult v s).rxCnt = s.rxCnt := rfl
@[simp] theorem putResult_rxNeed (v : Result) (s : State) : (putResult v s).rxNeed = s.rxNeed := rfl
@[simp] theorem putResult_busy (v : Result) (s : State) : (putResult v s).busy = s.busy := rfl
@[simp] theorem putResult_txActive (v : Result) (s : State) :
    (putResult v s).txActive = s.txActive := rfl
@[simp] theorem putResult_ivRxValid (v : Result) (s : State) :
    (putResult v s).ivRxValid = s.ivRxValid := rfl
@[simp] theorem putResult_ivTxValid (v : Result) (s : State) :
    (putResult v s).ivTxValid = s.ivTxValid := rfl
@[simp] theorem putResult_resultValid (v : Result) (s : State) :
    (putResult v s).resultValid = true := rfl
@[simp] theorem putResult_cmdErr (v : Result) (s : State) : (putResult v s).cmdErr = s.cmdErr := rfl
@[simp] theorem putResult_coutKind (v : Result) (s : State) :
    (putResult v s).coutKind = s.coutKind := rfl
@[simp] theorem putResult_errReason (v : Result) (s : State) :
    (putResult v s).errReason = s.errReason := rfl
@[simp] theorem putResult_errCause (v : Result) (s : State) :
    (putResult v s).errCause = s.errCause := rfl
@[simp] theorem putResult_unitCause (v : Result) (s : State) :
    (putResult v s).unitCause = s.unitCause := rfl
@[simp] theorem putResult_verdict (v : Result) (s : State) :
    (putResult v s).verdict = s.verdict := rfl
@[simp] theorem putResult_cinLen (v : Result) (s : State) : (putResult v s).cinLen = s.cinLen := rfl
@[simp] theorem putResult_coutLen (v : Result) (s : State) :
    (putResult v s).coutLen = s.coutLen := rfl
@[simp] theorem putResult_unameSrcLen (v : Result) (s : State) :
    (putResult v s).unameSrcLen = s.unameSrcLen := rfl
@[simp] theorem putResult_mem (v : Result) (s : State) : (putResult v s).mem = s.mem := rfl
@[simp] theorem putResult_txStream (v : Result) (s : State) :
    (putResult v s).txStream = s.txStream := rfl
@[simp] theorem putResult_rxStream (v : Result) (s : State) :
    (putResult v s).rxStream = s.rxStream := rfl
@[simp] theorem putResult_txEvents (v : Result) (s : State) :
    (putResult v s).txEvents = s.txEvents := rfl
@[simp] theorem putResult_hostQueue (v : Result) (s : State) :
    (putResult v s).hostQueue = s.hostQueue := rfl
@[simp] theorem putResult_turns (v : Result) (s : State) : (putResult v s).turns = s.turns := rfl
@[simp] theorem putResult_lastRead (v : Result) (s : State) :
    (putResult v s).lastRead = s.lastRead := rfl
@[simp] theorem putResult_draws (v : Result) (s : State) : (putResult v s).draws = s.draws := rfl

@[simp] theorem dropResult_op (s : State) : (dropResult s).op = s.op := rfl
@[simp] theorem dropResult_left (s : State) : (dropResult s).left = s.left := rfl
@[simp] theorem dropResult_right (s : State) : (dropResult s).right = s.right := rfl
@[simp] theorem dropResult_result (s : State) : (dropResult s).result = none := rfl
@[simp] theorem dropResult_pstate (s : State) : (dropResult s).pstate = s.pstate := rfl
@[simp] theorem dropResult_txCnt (s : State) : (dropResult s).txCnt = s.txCnt := rfl
@[simp] theorem dropResult_txLen (s : State) : (dropResult s).txLen = s.txLen := rfl
@[simp] theorem dropResult_rxCnt (s : State) : (dropResult s).rxCnt = s.rxCnt := rfl
@[simp] theorem dropResult_rxNeed (s : State) : (dropResult s).rxNeed = s.rxNeed := rfl
@[simp] theorem dropResult_busy (s : State) : (dropResult s).busy = s.busy := rfl
@[simp] theorem dropResult_txActive (s : State) : (dropResult s).txActive = s.txActive := rfl
@[simp] theorem dropResult_ivRxValid (s : State) : (dropResult s).ivRxValid = s.ivRxValid := rfl
@[simp] theorem dropResult_ivTxValid (s : State) : (dropResult s).ivTxValid = s.ivTxValid := rfl
@[simp] theorem dropResult_resultValid (s : State) : (dropResult s).resultValid = false := rfl
@[simp] theorem dropResult_cmdErr (s : State) : (dropResult s).cmdErr = s.cmdErr := rfl
@[simp] theorem dropResult_coutKind (s : State) : (dropResult s).coutKind = s.coutKind := rfl
@[simp] theorem dropResult_errReason (s : State) : (dropResult s).errReason = s.errReason := rfl
@[simp] theorem dropResult_errCause (s : State) : (dropResult s).errCause = s.errCause := rfl
@[simp] theorem dropResult_unitCause (s : State) : (dropResult s).unitCause = s.unitCause := rfl
@[simp] theorem dropResult_verdict (s : State) : (dropResult s).verdict = s.verdict := rfl
@[simp] theorem dropResult_cinLen (s : State) : (dropResult s).cinLen = s.cinLen := rfl
@[simp] theorem dropResult_coutLen (s : State) : (dropResult s).coutLen = s.coutLen := rfl
@[simp] theorem dropResult_unameSrcLen (s : State) :
    (dropResult s).unameSrcLen = s.unameSrcLen := rfl
@[simp] theorem dropResult_mem (s : State) : (dropResult s).mem = s.mem := rfl
@[simp] theorem dropResult_txStream (s : State) : (dropResult s).txStream = s.txStream := rfl
@[simp] theorem dropResult_rxStream (s : State) : (dropResult s).rxStream = s.rxStream := rfl
@[simp] theorem dropResult_txEvents (s : State) : (dropResult s).txEvents = s.txEvents := rfl
@[simp] theorem dropResult_hostQueue (s : State) : (dropResult s).hostQueue = s.hostQueue := rfl
@[simp] theorem dropResult_turns (s : State) : (dropResult s).turns = s.turns := rfl
@[simp] theorem dropResult_lastRead (s : State) : (dropResult s).lastRead = s.lastRead := rfl
@[simp] theorem dropResult_draws (s : State) : (dropResult s).draws = s.draws := rfl

@[simp] theorem dropOutput_op (s : State) : (dropOutput s).op = s.op := rfl
@[simp] theorem dropOutput_left (s : State) : (dropOutput s).left = s.left := rfl
@[simp] theorem dropOutput_right (s : State) : (dropOutput s).right = s.right := rfl
@[simp] theorem dropOutput_result (s : State) : (dropOutput s).result = s.result := rfl
@[simp] theorem dropOutput_pstate (s : State) : (dropOutput s).pstate = s.pstate := rfl
@[simp] theorem dropOutput_txCnt (s : State) : (dropOutput s).txCnt = s.txCnt := rfl
@[simp] theorem dropOutput_txLen (s : State) : (dropOutput s).txLen = s.txLen := rfl
@[simp] theorem dropOutput_rxCnt (s : State) : (dropOutput s).rxCnt = s.rxCnt := rfl
@[simp] theorem dropOutput_rxNeed (s : State) : (dropOutput s).rxNeed = s.rxNeed := rfl
@[simp] theorem dropOutput_busy (s : State) : (dropOutput s).busy = s.busy := rfl
@[simp] theorem dropOutput_txActive (s : State) : (dropOutput s).txActive = s.txActive := rfl
@[simp] theorem dropOutput_ivRxValid (s : State) : (dropOutput s).ivRxValid = s.ivRxValid := rfl
@[simp] theorem dropOutput_ivTxValid (s : State) : (dropOutput s).ivTxValid = s.ivTxValid := rfl
@[simp] theorem dropOutput_resultValid (s : State) :
    (dropOutput s).resultValid = s.resultValid := rfl
@[simp] theorem dropOutput_cmdErr (s : State) : (dropOutput s).cmdErr = s.cmdErr := rfl
@[simp] theorem dropOutput_coutKind (s : State) : (dropOutput s).coutKind = .none := rfl
@[simp] theorem dropOutput_errReason (s : State) : (dropOutput s).errReason = s.errReason := rfl
@[simp] theorem dropOutput_errCause (s : State) : (dropOutput s).errCause = s.errCause := rfl
@[simp] theorem dropOutput_unitCause (s : State) : (dropOutput s).unitCause = s.unitCause := rfl
@[simp] theorem dropOutput_verdict (s : State) : (dropOutput s).verdict = s.verdict := rfl
@[simp] theorem dropOutput_cinLen (s : State) : (dropOutput s).cinLen = s.cinLen := rfl
@[simp] theorem dropOutput_coutLen (s : State) : (dropOutput s).coutLen = 0 := rfl
@[simp] theorem dropOutput_unameSrcLen (s : State) :
    (dropOutput s).unameSrcLen = s.unameSrcLen := rfl
@[simp] theorem dropOutput_mem (s : State) : (dropOutput s).mem = s.mem := rfl
@[simp] theorem dropOutput_txStream (s : State) : (dropOutput s).txStream = s.txStream := rfl
@[simp] theorem dropOutput_rxStream (s : State) : (dropOutput s).rxStream = s.rxStream := rfl
@[simp] theorem dropOutput_txEvents (s : State) : (dropOutput s).txEvents = s.txEvents := rfl
@[simp] theorem dropOutput_hostQueue (s : State) : (dropOutput s).hostQueue = s.hostQueue := rfl
@[simp] theorem dropOutput_turns (s : State) : (dropOutput s).turns = s.turns := rfl
@[simp] theorem dropOutput_lastRead (s : State) : (dropOutput s).lastRead = s.lastRead := rfl
@[simp] theorem dropOutput_draws (s : State) : (dropOutput s).draws = s.draws := rfl

@[simp] theorem putRequest_op (u : Bytes) (s : State) : (putRequest u s).op = s.op := rfl
@[simp] theorem putRequest_left (u : Bytes) (s : State) : (putRequest u s).left = s.left := rfl
@[simp] theorem putRequest_right (u : Bytes) (s : State) : (putRequest u s).right = s.right := rfl
@[simp] theorem putRequest_result (u : Bytes) (s : State) :
    (putRequest u s).result = s.result := rfl
@[simp] theorem putRequest_pstate (u : Bytes) (s : State) :
    (putRequest u s).pstate = s.pstate := rfl
@[simp] theorem putRequest_txCnt (u : Bytes) (s : State) : (putRequest u s).txCnt = s.txCnt := rfl
@[simp] theorem putRequest_txLen (u : Bytes) (s : State) : (putRequest u s).txLen = 19 := rfl
@[simp] theorem putRequest_rxCnt (u : Bytes) (s : State) : (putRequest u s).rxCnt = s.rxCnt := rfl
@[simp] theorem putRequest_rxNeed (u : Bytes) (s : State) :
    (putRequest u s).rxNeed = s.rxNeed := rfl
@[simp] theorem putRequest_busy (u : Bytes) (s : State) : (putRequest u s).busy = s.busy := rfl
@[simp] theorem putRequest_txActive (u : Bytes) (s : State) :
    (putRequest u s).txActive = s.txActive := rfl
@[simp] theorem putRequest_ivRxValid (u : Bytes) (s : State) :
    (putRequest u s).ivRxValid = s.ivRxValid := rfl
@[simp] theorem putRequest_ivTxValid (u : Bytes) (s : State) :
    (putRequest u s).ivTxValid = s.ivTxValid := rfl
@[simp] theorem putRequest_resultValid (u : Bytes) (s : State) :
    (putRequest u s).resultValid = s.resultValid := rfl
@[simp] theorem putRequest_cmdErr (u : Bytes) (s : State) :
    (putRequest u s).cmdErr = s.cmdErr := rfl
@[simp] theorem putRequest_coutKind (u : Bytes) (s : State) :
    (putRequest u s).coutKind = s.coutKind := rfl
@[simp] theorem putRequest_errReason (u : Bytes) (s : State) :
    (putRequest u s).errReason = s.errReason := rfl
@[simp] theorem putRequest_errCause (u : Bytes) (s : State) :
    (putRequest u s).errCause = s.errCause := rfl
@[simp] theorem putRequest_unitCause (u : Bytes) (s : State) :
    (putRequest u s).unitCause = s.unitCause := rfl
@[simp] theorem putRequest_verdict (u : Bytes) (s : State) :
    (putRequest u s).verdict = s.verdict := rfl
@[simp] theorem putRequest_cinLen (u : Bytes) (s : State) :
    (putRequest u s).cinLen = s.cinLen := rfl
@[simp] theorem putRequest_coutLen (u : Bytes) (s : State) :
    (putRequest u s).coutLen = s.coutLen := rfl
@[simp] theorem putRequest_unameSrcLen (u : Bytes) (s : State) :
    (putRequest u s).unameSrcLen = s.unameSrcLen := rfl
@[simp] theorem putRequest_mem (u : Bytes) (s : State) :
    (putRequest u s).mem = s.mem.writeRange (Space.txbuf.addr 0) (shortFrameBytes code105 u) := rfl
@[simp] theorem putRequest_txStream (u : Bytes) (s : State) :
    (putRequest u s).txStream = s.txStream := rfl
@[simp] theorem putRequest_rxStream (u : Bytes) (s : State) :
    (putRequest u s).rxStream = s.rxStream := rfl
@[simp] theorem putRequest_txEvents (u : Bytes) (s : State) :
    (putRequest u s).txEvents = s.txEvents := rfl
@[simp] theorem putRequest_hostQueue (u : Bytes) (s : State) :
    (putRequest u s).hostQueue = s.hostQueue := rfl
@[simp] theorem putRequest_turns (u : Bytes) (s : State) : (putRequest u s).turns = s.turns := rfl
@[simp] theorem putRequest_lastRead (u : Bytes) (s : State) :
    (putRequest u s).lastRead = s.lastRead := rfl
@[simp] theorem putRequest_draws (u : Bytes) (s : State) : (putRequest u s).draws = s.draws := rfl

@[simp] theorem putResponse_op (u iv : Bytes) (n : BitVec 32) (p : Bytes) (s : State) :
    (putResponse u iv n p s).op = s.op := rfl
@[simp] theorem putResponse_left (u iv : Bytes) (n : BitVec 32) (p : Bytes) (s : State) :
    (putResponse u iv n p s).left = s.left := rfl
@[simp] theorem putResponse_right (u iv : Bytes) (n : BitVec 32) (p : Bytes) (s : State) :
    (putResponse u iv n p s).right = s.right := rfl
@[simp] theorem putResponse_result (u iv : Bytes) (n : BitVec 32) (p : Bytes) (s : State) :
    (putResponse u iv n p s).result = s.result := rfl
@[simp] theorem putResponse_pstate (u iv : Bytes) (n : BitVec 32) (p : Bytes) (s : State) :
    (putResponse u iv n p s).pstate = s.pstate := rfl
@[simp] theorem putResponse_txCnt (u iv : Bytes) (n : BitVec 32) (p : Bytes) (s : State) :
    (putResponse u iv n p s).txCnt = s.txCnt := rfl
@[simp] theorem putResponse_txLen (u iv : Bytes) (n : BitVec 32) (p : Bytes) (s : State) :
    (putResponse u iv n p s).txLen = 167 := rfl
@[simp] theorem putResponse_rxCnt (u iv : Bytes) (n : BitVec 32) (p : Bytes) (s : State) :
    (putResponse u iv n p s).rxCnt = s.rxCnt := rfl
@[simp] theorem putResponse_rxNeed (u iv : Bytes) (n : BitVec 32) (p : Bytes) (s : State) :
    (putResponse u iv n p s).rxNeed = s.rxNeed := rfl
@[simp] theorem putResponse_busy (u iv : Bytes) (n : BitVec 32) (p : Bytes) (s : State) :
    (putResponse u iv n p s).busy = s.busy := rfl
@[simp] theorem putResponse_txActive (u iv : Bytes) (n : BitVec 32) (p : Bytes) (s : State) :
    (putResponse u iv n p s).txActive = s.txActive := rfl
@[simp] theorem putResponse_ivRxValid (u iv : Bytes) (n : BitVec 32) (p : Bytes) (s : State) :
    (putResponse u iv n p s).ivRxValid = s.ivRxValid := rfl
@[simp] theorem putResponse_ivTxValid (u iv : Bytes) (n : BitVec 32) (p : Bytes) (s : State) :
    (putResponse u iv n p s).ivTxValid = false := rfl
@[simp] theorem putResponse_resultValid (u iv : Bytes) (n : BitVec 32) (p : Bytes) (s : State) :
    (putResponse u iv n p s).resultValid = s.resultValid := rfl
@[simp] theorem putResponse_cmdErr (u iv : Bytes) (n : BitVec 32) (p : Bytes) (s : State) :
    (putResponse u iv n p s).cmdErr = s.cmdErr := rfl
@[simp] theorem putResponse_coutKind (u iv : Bytes) (n : BitVec 32) (p : Bytes) (s : State) :
    (putResponse u iv n p s).coutKind = .none := rfl
@[simp] theorem putResponse_errReason (u iv : Bytes) (n : BitVec 32) (p : Bytes) (s : State) :
    (putResponse u iv n p s).errReason = s.errReason := rfl
@[simp] theorem putResponse_errCause (u iv : Bytes) (n : BitVec 32) (p : Bytes) (s : State) :
    (putResponse u iv n p s).errCause = s.errCause := rfl
@[simp] theorem putResponse_unitCause (u iv : Bytes) (n : BitVec 32) (p : Bytes) (s : State) :
    (putResponse u iv n p s).unitCause = s.unitCause := rfl
@[simp] theorem putResponse_verdict (u iv : Bytes) (n : BitVec 32) (p : Bytes) (s : State) :
    (putResponse u iv n p s).verdict = s.verdict := rfl
@[simp] theorem putResponse_cinLen (u iv : Bytes) (n : BitVec 32) (p : Bytes) (s : State) :
    (putResponse u iv n p s).cinLen = s.cinLen := rfl
@[simp] theorem putResponse_coutLen (u iv : Bytes) (n : BitVec 32) (p : Bytes) (s : State) :
    (putResponse u iv n p s).coutLen = s.coutLen := rfl
@[simp] theorem putResponse_unameSrcLen (u iv : Bytes) (n : BitVec 32) (p : Bytes) (s : State) :
    (putResponse u iv n p s).unameSrcLen = s.unameSrcLen := rfl
@[simp] theorem putResponse_mem (u iv : Bytes) (n : BitVec 32) (p : Bytes) (s : State) :
    (putResponse u iv n p s).mem = s.mem.writeRange (Space.txbuf.addr 0) (longFrameBytes code115 u iv n p) := rfl
@[simp] theorem putResponse_txStream (u iv : Bytes) (n : BitVec 32) (p : Bytes) (s : State) :
    (putResponse u iv n p s).txStream = s.txStream := rfl
@[simp] theorem putResponse_rxStream (u iv : Bytes) (n : BitVec 32) (p : Bytes) (s : State) :
    (putResponse u iv n p s).rxStream = s.rxStream := rfl
@[simp] theorem putResponse_txEvents (u iv : Bytes) (n : BitVec 32) (p : Bytes) (s : State) :
    (putResponse u iv n p s).txEvents = s.txEvents := rfl
@[simp] theorem putResponse_hostQueue (u iv : Bytes) (n : BitVec 32) (p : Bytes) (s : State) :
    (putResponse u iv n p s).hostQueue = s.hostQueue := rfl
@[simp] theorem putResponse_turns (u iv : Bytes) (n : BitVec 32) (p : Bytes) (s : State) :
    (putResponse u iv n p s).turns = s.turns := rfl
@[simp] theorem putResponse_lastRead (u iv : Bytes) (n : BitVec 32) (p : Bytes) (s : State) :
    (putResponse u iv n p s).lastRead = s.lastRead := rfl
@[simp] theorem putResponse_draws (u iv : Bytes) (n : BitVec 32) (p : Bytes) (s : State) :
    (putResponse u iv n p s).draws = s.draws := rfl

@[simp] theorem extractChallenge_op (iv ct : Bytes) (s : State) :
    (extractChallenge iv ct s).op = s.op := rfl
@[simp] theorem extractChallenge_left (iv ct : Bytes) (s : State) :
    (extractChallenge iv ct s).left = s.left := rfl
@[simp] theorem extractChallenge_right (iv ct : Bytes) (s : State) :
    (extractChallenge iv ct s).right = s.right := rfl
@[simp] theorem extractChallenge_result (iv ct : Bytes) (s : State) :
    (extractChallenge iv ct s).result = s.result := rfl
@[simp] theorem extractChallenge_pstate (iv ct : Bytes) (s : State) :
    (extractChallenge iv ct s).pstate = s.pstate := rfl
@[simp] theorem extractChallenge_txCnt (iv ct : Bytes) (s : State) :
    (extractChallenge iv ct s).txCnt = s.txCnt := rfl
@[simp] theorem extractChallenge_txLen (iv ct : Bytes) (s : State) :
    (extractChallenge iv ct s).txLen = s.txLen := rfl
@[simp] theorem extractChallenge_rxCnt (iv ct : Bytes) (s : State) :
    (extractChallenge iv ct s).rxCnt = s.rxCnt := rfl
@[simp] theorem extractChallenge_rxNeed (iv ct : Bytes) (s : State) :
    (extractChallenge iv ct s).rxNeed = s.rxNeed := rfl
@[simp] theorem extractChallenge_busy (iv ct : Bytes) (s : State) :
    (extractChallenge iv ct s).busy = s.busy := rfl
@[simp] theorem extractChallenge_txActive (iv ct : Bytes) (s : State) :
    (extractChallenge iv ct s).txActive = s.txActive := rfl
@[simp] theorem extractChallenge_ivRxValid (iv ct : Bytes) (s : State) :
    (extractChallenge iv ct s).ivRxValid = true := rfl
@[simp] theorem extractChallenge_ivTxValid (iv ct : Bytes) (s : State) :
    (extractChallenge iv ct s).ivTxValid = s.ivTxValid := rfl
@[simp] theorem extractChallenge_resultValid (iv ct : Bytes) (s : State) :
    (extractChallenge iv ct s).resultValid = s.resultValid := rfl
@[simp] theorem extractChallenge_cmdErr (iv ct : Bytes) (s : State) :
    (extractChallenge iv ct s).cmdErr = s.cmdErr := rfl
@[simp] theorem extractChallenge_coutKind (iv ct : Bytes) (s : State) :
    (extractChallenge iv ct s).coutKind = s.coutKind := rfl
@[simp] theorem extractChallenge_errReason (iv ct : Bytes) (s : State) :
    (extractChallenge iv ct s).errReason = s.errReason := rfl
@[simp] theorem extractChallenge_errCause (iv ct : Bytes) (s : State) :
    (extractChallenge iv ct s).errCause = s.errCause := rfl
@[simp] theorem extractChallenge_unitCause (iv ct : Bytes) (s : State) :
    (extractChallenge iv ct s).unitCause = s.unitCause := rfl
@[simp] theorem extractChallenge_verdict (iv ct : Bytes) (s : State) :
    (extractChallenge iv ct s).verdict = s.verdict := rfl
@[simp] theorem extractChallenge_cinLen (iv ct : Bytes) (s : State) :
    (extractChallenge iv ct s).cinLen = some (BitVec.ofNat 8 ct.length) := rfl
@[simp] theorem extractChallenge_coutLen (iv ct : Bytes) (s : State) :
    (extractChallenge iv ct s).coutLen = s.coutLen := rfl
@[simp] theorem extractChallenge_unameSrcLen (iv ct : Bytes) (s : State) :
    (extractChallenge iv ct s).unameSrcLen = s.unameSrcLen := rfl
@[simp] theorem extractChallenge_mem (iv ct : Bytes) (s : State) :
    (extractChallenge iv ct s).mem = (s.mem.writeRange (Space.ivRx.addr 0) iv).writeRange (Space.cin.addr 0) ct := rfl
@[simp] theorem extractChallenge_txStream (iv ct : Bytes) (s : State) :
    (extractChallenge iv ct s).txStream = s.txStream := rfl
@[simp] theorem extractChallenge_rxStream (iv ct : Bytes) (s : State) :
    (extractChallenge iv ct s).rxStream = s.rxStream := rfl
@[simp] theorem extractChallenge_txEvents (iv ct : Bytes) (s : State) :
    (extractChallenge iv ct s).txEvents = s.txEvents := rfl
@[simp] theorem extractChallenge_hostQueue (iv ct : Bytes) (s : State) :
    (extractChallenge iv ct s).hostQueue = s.hostQueue := rfl
@[simp] theorem extractChallenge_turns (iv ct : Bytes) (s : State) :
    (extractChallenge iv ct s).turns = s.turns := rfl
@[simp] theorem extractChallenge_lastRead (iv ct : Bytes) (s : State) :
    (extractChallenge iv ct s).lastRead = s.lastRead := rfl
@[simp] theorem extractChallenge_draws (iv ct : Bytes) (s : State) :
    (extractChallenge iv ct s).draws = s.draws := rfl

@[simp] theorem putVerdict_op (v : Verdict) (s : State) : (putVerdict v s).op = s.op := rfl
@[simp] theorem putVerdict_left (v : Verdict) (s : State) : (putVerdict v s).left = s.left := rfl
@[simp] theorem putVerdict_right (v : Verdict) (s : State) : (putVerdict v s).right = s.right := rfl
@[simp] theorem putVerdict_result (v : Verdict) (s : State) :
    (putVerdict v s).result = s.result := rfl
@[simp] theorem putVerdict_pstate (v : Verdict) (s : State) :
    (putVerdict v s).pstate = s.pstate := rfl
@[simp] theorem putVerdict_txCnt (v : Verdict) (s : State) : (putVerdict v s).txCnt = s.txCnt := rfl
@[simp] theorem putVerdict_txLen (v : Verdict) (s : State) : (putVerdict v s).txLen = s.txLen := rfl
@[simp] theorem putVerdict_rxCnt (v : Verdict) (s : State) : (putVerdict v s).rxCnt = s.rxCnt := rfl
@[simp] theorem putVerdict_rxNeed (v : Verdict) (s : State) :
    (putVerdict v s).rxNeed = s.rxNeed := rfl
@[simp] theorem putVerdict_busy (v : Verdict) (s : State) : (putVerdict v s).busy = s.busy := rfl
@[simp] theorem putVerdict_txActive (v : Verdict) (s : State) :
    (putVerdict v s).txActive = s.txActive := rfl
@[simp] theorem putVerdict_ivRxValid (v : Verdict) (s : State) :
    (putVerdict v s).ivRxValid = s.ivRxValid := rfl
@[simp] theorem putVerdict_ivTxValid (v : Verdict) (s : State) :
    (putVerdict v s).ivTxValid = s.ivTxValid := rfl
@[simp] theorem putVerdict_resultValid (v : Verdict) (s : State) :
    (putVerdict v s).resultValid = s.resultValid := rfl
@[simp] theorem putVerdict_cmdErr (v : Verdict) (s : State) :
    (putVerdict v s).cmdErr = s.cmdErr := rfl
@[simp] theorem putVerdict_coutKind (v : Verdict) (s : State) :
    (putVerdict v s).coutKind = s.coutKind := rfl
@[simp] theorem putVerdict_errReason (v : Verdict) (s : State) :
    (putVerdict v s).errReason = s.errReason := rfl
@[simp] theorem putVerdict_errCause (v : Verdict) (s : State) :
    (putVerdict v s).errCause = s.errCause := rfl
@[simp] theorem putVerdict_unitCause (v : Verdict) (s : State) :
    (putVerdict v s).unitCause = s.unitCause := rfl
@[simp] theorem putVerdict_verdict (v : Verdict) (s : State) : (putVerdict v s).verdict = v := rfl
@[simp] theorem putVerdict_cinLen (v : Verdict) (s : State) :
    (putVerdict v s).cinLen = s.cinLen := rfl
@[simp] theorem putVerdict_coutLen (v : Verdict) (s : State) :
    (putVerdict v s).coutLen = s.coutLen := rfl
@[simp] theorem putVerdict_unameSrcLen (v : Verdict) (s : State) :
    (putVerdict v s).unameSrcLen = s.unameSrcLen := rfl
@[simp] theorem putVerdict_mem (v : Verdict) (s : State) : (putVerdict v s).mem = s.mem := rfl
@[simp] theorem putVerdict_txStream (v : Verdict) (s : State) :
    (putVerdict v s).txStream = s.txStream := rfl
@[simp] theorem putVerdict_rxStream (v : Verdict) (s : State) :
    (putVerdict v s).rxStream = s.rxStream := rfl
@[simp] theorem putVerdict_txEvents (v : Verdict) (s : State) :
    (putVerdict v s).txEvents = s.txEvents := rfl
@[simp] theorem putVerdict_hostQueue (v : Verdict) (s : State) :
    (putVerdict v s).hostQueue = s.hostQueue := rfl
@[simp] theorem putVerdict_turns (v : Verdict) (s : State) : (putVerdict v s).turns = s.turns := rfl
@[simp] theorem putVerdict_lastRead (v : Verdict) (s : State) :
    (putVerdict v s).lastRead = s.lastRead := rfl
@[simp] theorem putVerdict_draws (v : Verdict) (s : State) : (putVerdict v s).draws = s.draws := rfl

@[simp] theorem startSending_op (s : State) : (startSending s).op = s.op := rfl
@[simp] theorem startSending_left (s : State) : (startSending s).left = s.left := rfl
@[simp] theorem startSending_right (s : State) : (startSending s).right = s.right := rfl
@[simp] theorem startSending_result (s : State) : (startSending s).result = s.result := rfl
@[simp] theorem startSending_pstate (s : State) : (startSending s).pstate = s.pstate := rfl
@[simp] theorem startSending_txCnt (s : State) : (startSending s).txCnt = 0 := rfl
@[simp] theorem startSending_txLen (s : State) : (startSending s).txLen = s.txLen := rfl
@[simp] theorem startSending_rxCnt (s : State) : (startSending s).rxCnt = s.rxCnt := rfl
@[simp] theorem startSending_rxNeed (s : State) : (startSending s).rxNeed = s.rxNeed := rfl
@[simp] theorem startSending_busy (s : State) : (startSending s).busy = s.busy := rfl
@[simp] theorem startSending_txActive (s : State) : (startSending s).txActive = true := rfl
@[simp] theorem startSending_ivRxValid (s : State) : (startSending s).ivRxValid = s.ivRxValid := rfl
@[simp] theorem startSending_ivTxValid (s : State) : (startSending s).ivTxValid = s.ivTxValid := rfl
@[simp] theorem startSending_resultValid (s : State) :
    (startSending s).resultValid = s.resultValid := rfl
@[simp] theorem startSending_cmdErr (s : State) : (startSending s).cmdErr = s.cmdErr := rfl
@[simp] theorem startSending_coutKind (s : State) : (startSending s).coutKind = s.coutKind := rfl
@[simp] theorem startSending_errReason (s : State) : (startSending s).errReason = s.errReason := rfl
@[simp] theorem startSending_errCause (s : State) : (startSending s).errCause = s.errCause := rfl
@[simp] theorem startSending_unitCause (s : State) : (startSending s).unitCause = s.unitCause := rfl
@[simp] theorem startSending_verdict (s : State) : (startSending s).verdict = s.verdict := rfl
@[simp] theorem startSending_cinLen (s : State) : (startSending s).cinLen = s.cinLen := rfl
@[simp] theorem startSending_coutLen (s : State) : (startSending s).coutLen = s.coutLen := rfl
@[simp] theorem startSending_unameSrcLen (s : State) :
    (startSending s).unameSrcLen = s.unameSrcLen := rfl
@[simp] theorem startSending_mem (s : State) : (startSending s).mem = s.mem := rfl
@[simp] theorem startSending_txStream (s : State) : (startSending s).txStream = s.txStream := rfl
@[simp] theorem startSending_rxStream (s : State) : (startSending s).rxStream = s.rxStream := rfl
@[simp] theorem startSending_txEvents (s : State) : (startSending s).txEvents = s.txEvents := rfl
@[simp] theorem startSending_hostQueue (s : State) : (startSending s).hostQueue = s.hostQueue := rfl
@[simp] theorem startSending_turns (s : State) : (startSending s).turns = s.turns := rfl
@[simp] theorem startSending_lastRead (s : State) : (startSending s).lastRead = s.lastRead := rfl
@[simp] theorem startSending_draws (s : State) : (startSending s).draws = s.draws := rfl

@[simp] theorem endSession_op (p : PState) (s : State) : (endSession p s).op = s.op := rfl
@[simp] theorem endSession_left (p : PState) (s : State) : (endSession p s).left = s.left := rfl
@[simp] theorem endSession_right (p : PState) (s : State) : (endSession p s).right = s.right := rfl
@[simp] theorem endSession_result (p : PState) (s : State) :
    (endSession p s).result = s.result := rfl
@[simp] theorem endSession_pstate (p : PState) (s : State) : (endSession p s).pstate = p := rfl
@[simp] theorem endSession_txCnt (p : PState) (s : State) : (endSession p s).txCnt = s.txCnt := rfl
@[simp] theorem endSession_txLen (p : PState) (s : State) : (endSession p s).txLen = s.txLen := rfl
@[simp] theorem endSession_rxCnt (p : PState) (s : State) : (endSession p s).rxCnt = s.rxCnt := rfl
@[simp] theorem endSession_rxNeed (p : PState) (s : State) :
    (endSession p s).rxNeed = s.rxNeed := rfl
@[simp] theorem endSession_busy (p : PState) (s : State) : (endSession p s).busy = false := rfl
@[simp] theorem endSession_txActive (p : PState) (s : State) :
    (endSession p s).txActive = false := rfl
@[simp] theorem endSession_ivRxValid (p : PState) (s : State) :
    (endSession p s).ivRxValid = s.ivRxValid := rfl
@[simp] theorem endSession_ivTxValid (p : PState) (s : State) :
    (endSession p s).ivTxValid = s.ivTxValid := rfl
@[simp] theorem endSession_resultValid (p : PState) (s : State) :
    (endSession p s).resultValid = s.resultValid := rfl
@[simp] theorem endSession_cmdErr (p : PState) (s : State) :
    (endSession p s).cmdErr = s.cmdErr := rfl
@[simp] theorem endSession_coutKind (p : PState) (s : State) :
    (endSession p s).coutKind = s.coutKind := rfl
@[simp] theorem endSession_errReason (p : PState) (s : State) :
    (endSession p s).errReason = s.errReason := rfl
@[simp] theorem endSession_errCause (p : PState) (s : State) :
    (endSession p s).errCause = s.errCause := rfl
@[simp] theorem endSession_unitCause (p : PState) (s : State) :
    (endSession p s).unitCause = s.unitCause := rfl
@[simp] theorem endSession_verdict (p : PState) (s : State) :
    (endSession p s).verdict = s.verdict := rfl
@[simp] theorem endSession_cinLen (p : PState) (s : State) :
    (endSession p s).cinLen = s.cinLen := rfl
@[simp] theorem endSession_coutLen (p : PState) (s : State) :
    (endSession p s).coutLen = s.coutLen := rfl
@[simp] theorem endSession_unameSrcLen (p : PState) (s : State) :
    (endSession p s).unameSrcLen = s.unameSrcLen := rfl
@[simp] theorem endSession_mem (p : PState) (s : State) : (endSession p s).mem = s.mem := rfl
@[simp] theorem endSession_txStream (p : PState) (s : State) :
    (endSession p s).txStream = s.txStream := rfl
@[simp] theorem endSession_rxStream (p : PState) (s : State) :
    (endSession p s).rxStream = s.rxStream := rfl
@[simp] theorem endSession_txEvents (p : PState) (s : State) :
    (endSession p s).txEvents = s.txEvents := rfl
@[simp] theorem endSession_hostQueue (p : PState) (s : State) :
    (endSession p s).hostQueue = s.hostQueue := rfl
@[simp] theorem endSession_turns (p : PState) (s : State) : (endSession p s).turns = s.turns := rfl
@[simp] theorem endSession_lastRead (p : PState) (s : State) :
    (endSession p s).lastRead = s.lastRead := rfl
@[simp] theorem endSession_draws (p : PState) (s : State) : (endSession p s).draws = s.draws := rfl

@[simp] theorem putRxByte_op (b : Byte) (s : State) : (putRxByte b s).op = s.op := rfl
@[simp] theorem putRxByte_left (b : Byte) (s : State) : (putRxByte b s).left = s.left := rfl
@[simp] theorem putRxByte_right (b : Byte) (s : State) : (putRxByte b s).right = s.right := rfl
@[simp] theorem putRxByte_result (b : Byte) (s : State) : (putRxByte b s).result = s.result := rfl
@[simp] theorem putRxByte_pstate (b : Byte) (s : State) : (putRxByte b s).pstate = s.pstate := rfl
@[simp] theorem putRxByte_txCnt (b : Byte) (s : State) : (putRxByte b s).txCnt = s.txCnt := rfl
@[simp] theorem putRxByte_txLen (b : Byte) (s : State) : (putRxByte b s).txLen = s.txLen := rfl
@[simp] theorem putRxByte_rxCnt (b : Byte) (s : State) : (putRxByte b s).rxCnt = s.rxCnt + 1 := rfl
@[simp] theorem putRxByte_rxNeed (b : Byte) (s : State) : (putRxByte b s).rxNeed = s.rxNeed := rfl
@[simp] theorem putRxByte_busy (b : Byte) (s : State) : (putRxByte b s).busy = s.busy := rfl
@[simp] theorem putRxByte_txActive (b : Byte) (s : State) :
    (putRxByte b s).txActive = s.txActive := rfl
@[simp] theorem putRxByte_ivRxValid (b : Byte) (s : State) :
    (putRxByte b s).ivRxValid = s.ivRxValid := rfl
@[simp] theorem putRxByte_ivTxValid (b : Byte) (s : State) :
    (putRxByte b s).ivTxValid = s.ivTxValid := rfl
@[simp] theorem putRxByte_resultValid (b : Byte) (s : State) :
    (putRxByte b s).resultValid = s.resultValid := rfl
@[simp] theorem putRxByte_cmdErr (b : Byte) (s : State) : (putRxByte b s).cmdErr = s.cmdErr := rfl
@[simp] theorem putRxByte_coutKind (b : Byte) (s : State) :
    (putRxByte b s).coutKind = s.coutKind := rfl
@[simp] theorem putRxByte_errReason (b : Byte) (s : State) :
    (putRxByte b s).errReason = s.errReason := rfl
@[simp] theorem putRxByte_errCause (b : Byte) (s : State) :
    (putRxByte b s).errCause = s.errCause := rfl
@[simp] theorem putRxByte_unitCause (b : Byte) (s : State) :
    (putRxByte b s).unitCause = s.unitCause := rfl
@[simp] theorem putRxByte_verdict (b : Byte) (s : State) :
    (putRxByte b s).verdict = s.verdict := rfl
@[simp] theorem putRxByte_cinLen (b : Byte) (s : State) : (putRxByte b s).cinLen = s.cinLen := rfl
@[simp] theorem putRxByte_coutLen (b : Byte) (s : State) :
    (putRxByte b s).coutLen = s.coutLen := rfl
@[simp] theorem putRxByte_unameSrcLen (b : Byte) (s : State) :
    (putRxByte b s).unameSrcLen = s.unameSrcLen := rfl
@[simp] theorem putRxByte_mem (b : Byte) (s : State) :
    (putRxByte b s).mem = s.mem.writeRange (Space.rxbuf.addr s.rxCnt.toNat) [b] := rfl
@[simp] theorem putRxByte_txStream (b : Byte) (s : State) :
    (putRxByte b s).txStream = s.txStream := rfl
@[simp] theorem putRxByte_rxStream (b : Byte) (s : State) :
    (putRxByte b s).rxStream = s.rxStream := rfl
@[simp] theorem putRxByte_txEvents (b : Byte) (s : State) :
    (putRxByte b s).txEvents = s.txEvents := rfl
@[simp] theorem putRxByte_hostQueue (b : Byte) (s : State) :
    (putRxByte b s).hostQueue = s.hostQueue := rfl
@[simp] theorem putRxByte_turns (b : Byte) (s : State) : (putRxByte b s).turns = s.turns := rfl
@[simp] theorem putRxByte_lastRead (b : Byte) (s : State) :
    (putRxByte b s).lastRead = s.lastRead := rfl
@[simp] theorem putRxByte_draws (b : Byte) (s : State) : (putRxByte b s).draws = s.draws := rfl

@[simp] theorem setUnitCause_op (c : Cause) (s : State) : (setUnitCause c s).op = s.op := rfl
@[simp] theorem setUnitCause_left (c : Cause) (s : State) : (setUnitCause c s).left = s.left := rfl
@[simp] theorem setUnitCause_right (c : Cause) (s : State) :
    (setUnitCause c s).right = s.right := rfl
@[simp] theorem setUnitCause_result (c : Cause) (s : State) :
    (setUnitCause c s).result = s.result := rfl
@[simp] theorem setUnitCause_pstate (c : Cause) (s : State) :
    (setUnitCause c s).pstate = s.pstate := rfl
@[simp] theorem setUnitCause_txCnt (c : Cause) (s : State) :
    (setUnitCause c s).txCnt = s.txCnt := rfl
@[simp] theorem setUnitCause_txLen (c : Cause) (s : State) :
    (setUnitCause c s).txLen = s.txLen := rfl
@[simp] theorem setUnitCause_rxCnt (c : Cause) (s : State) :
    (setUnitCause c s).rxCnt = s.rxCnt := rfl
@[simp] theorem setUnitCause_rxNeed (c : Cause) (s : State) :
    (setUnitCause c s).rxNeed = s.rxNeed := rfl
@[simp] theorem setUnitCause_busy (c : Cause) (s : State) : (setUnitCause c s).busy = s.busy := rfl
@[simp] theorem setUnitCause_txActive (c : Cause) (s : State) :
    (setUnitCause c s).txActive = s.txActive := rfl
@[simp] theorem setUnitCause_ivRxValid (c : Cause) (s : State) :
    (setUnitCause c s).ivRxValid = s.ivRxValid := rfl
@[simp] theorem setUnitCause_ivTxValid (c : Cause) (s : State) :
    (setUnitCause c s).ivTxValid = s.ivTxValid := rfl
@[simp] theorem setUnitCause_resultValid (c : Cause) (s : State) :
    (setUnitCause c s).resultValid = s.resultValid := rfl
@[simp] theorem setUnitCause_cmdErr (c : Cause) (s : State) :
    (setUnitCause c s).cmdErr = s.cmdErr := rfl
@[simp] theorem setUnitCause_coutKind (c : Cause) (s : State) :
    (setUnitCause c s).coutKind = s.coutKind := rfl
@[simp] theorem setUnitCause_errReason (c : Cause) (s : State) :
    (setUnitCause c s).errReason = s.errReason := rfl
@[simp] theorem setUnitCause_errCause (c : Cause) (s : State) :
    (setUnitCause c s).errCause = s.errCause := rfl
@[simp] theorem setUnitCause_unitCause (c : Cause) (s : State) :
    (setUnitCause c s).unitCause = c := rfl
@[simp] theorem setUnitCause_verdict (c : Cause) (s : State) :
    (setUnitCause c s).verdict = s.verdict := rfl
@[simp] theorem setUnitCause_cinLen (c : Cause) (s : State) :
    (setUnitCause c s).cinLen = s.cinLen := rfl
@[simp] theorem setUnitCause_coutLen (c : Cause) (s : State) :
    (setUnitCause c s).coutLen = s.coutLen := rfl
@[simp] theorem setUnitCause_unameSrcLen (c : Cause) (s : State) :
    (setUnitCause c s).unameSrcLen = s.unameSrcLen := rfl
@[simp] theorem setUnitCause_mem (c : Cause) (s : State) : (setUnitCause c s).mem = s.mem := rfl
@[simp] theorem setUnitCause_txStream (c : Cause) (s : State) :
    (setUnitCause c s).txStream = s.txStream := rfl
@[simp] theorem setUnitCause_rxStream (c : Cause) (s : State) :
    (setUnitCause c s).rxStream = s.rxStream := rfl
@[simp] theorem setUnitCause_txEvents (c : Cause) (s : State) :
    (setUnitCause c s).txEvents = s.txEvents := rfl
@[simp] theorem setUnitCause_hostQueue (c : Cause) (s : State) :
    (setUnitCause c s).hostQueue = s.hostQueue := rfl
@[simp] theorem setUnitCause_turns (c : Cause) (s : State) :
    (setUnitCause c s).turns = s.turns := rfl
@[simp] theorem setUnitCause_lastRead (c : Cause) (s : State) :
    (setUnitCause c s).lastRead = s.lastRead := rfl
@[simp] theorem setUnitCause_draws (c : Cause) (s : State) :
    (setUnitCause c s).draws = s.draws := rfl

@[simp] theorem clearCmdErr_op (s : State) : (clearCmdErr s).op = s.op := rfl
@[simp] theorem clearCmdErr_left (s : State) : (clearCmdErr s).left = s.left := rfl
@[simp] theorem clearCmdErr_right (s : State) : (clearCmdErr s).right = s.right := rfl
@[simp] theorem clearCmdErr_result (s : State) : (clearCmdErr s).result = s.result := rfl
@[simp] theorem clearCmdErr_pstate (s : State) : (clearCmdErr s).pstate = s.pstate := rfl
@[simp] theorem clearCmdErr_txCnt (s : State) : (clearCmdErr s).txCnt = s.txCnt := rfl
@[simp] theorem clearCmdErr_txLen (s : State) : (clearCmdErr s).txLen = s.txLen := rfl
@[simp] theorem clearCmdErr_rxCnt (s : State) : (clearCmdErr s).rxCnt = s.rxCnt := rfl
@[simp] theorem clearCmdErr_rxNeed (s : State) : (clearCmdErr s).rxNeed = s.rxNeed := rfl
@[simp] theorem clearCmdErr_busy (s : State) : (clearCmdErr s).busy = s.busy := rfl
@[simp] theorem clearCmdErr_txActive (s : State) : (clearCmdErr s).txActive = s.txActive := rfl
@[simp] theorem clearCmdErr_ivRxValid (s : State) : (clearCmdErr s).ivRxValid = s.ivRxValid := rfl
@[simp] theorem clearCmdErr_ivTxValid (s : State) : (clearCmdErr s).ivTxValid = s.ivTxValid := rfl
@[simp] theorem clearCmdErr_resultValid (s : State) :
    (clearCmdErr s).resultValid = s.resultValid := rfl
@[simp] theorem clearCmdErr_cmdErr (s : State) : (clearCmdErr s).cmdErr = false := rfl
@[simp] theorem clearCmdErr_coutKind (s : State) : (clearCmdErr s).coutKind = s.coutKind := rfl
@[simp] theorem clearCmdErr_errReason (s : State) : (clearCmdErr s).errReason = s.errReason := rfl
@[simp] theorem clearCmdErr_errCause (s : State) : (clearCmdErr s).errCause = s.errCause := rfl
@[simp] theorem clearCmdErr_unitCause (s : State) : (clearCmdErr s).unitCause = s.unitCause := rfl
@[simp] theorem clearCmdErr_verdict (s : State) : (clearCmdErr s).verdict = s.verdict := rfl
@[simp] theorem clearCmdErr_cinLen (s : State) : (clearCmdErr s).cinLen = s.cinLen := rfl
@[simp] theorem clearCmdErr_coutLen (s : State) : (clearCmdErr s).coutLen = s.coutLen := rfl
@[simp] theorem clearCmdErr_unameSrcLen (s : State) :
    (clearCmdErr s).unameSrcLen = s.unameSrcLen := rfl
@[simp] theorem clearCmdErr_mem (s : State) : (clearCmdErr s).mem = s.mem := rfl
@[simp] theorem clearCmdErr_txStream (s : State) : (clearCmdErr s).txStream = s.txStream := rfl
@[simp] theorem clearCmdErr_rxStream (s : State) : (clearCmdErr s).rxStream = s.rxStream := rfl
@[simp] theorem clearCmdErr_txEvents (s : State) : (clearCmdErr s).txEvents = s.txEvents := rfl
@[simp] theorem clearCmdErr_hostQueue (s : State) : (clearCmdErr s).hostQueue = s.hostQueue := rfl
@[simp] theorem clearCmdErr_turns (s : State) : (clearCmdErr s).turns = s.turns := rfl
@[simp] theorem clearCmdErr_lastRead (s : State) : (clearCmdErr s).lastRead = s.lastRead := rfl
@[simp] theorem clearCmdErr_draws (s : State) : (clearCmdErr s).draws = s.draws := rfl

@[simp] theorem setPState_op (p : PState) (s : State) : (setPState p s).op = s.op := rfl
@[simp] theorem setPState_left (p : PState) (s : State) : (setPState p s).left = s.left := rfl
@[simp] theorem setPState_right (p : PState) (s : State) : (setPState p s).right = s.right := rfl
@[simp] theorem setPState_result (p : PState) (s : State) : (setPState p s).result = s.result := rfl
@[simp] theorem setPState_pstate (p : PState) (s : State) : (setPState p s).pstate = p := rfl
@[simp] theorem setPState_txCnt (p : PState) (s : State) : (setPState p s).txCnt = s.txCnt := rfl
@[simp] theorem setPState_txLen (p : PState) (s : State) : (setPState p s).txLen = s.txLen := rfl
@[simp] theorem setPState_rxCnt (p : PState) (s : State) : (setPState p s).rxCnt = s.rxCnt := rfl
@[simp] theorem setPState_rxNeed (p : PState) (s : State) : (setPState p s).rxNeed = s.rxNeed := rfl
@[simp] theorem setPState_busy (p : PState) (s : State) : (setPState p s).busy = s.busy := rfl
@[simp] theorem setPState_txActive (p : PState) (s : State) :
    (setPState p s).txActive = s.txActive := rfl
@[simp] theorem setPState_ivRxValid (p : PState) (s : State) :
    (setPState p s).ivRxValid = s.ivRxValid := rfl
@[simp] theorem setPState_ivTxValid (p : PState) (s : State) :
    (setPState p s).ivTxValid = s.ivTxValid := rfl
@[simp] theorem setPState_resultValid (p : PState) (s : State) :
    (setPState p s).resultValid = s.resultValid := rfl
@[simp] theorem setPState_cmdErr (p : PState) (s : State) : (setPState p s).cmdErr = s.cmdErr := rfl
@[simp] theorem setPState_coutKind (p : PState) (s : State) :
    (setPState p s).coutKind = s.coutKind := rfl
@[simp] theorem setPState_errReason (p : PState) (s : State) :
    (setPState p s).errReason = s.errReason := rfl
@[simp] theorem setPState_errCause (p : PState) (s : State) :
    (setPState p s).errCause = s.errCause := rfl
@[simp] theorem setPState_unitCause (p : PState) (s : State) :
    (setPState p s).unitCause = s.unitCause := rfl
@[simp] theorem setPState_verdict (p : PState) (s : State) :
    (setPState p s).verdict = s.verdict := rfl
@[simp] theorem setPState_cinLen (p : PState) (s : State) : (setPState p s).cinLen = s.cinLen := rfl
@[simp] theorem setPState_coutLen (p : PState) (s : State) :
    (setPState p s).coutLen = s.coutLen := rfl
@[simp] theorem setPState_unameSrcLen (p : PState) (s : State) :
    (setPState p s).unameSrcLen = s.unameSrcLen := rfl
@[simp] theorem setPState_mem (p : PState) (s : State) : (setPState p s).mem = s.mem := rfl
@[simp] theorem setPState_txStream (p : PState) (s : State) :
    (setPState p s).txStream = s.txStream := rfl
@[simp] theorem setPState_rxStream (p : PState) (s : State) :
    (setPState p s).rxStream = s.rxStream := rfl
@[simp] theorem setPState_txEvents (p : PState) (s : State) :
    (setPState p s).txEvents = s.txEvents := rfl
@[simp] theorem setPState_hostQueue (p : PState) (s : State) :
    (setPState p s).hostQueue = s.hostQueue := rfl
@[simp] theorem setPState_turns (p : PState) (s : State) : (setPState p s).turns = s.turns := rfl
@[simp] theorem setPState_lastRead (p : PState) (s : State) :
    (setPState p s).lastRead = s.lastRead := rfl
@[simp] theorem setPState_draws (p : PState) (s : State) : (setPState p s).draws = s.draws := rfl

@[simp] theorem loadChallenge_op (c : Bytes) (s : State) :
    (loadChallenge c s).op = some (c.headD 0) := rfl
@[simp] theorem loadChallenge_left (c : Bytes) (s : State) :
    (loadChallenge c s).left = some (be32 (slice c 1 4)) := rfl
@[simp] theorem loadChallenge_right (c : Bytes) (s : State) :
    (loadChallenge c s).right = some (be32 (slice c 5 4)) := rfl
@[simp] theorem loadChallenge_result (c : Bytes) (s : State) :
    (loadChallenge c s).result = s.result := rfl
@[simp] theorem loadChallenge_pstate (c : Bytes) (s : State) :
    (loadChallenge c s).pstate = s.pstate := rfl
@[simp] theorem loadChallenge_txCnt (c : Bytes) (s : State) :
    (loadChallenge c s).txCnt = s.txCnt := rfl
@[simp] theorem loadChallenge_txLen (c : Bytes) (s : State) :
    (loadChallenge c s).txLen = s.txLen := rfl
@[simp] theorem loadChallenge_rxCnt (c : Bytes) (s : State) :
    (loadChallenge c s).rxCnt = s.rxCnt := rfl
@[simp] theorem loadChallenge_rxNeed (c : Bytes) (s : State) :
    (loadChallenge c s).rxNeed = s.rxNeed := rfl
@[simp] theorem loadChallenge_busy (c : Bytes) (s : State) :
    (loadChallenge c s).busy = s.busy := rfl
@[simp] theorem loadChallenge_txActive (c : Bytes) (s : State) :
    (loadChallenge c s).txActive = s.txActive := rfl
@[simp] theorem loadChallenge_ivRxValid (c : Bytes) (s : State) :
    (loadChallenge c s).ivRxValid = s.ivRxValid := rfl
@[simp] theorem loadChallenge_ivTxValid (c : Bytes) (s : State) :
    (loadChallenge c s).ivTxValid = s.ivTxValid := rfl
@[simp] theorem loadChallenge_resultValid (c : Bytes) (s : State) :
    (loadChallenge c s).resultValid = s.resultValid := rfl
@[simp] theorem loadChallenge_cmdErr (c : Bytes) (s : State) :
    (loadChallenge c s).cmdErr = s.cmdErr := rfl
@[simp] theorem loadChallenge_coutKind (c : Bytes) (s : State) :
    (loadChallenge c s).coutKind = s.coutKind := rfl
@[simp] theorem loadChallenge_errReason (c : Bytes) (s : State) :
    (loadChallenge c s).errReason = s.errReason := rfl
@[simp] theorem loadChallenge_errCause (c : Bytes) (s : State) :
    (loadChallenge c s).errCause = s.errCause := rfl
@[simp] theorem loadChallenge_unitCause (c : Bytes) (s : State) :
    (loadChallenge c s).unitCause = s.unitCause := rfl
@[simp] theorem loadChallenge_verdict (c : Bytes) (s : State) :
    (loadChallenge c s).verdict = s.verdict := rfl
@[simp] theorem loadChallenge_cinLen (c : Bytes) (s : State) :
    (loadChallenge c s).cinLen = s.cinLen := rfl
@[simp] theorem loadChallenge_coutLen (c : Bytes) (s : State) :
    (loadChallenge c s).coutLen = s.coutLen := rfl
@[simp] theorem loadChallenge_unameSrcLen (c : Bytes) (s : State) :
    (loadChallenge c s).unameSrcLen = s.unameSrcLen := rfl
@[simp] theorem loadChallenge_mem (c : Bytes) (s : State) : (loadChallenge c s).mem = s.mem := rfl
@[simp] theorem loadChallenge_txStream (c : Bytes) (s : State) :
    (loadChallenge c s).txStream = s.txStream := rfl
@[simp] theorem loadChallenge_rxStream (c : Bytes) (s : State) :
    (loadChallenge c s).rxStream = s.rxStream := rfl
@[simp] theorem loadChallenge_txEvents (c : Bytes) (s : State) :
    (loadChallenge c s).txEvents = s.txEvents := rfl
@[simp] theorem loadChallenge_hostQueue (c : Bytes) (s : State) :
    (loadChallenge c s).hostQueue = s.hostQueue := rfl
@[simp] theorem loadChallenge_turns (c : Bytes) (s : State) :
    (loadChallenge c s).turns = s.turns := rfl
@[simp] theorem loadChallenge_lastRead (c : Bytes) (s : State) :
    (loadChallenge c s).lastRead = s.lastRead := rfl
@[simp] theorem loadChallenge_draws (c : Bytes) (s : State) :
    (loadChallenge c s).draws = s.draws := rfl

@[simp] theorem putResultBytes_op (v : Result) (s : State) : (putResultBytes v s).op = s.op := rfl
@[simp] theorem putResultBytes_left (v : Result) (s : State) :
    (putResultBytes v s).left = s.left := rfl
@[simp] theorem putResultBytes_right (v : Result) (s : State) :
    (putResultBytes v s).right = s.right := rfl
@[simp] theorem putResultBytes_result (v : Result) (s : State) :
    (putResultBytes v s).result = s.result := rfl
@[simp] theorem putResultBytes_pstate (v : Result) (s : State) :
    (putResultBytes v s).pstate = s.pstate := rfl
@[simp] theorem putResultBytes_txCnt (v : Result) (s : State) :
    (putResultBytes v s).txCnt = s.txCnt := rfl
@[simp] theorem putResultBytes_txLen (v : Result) (s : State) :
    (putResultBytes v s).txLen = s.txLen := rfl
@[simp] theorem putResultBytes_rxCnt (v : Result) (s : State) :
    (putResultBytes v s).rxCnt = s.rxCnt := rfl
@[simp] theorem putResultBytes_rxNeed (v : Result) (s : State) :
    (putResultBytes v s).rxNeed = s.rxNeed := rfl
@[simp] theorem putResultBytes_busy (v : Result) (s : State) :
    (putResultBytes v s).busy = s.busy := rfl
@[simp] theorem putResultBytes_txActive (v : Result) (s : State) :
    (putResultBytes v s).txActive = s.txActive := rfl
@[simp] theorem putResultBytes_ivRxValid (v : Result) (s : State) :
    (putResultBytes v s).ivRxValid = s.ivRxValid := rfl
@[simp] theorem putResultBytes_ivTxValid (v : Result) (s : State) :
    (putResultBytes v s).ivTxValid = s.ivTxValid := rfl
@[simp] theorem putResultBytes_resultValid (v : Result) (s : State) :
    (putResultBytes v s).resultValid = s.resultValid := rfl
@[simp] theorem putResultBytes_cmdErr (v : Result) (s : State) :
    (putResultBytes v s).cmdErr = s.cmdErr := rfl
@[simp] theorem putResultBytes_coutKind (v : Result) (s : State) :
    (putResultBytes v s).coutKind = s.coutKind := rfl
@[simp] theorem putResultBytes_errReason (v : Result) (s : State) :
    (putResultBytes v s).errReason = s.errReason := rfl
@[simp] theorem putResultBytes_errCause (v : Result) (s : State) :
    (putResultBytes v s).errCause = s.errCause := rfl
@[simp] theorem putResultBytes_unitCause (v : Result) (s : State) :
    (putResultBytes v s).unitCause = s.unitCause := rfl
@[simp] theorem putResultBytes_verdict (v : Result) (s : State) :
    (putResultBytes v s).verdict = s.verdict := rfl
@[simp] theorem putResultBytes_cinLen (v : Result) (s : State) :
    (putResultBytes v s).cinLen = some 8 := rfl
@[simp] theorem putResultBytes_coutLen (v : Result) (s : State) :
    (putResultBytes v s).coutLen = s.coutLen := rfl
@[simp] theorem putResultBytes_unameSrcLen (v : Result) (s : State) :
    (putResultBytes v s).unameSrcLen = s.unameSrcLen := rfl
@[simp] theorem putResultBytes_mem (v : Result) (s : State) :
    (putResultBytes v s).mem = s.mem.writeRange (Space.cin.addr 0) (toBE64 v) := rfl
@[simp] theorem putResultBytes_txStream (v : Result) (s : State) :
    (putResultBytes v s).txStream = s.txStream := rfl
@[simp] theorem putResultBytes_rxStream (v : Result) (s : State) :
    (putResultBytes v s).rxStream = s.rxStream := rfl
@[simp] theorem putResultBytes_txEvents (v : Result) (s : State) :
    (putResultBytes v s).txEvents = s.txEvents := rfl
@[simp] theorem putResultBytes_hostQueue (v : Result) (s : State) :
    (putResultBytes v s).hostQueue = s.hostQueue := rfl
@[simp] theorem putResultBytes_turns (v : Result) (s : State) :
    (putResultBytes v s).turns = s.turns := rfl
@[simp] theorem putResultBytes_lastRead (v : Result) (s : State) :
    (putResultBytes v s).lastRead = s.lastRead := rfl
@[simp] theorem putResultBytes_draws (v : Result) (s : State) :
    (putResultBytes v s).draws = s.draws := rfl

@[simp] theorem putCiphertext_op (iv ct : Bytes) (s : State) :
    (putCiphertext iv ct s).op = s.op := rfl
@[simp] theorem putCiphertext_left (iv ct : Bytes) (s : State) :
    (putCiphertext iv ct s).left = s.left := rfl
@[simp] theorem putCiphertext_right (iv ct : Bytes) (s : State) :
    (putCiphertext iv ct s).right = s.right := rfl
@[simp] theorem putCiphertext_result (iv ct : Bytes) (s : State) :
    (putCiphertext iv ct s).result = s.result := rfl
@[simp] theorem putCiphertext_pstate (iv ct : Bytes) (s : State) :
    (putCiphertext iv ct s).pstate = s.pstate := rfl
@[simp] theorem putCiphertext_txCnt (iv ct : Bytes) (s : State) :
    (putCiphertext iv ct s).txCnt = s.txCnt := rfl
@[simp] theorem putCiphertext_txLen (iv ct : Bytes) (s : State) :
    (putCiphertext iv ct s).txLen = s.txLen := rfl
@[simp] theorem putCiphertext_rxCnt (iv ct : Bytes) (s : State) :
    (putCiphertext iv ct s).rxCnt = s.rxCnt := rfl
@[simp] theorem putCiphertext_rxNeed (iv ct : Bytes) (s : State) :
    (putCiphertext iv ct s).rxNeed = s.rxNeed := rfl
@[simp] theorem putCiphertext_busy (iv ct : Bytes) (s : State) :
    (putCiphertext iv ct s).busy = s.busy := rfl
@[simp] theorem putCiphertext_txActive (iv ct : Bytes) (s : State) :
    (putCiphertext iv ct s).txActive = s.txActive := rfl
@[simp] theorem putCiphertext_ivRxValid (iv ct : Bytes) (s : State) :
    (putCiphertext iv ct s).ivRxValid = s.ivRxValid := rfl
@[simp] theorem putCiphertext_ivTxValid (iv ct : Bytes) (s : State) :
    (putCiphertext iv ct s).ivTxValid = true := rfl
@[simp] theorem putCiphertext_resultValid (iv ct : Bytes) (s : State) :
    (putCiphertext iv ct s).resultValid = s.resultValid := rfl
@[simp] theorem putCiphertext_cmdErr (iv ct : Bytes) (s : State) :
    (putCiphertext iv ct s).cmdErr = s.cmdErr := rfl
@[simp] theorem putCiphertext_coutKind (iv ct : Bytes) (s : State) :
    (putCiphertext iv ct s).coutKind = .ciphertext := rfl
@[simp] theorem putCiphertext_errReason (iv ct : Bytes) (s : State) :
    (putCiphertext iv ct s).errReason = s.errReason := rfl
@[simp] theorem putCiphertext_errCause (iv ct : Bytes) (s : State) :
    (putCiphertext iv ct s).errCause = s.errCause := rfl
@[simp] theorem putCiphertext_unitCause (iv ct : Bytes) (s : State) :
    (putCiphertext iv ct s).unitCause = s.unitCause := rfl
@[simp] theorem putCiphertext_verdict (iv ct : Bytes) (s : State) :
    (putCiphertext iv ct s).verdict = s.verdict := rfl
@[simp] theorem putCiphertext_cinLen (iv ct : Bytes) (s : State) :
    (putCiphertext iv ct s).cinLen = s.cinLen := rfl
@[simp] theorem putCiphertext_coutLen (iv ct : Bytes) (s : State) :
    (putCiphertext iv ct s).coutLen = BitVec.ofNat 8 ct.length := rfl
@[simp] theorem putCiphertext_unameSrcLen (iv ct : Bytes) (s : State) :
    (putCiphertext iv ct s).unameSrcLen = s.unameSrcLen := rfl
@[simp] theorem putCiphertext_mem (iv ct : Bytes) (s : State) :
    (putCiphertext iv ct s).mem = (s.mem.writeRange (Space.ivTx.addr 0) iv).writeRange (Space.cout.addr 0) ct := rfl
@[simp] theorem putCiphertext_txStream (iv ct : Bytes) (s : State) :
    (putCiphertext iv ct s).txStream = s.txStream := rfl
@[simp] theorem putCiphertext_rxStream (iv ct : Bytes) (s : State) :
    (putCiphertext iv ct s).rxStream = s.rxStream := rfl
@[simp] theorem putCiphertext_txEvents (iv ct : Bytes) (s : State) :
    (putCiphertext iv ct s).txEvents = s.txEvents := rfl
@[simp] theorem putCiphertext_hostQueue (iv ct : Bytes) (s : State) :
    (putCiphertext iv ct s).hostQueue = s.hostQueue := rfl
@[simp] theorem putCiphertext_turns (iv ct : Bytes) (s : State) :
    (putCiphertext iv ct s).turns = s.turns := rfl
@[simp] theorem putCiphertext_lastRead (iv ct : Bytes) (s : State) :
    (putCiphertext iv ct s).lastRead = s.lastRead := rfl
@[simp] theorem putCiphertext_draws (iv ct : Bytes) (s : State) :
    (putCiphertext iv ct s).draws = s.draws + 1 := rfl

@[simp] theorem encryptFailed_op (s : State) : (encryptFailed s).op = s.op := rfl
@[simp] theorem encryptFailed_left (s : State) : (encryptFailed s).left = s.left := rfl
@[simp] theorem encryptFailed_right (s : State) : (encryptFailed s).right = s.right := rfl
@[simp] theorem encryptFailed_result (s : State) : (encryptFailed s).result = s.result := rfl
@[simp] theorem encryptFailed_pstate (s : State) : (encryptFailed s).pstate = s.pstate := rfl
@[simp] theorem encryptFailed_txCnt (s : State) : (encryptFailed s).txCnt = s.txCnt := rfl
@[simp] theorem encryptFailed_txLen (s : State) : (encryptFailed s).txLen = s.txLen := rfl
@[simp] theorem encryptFailed_rxCnt (s : State) : (encryptFailed s).rxCnt = s.rxCnt := rfl
@[simp] theorem encryptFailed_rxNeed (s : State) : (encryptFailed s).rxNeed = s.rxNeed := rfl
@[simp] theorem encryptFailed_busy (s : State) : (encryptFailed s).busy = s.busy := rfl
@[simp] theorem encryptFailed_txActive (s : State) : (encryptFailed s).txActive = s.txActive := rfl
@[simp] theorem encryptFailed_ivRxValid (s : State) :
    (encryptFailed s).ivRxValid = s.ivRxValid := rfl
@[simp] theorem encryptFailed_ivTxValid (s : State) : (encryptFailed s).ivTxValid = false := rfl
@[simp] theorem encryptFailed_resultValid (s : State) :
    (encryptFailed s).resultValid = s.resultValid := rfl
@[simp] theorem encryptFailed_cmdErr (s : State) : (encryptFailed s).cmdErr = s.cmdErr := rfl
@[simp] theorem encryptFailed_coutKind (s : State) : (encryptFailed s).coutKind = .none := rfl
@[simp] theorem encryptFailed_errReason (s : State) :
    (encryptFailed s).errReason = s.errReason := rfl
@[simp] theorem encryptFailed_errCause (s : State) : (encryptFailed s).errCause = s.errCause := rfl
@[simp] theorem encryptFailed_unitCause (s : State) :
    (encryptFailed s).unitCause = s.unitCause := rfl
@[simp] theorem encryptFailed_verdict (s : State) : (encryptFailed s).verdict = s.verdict := rfl
@[simp] theorem encryptFailed_cinLen (s : State) : (encryptFailed s).cinLen = s.cinLen := rfl
@[simp] theorem encryptFailed_coutLen (s : State) : (encryptFailed s).coutLen = 0 := rfl
@[simp] theorem encryptFailed_unameSrcLen (s : State) :
    (encryptFailed s).unameSrcLen = s.unameSrcLen := rfl
@[simp] theorem encryptFailed_mem (s : State) : (encryptFailed s).mem = s.mem := rfl
@[simp] theorem encryptFailed_txStream (s : State) : (encryptFailed s).txStream = s.txStream := rfl
@[simp] theorem encryptFailed_rxStream (s : State) : (encryptFailed s).rxStream = s.rxStream := rfl
@[simp] theorem encryptFailed_txEvents (s : State) : (encryptFailed s).txEvents = s.txEvents := rfl
@[simp] theorem encryptFailed_hostQueue (s : State) :
    (encryptFailed s).hostQueue = s.hostQueue := rfl
@[simp] theorem encryptFailed_turns (s : State) : (encryptFailed s).turns = s.turns := rfl
@[simp] theorem encryptFailed_lastRead (s : State) : (encryptFailed s).lastRead = s.lastRead := rfl
@[simp] theorem encryptFailed_draws (s : State) : (encryptFailed s).draws = s.draws := rfl

@[simp] theorem putPlaintext_op (u : Bytes) (s : State) : (putPlaintext u s).op = s.op := rfl
@[simp] theorem putPlaintext_left (u : Bytes) (s : State) : (putPlaintext u s).left = s.left := rfl
@[simp] theorem putPlaintext_right (u : Bytes) (s : State) :
    (putPlaintext u s).right = s.right := rfl
@[simp] theorem putPlaintext_result (u : Bytes) (s : State) :
    (putPlaintext u s).result = s.result := rfl
@[simp] theorem putPlaintext_pstate (u : Bytes) (s : State) :
    (putPlaintext u s).pstate = s.pstate := rfl
@[simp] theorem putPlaintext_txCnt (u : Bytes) (s : State) :
    (putPlaintext u s).txCnt = s.txCnt := rfl
@[simp] theorem putPlaintext_txLen (u : Bytes) (s : State) :
    (putPlaintext u s).txLen = s.txLen := rfl
@[simp] theorem putPlaintext_rxCnt (u : Bytes) (s : State) :
    (putPlaintext u s).rxCnt = s.rxCnt := rfl
@[simp] theorem putPlaintext_rxNeed (u : Bytes) (s : State) :
    (putPlaintext u s).rxNeed = s.rxNeed := rfl
@[simp] theorem putPlaintext_busy (u : Bytes) (s : State) : (putPlaintext u s).busy = s.busy := rfl
@[simp] theorem putPlaintext_txActive (u : Bytes) (s : State) :
    (putPlaintext u s).txActive = s.txActive := rfl
@[simp] theorem putPlaintext_ivRxValid (u : Bytes) (s : State) :
    (putPlaintext u s).ivRxValid = false := rfl
@[simp] theorem putPlaintext_ivTxValid (u : Bytes) (s : State) :
    (putPlaintext u s).ivTxValid = s.ivTxValid := rfl
@[simp] theorem putPlaintext_resultValid (u : Bytes) (s : State) :
    (putPlaintext u s).resultValid = s.resultValid := rfl
@[simp] theorem putPlaintext_cmdErr (u : Bytes) (s : State) :
    (putPlaintext u s).cmdErr = s.cmdErr := rfl
@[simp] theorem putPlaintext_coutKind (u : Bytes) (s : State) :
    (putPlaintext u s).coutKind = .plaintext := rfl
@[simp] theorem putPlaintext_errReason (u : Bytes) (s : State) :
    (putPlaintext u s).errReason = s.errReason := rfl
@[simp] theorem putPlaintext_errCause (u : Bytes) (s : State) :
    (putPlaintext u s).errCause = s.errCause := rfl
@[simp] theorem putPlaintext_unitCause (u : Bytes) (s : State) :
    (putPlaintext u s).unitCause = s.unitCause := rfl
@[simp] theorem putPlaintext_verdict (u : Bytes) (s : State) :
    (putPlaintext u s).verdict = s.verdict := rfl
@[simp] theorem putPlaintext_cinLen (u : Bytes) (s : State) :
    (putPlaintext u s).cinLen = s.cinLen := rfl
@[simp] theorem putPlaintext_coutLen (u : Bytes) (s : State) :
    (putPlaintext u s).coutLen = BitVec.ofNat 8 u.length := rfl
@[simp] theorem putPlaintext_unameSrcLen (u : Bytes) (s : State) :
    (putPlaintext u s).unameSrcLen = s.unameSrcLen := rfl
@[simp] theorem putPlaintext_mem (u : Bytes) (s : State) :
    (putPlaintext u s).mem = s.mem.writeRange (Space.cout.addr 0) u := rfl
@[simp] theorem putPlaintext_txStream (u : Bytes) (s : State) :
    (putPlaintext u s).txStream = s.txStream := rfl
@[simp] theorem putPlaintext_rxStream (u : Bytes) (s : State) :
    (putPlaintext u s).rxStream = s.rxStream := rfl
@[simp] theorem putPlaintext_txEvents (u : Bytes) (s : State) :
    (putPlaintext u s).txEvents = s.txEvents := rfl
@[simp] theorem putPlaintext_hostQueue (u : Bytes) (s : State) :
    (putPlaintext u s).hostQueue = s.hostQueue := rfl
@[simp] theorem putPlaintext_turns (u : Bytes) (s : State) :
    (putPlaintext u s).turns = s.turns := rfl
@[simp] theorem putPlaintext_lastRead (u : Bytes) (s : State) :
    (putPlaintext u s).lastRead = s.lastRead := rfl
@[simp] theorem putPlaintext_draws (u : Bytes) (s : State) :
    (putPlaintext u s).draws = s.draws := rfl

@[simp] theorem decryptFailed_op (s : State) : (decryptFailed s).op = s.op := rfl
@[simp] theorem decryptFailed_left (s : State) : (decryptFailed s).left = s.left := rfl
@[simp] theorem decryptFailed_right (s : State) : (decryptFailed s).right = s.right := rfl
@[simp] theorem decryptFailed_result (s : State) : (decryptFailed s).result = s.result := rfl
@[simp] theorem decryptFailed_pstate (s : State) : (decryptFailed s).pstate = s.pstate := rfl
@[simp] theorem decryptFailed_txCnt (s : State) : (decryptFailed s).txCnt = s.txCnt := rfl
@[simp] theorem decryptFailed_txLen (s : State) : (decryptFailed s).txLen = s.txLen := rfl
@[simp] theorem decryptFailed_rxCnt (s : State) : (decryptFailed s).rxCnt = s.rxCnt := rfl
@[simp] theorem decryptFailed_rxNeed (s : State) : (decryptFailed s).rxNeed = s.rxNeed := rfl
@[simp] theorem decryptFailed_busy (s : State) : (decryptFailed s).busy = s.busy := rfl
@[simp] theorem decryptFailed_txActive (s : State) : (decryptFailed s).txActive = s.txActive := rfl
@[simp] theorem decryptFailed_ivRxValid (s : State) : (decryptFailed s).ivRxValid = false := rfl
@[simp] theorem decryptFailed_ivTxValid (s : State) :
    (decryptFailed s).ivTxValid = s.ivTxValid := rfl
@[simp] theorem decryptFailed_resultValid (s : State) :
    (decryptFailed s).resultValid = s.resultValid := rfl
@[simp] theorem decryptFailed_cmdErr (s : State) : (decryptFailed s).cmdErr = s.cmdErr := rfl
@[simp] theorem decryptFailed_coutKind (s : State) : (decryptFailed s).coutKind = .none := rfl
@[simp] theorem decryptFailed_errReason (s : State) :
    (decryptFailed s).errReason = s.errReason := rfl
@[simp] theorem decryptFailed_errCause (s : State) : (decryptFailed s).errCause = s.errCause := rfl
@[simp] theorem decryptFailed_unitCause (s : State) :
    (decryptFailed s).unitCause = s.unitCause := rfl
@[simp] theorem decryptFailed_verdict (s : State) : (decryptFailed s).verdict = s.verdict := rfl
@[simp] theorem decryptFailed_cinLen (s : State) : (decryptFailed s).cinLen = s.cinLen := rfl
@[simp] theorem decryptFailed_coutLen (s : State) : (decryptFailed s).coutLen = 0 := rfl
@[simp] theorem decryptFailed_unameSrcLen (s : State) :
    (decryptFailed s).unameSrcLen = s.unameSrcLen := rfl
@[simp] theorem decryptFailed_mem (s : State) : (decryptFailed s).mem = s.mem := rfl
@[simp] theorem decryptFailed_txStream (s : State) : (decryptFailed s).txStream = s.txStream := rfl
@[simp] theorem decryptFailed_rxStream (s : State) : (decryptFailed s).rxStream = s.rxStream := rfl
@[simp] theorem decryptFailed_txEvents (s : State) : (decryptFailed s).txEvents = s.txEvents := rfl
@[simp] theorem decryptFailed_hostQueue (s : State) :
    (decryptFailed s).hostQueue = s.hostQueue := rfl
@[simp] theorem decryptFailed_turns (s : State) : (decryptFailed s).turns = s.turns := rfl
@[simp] theorem decryptFailed_lastRead (s : State) : (decryptFailed s).lastRead = s.lastRead := rfl
@[simp] theorem decryptFailed_draws (s : State) : (decryptFailed s).draws = s.draws := rfl

@[simp] theorem startSession_op (u : Bytes) (s : State) : (startSession u s).op = s.op := rfl
@[simp] theorem startSession_left (u : Bytes) (s : State) : (startSession u s).left = s.left := rfl
@[simp] theorem startSession_right (u : Bytes) (s : State) :
    (startSession u s).right = s.right := rfl
@[simp] theorem startSession_result (u : Bytes) (s : State) :
    (startSession u s).result = s.result := rfl
@[simp] theorem startSession_pstate (u : Bytes) (s : State) :
    (startSession u s).pstate = s.pstate := rfl
@[simp] theorem startSession_txCnt (u : Bytes) (s : State) : (startSession u s).txCnt = 0 := rfl
@[simp] theorem startSession_txLen (u : Bytes) (s : State) : (startSession u s).txLen = 19 := rfl
@[simp] theorem startSession_rxCnt (u : Bytes) (s : State) :
    (startSession u s).rxCnt = s.rxCnt := rfl
@[simp] theorem startSession_rxNeed (u : Bytes) (s : State) :
    (startSession u s).rxNeed = s.rxNeed := rfl
@[simp] theorem startSession_busy (u : Bytes) (s : State) : (startSession u s).busy = true := rfl
@[simp] theorem startSession_txActive (u : Bytes) (s : State) :
    (startSession u s).txActive = true := rfl
@[simp] theorem startSession_ivRxValid (u : Bytes) (s : State) :
    (startSession u s).ivRxValid = s.ivRxValid := rfl
@[simp] theorem startSession_ivTxValid (u : Bytes) (s : State) :
    (startSession u s).ivTxValid = s.ivTxValid := rfl
@[simp] theorem startSession_resultValid (u : Bytes) (s : State) :
    (startSession u s).resultValid = s.resultValid := rfl
@[simp] theorem startSession_cmdErr (u : Bytes) (s : State) :
    (startSession u s).cmdErr = false := rfl
@[simp] theorem startSession_coutKind (u : Bytes) (s : State) :
    (startSession u s).coutKind = s.coutKind := rfl
@[simp] theorem startSession_errReason (u : Bytes) (s : State) :
    (startSession u s).errReason = s.errReason := rfl
@[simp] theorem startSession_errCause (u : Bytes) (s : State) :
    (startSession u s).errCause = s.errCause := rfl
@[simp] theorem startSession_unitCause (u : Bytes) (s : State) :
    (startSession u s).unitCause = s.unitCause := rfl
@[simp] theorem startSession_verdict (u : Bytes) (s : State) :
    (startSession u s).verdict = s.verdict := rfl
@[simp] theorem startSession_cinLen (u : Bytes) (s : State) :
    (startSession u s).cinLen = s.cinLen := rfl
@[simp] theorem startSession_coutLen (u : Bytes) (s : State) :
    (startSession u s).coutLen = s.coutLen := rfl
@[simp] theorem startSession_unameSrcLen (u : Bytes) (s : State) :
    (startSession u s).unameSrcLen = s.unameSrcLen := rfl
@[simp] theorem startSession_mem (u : Bytes) (s : State) :
    (startSession u s).mem = s.mem.writeRange (Space.txbuf.addr 0) (shortFrameBytes code105 u) := rfl
@[simp] theorem startSession_txStream (u : Bytes) (s : State) :
    (startSession u s).txStream = s.txStream := rfl
@[simp] theorem startSession_rxStream (u : Bytes) (s : State) :
    (startSession u s).rxStream = s.rxStream := rfl
@[simp] theorem startSession_txEvents (u : Bytes) (s : State) :
    (startSession u s).txEvents = s.txEvents := rfl
@[simp] theorem startSession_hostQueue (u : Bytes) (s : State) :
    (startSession u s).hostQueue = s.hostQueue := rfl
@[simp] theorem startSession_turns (u : Bytes) (s : State) :
    (startSession u s).turns = s.turns := rfl
@[simp] theorem startSession_lastRead (u : Bytes) (s : State) :
    (startSession u s).lastRead = s.lastRead := rfl
@[simp] theorem startSession_draws (u : Bytes) (s : State) :
    (startSession u s).draws = s.draws := rfl

@[simp] theorem stopSending_op (s : State) : (stopSending s).op = s.op := rfl
@[simp] theorem stopSending_left (s : State) : (stopSending s).left = s.left := rfl
@[simp] theorem stopSending_right (s : State) : (stopSending s).right = s.right := rfl
@[simp] theorem stopSending_result (s : State) : (stopSending s).result = s.result := rfl
@[simp] theorem stopSending_pstate (s : State) : (stopSending s).pstate = s.pstate := rfl
@[simp] theorem stopSending_txCnt (s : State) : (stopSending s).txCnt = s.txCnt := rfl
@[simp] theorem stopSending_txLen (s : State) : (stopSending s).txLen = s.txLen := rfl
@[simp] theorem stopSending_rxCnt (s : State) : (stopSending s).rxCnt = s.rxCnt := rfl
@[simp] theorem stopSending_rxNeed (s : State) : (stopSending s).rxNeed = s.rxNeed := rfl
@[simp] theorem stopSending_busy (s : State) : (stopSending s).busy = s.busy := rfl
@[simp] theorem stopSending_txActive (s : State) : (stopSending s).txActive = false := rfl
@[simp] theorem stopSending_ivRxValid (s : State) : (stopSending s).ivRxValid = s.ivRxValid := rfl
@[simp] theorem stopSending_ivTxValid (s : State) : (stopSending s).ivTxValid = s.ivTxValid := rfl
@[simp] theorem stopSending_resultValid (s : State) :
    (stopSending s).resultValid = s.resultValid := rfl
@[simp] theorem stopSending_cmdErr (s : State) : (stopSending s).cmdErr = s.cmdErr := rfl
@[simp] theorem stopSending_coutKind (s : State) : (stopSending s).coutKind = s.coutKind := rfl
@[simp] theorem stopSending_errReason (s : State) : (stopSending s).errReason = s.errReason := rfl
@[simp] theorem stopSending_errCause (s : State) : (stopSending s).errCause = s.errCause := rfl
@[simp] theorem stopSending_unitCause (s : State) : (stopSending s).unitCause = s.unitCause := rfl
@[simp] theorem stopSending_verdict (s : State) : (stopSending s).verdict = s.verdict := rfl
@[simp] theorem stopSending_cinLen (s : State) : (stopSending s).cinLen = s.cinLen := rfl
@[simp] theorem stopSending_coutLen (s : State) : (stopSending s).coutLen = s.coutLen := rfl
@[simp] theorem stopSending_unameSrcLen (s : State) :
    (stopSending s).unameSrcLen = s.unameSrcLen := rfl
@[simp] theorem stopSending_mem (s : State) : (stopSending s).mem = s.mem := rfl
@[simp] theorem stopSending_txStream (s : State) : (stopSending s).txStream = s.txStream := rfl
@[simp] theorem stopSending_rxStream (s : State) : (stopSending s).rxStream = s.rxStream := rfl
@[simp] theorem stopSending_txEvents (s : State) : (stopSending s).txEvents = s.txEvents := rfl
@[simp] theorem stopSending_hostQueue (s : State) : (stopSending s).hostQueue = s.hostQueue := rfl
@[simp] theorem stopSending_turns (s : State) : (stopSending s).turns = s.turns := rfl
@[simp] theorem stopSending_lastRead (s : State) : (stopSending s).lastRead = s.lastRead := rfl
@[simp] theorem stopSending_draws (s : State) : (stopSending s).draws = s.draws := rfl

@[simp] theorem startReceiving_op (p : PState) (n : BitVec 8) (s : State) :
    (startReceiving p n s).op = s.op := rfl
@[simp] theorem startReceiving_left (p : PState) (n : BitVec 8) (s : State) :
    (startReceiving p n s).left = s.left := rfl
@[simp] theorem startReceiving_right (p : PState) (n : BitVec 8) (s : State) :
    (startReceiving p n s).right = s.right := rfl
@[simp] theorem startReceiving_result (p : PState) (n : BitVec 8) (s : State) :
    (startReceiving p n s).result = s.result := rfl
@[simp] theorem startReceiving_pstate (p : PState) (n : BitVec 8) (s : State) :
    (startReceiving p n s).pstate = p := rfl
@[simp] theorem startReceiving_txCnt (p : PState) (n : BitVec 8) (s : State) :
    (startReceiving p n s).txCnt = s.txCnt := rfl
@[simp] theorem startReceiving_txLen (p : PState) (n : BitVec 8) (s : State) :
    (startReceiving p n s).txLen = s.txLen := rfl
@[simp] theorem startReceiving_rxCnt (p : PState) (n : BitVec 8) (s : State) :
    (startReceiving p n s).rxCnt = 0 := rfl
@[simp] theorem startReceiving_rxNeed (p : PState) (n : BitVec 8) (s : State) :
    (startReceiving p n s).rxNeed = n := rfl
@[simp] theorem startReceiving_busy (p : PState) (n : BitVec 8) (s : State) :
    (startReceiving p n s).busy = s.busy := rfl
@[simp] theorem startReceiving_txActive (p : PState) (n : BitVec 8) (s : State) :
    (startReceiving p n s).txActive = s.txActive := rfl
@[simp] theorem startReceiving_ivRxValid (p : PState) (n : BitVec 8) (s : State) :
    (startReceiving p n s).ivRxValid = s.ivRxValid := rfl
@[simp] theorem startReceiving_ivTxValid (p : PState) (n : BitVec 8) (s : State) :
    (startReceiving p n s).ivTxValid = s.ivTxValid := rfl
@[simp] theorem startReceiving_resultValid (p : PState) (n : BitVec 8) (s : State) :
    (startReceiving p n s).resultValid = s.resultValid := rfl
@[simp] theorem startReceiving_cmdErr (p : PState) (n : BitVec 8) (s : State) :
    (startReceiving p n s).cmdErr = s.cmdErr := rfl
@[simp] theorem startReceiving_coutKind (p : PState) (n : BitVec 8) (s : State) :
    (startReceiving p n s).coutKind = s.coutKind := rfl
@[simp] theorem startReceiving_errReason (p : PState) (n : BitVec 8) (s : State) :
    (startReceiving p n s).errReason = s.errReason := rfl
@[simp] theorem startReceiving_errCause (p : PState) (n : BitVec 8) (s : State) :
    (startReceiving p n s).errCause = s.errCause := rfl
@[simp] theorem startReceiving_unitCause (p : PState) (n : BitVec 8) (s : State) :
    (startReceiving p n s).unitCause = s.unitCause := rfl
@[simp] theorem startReceiving_verdict (p : PState) (n : BitVec 8) (s : State) :
    (startReceiving p n s).verdict = s.verdict := rfl
@[simp] theorem startReceiving_cinLen (p : PState) (n : BitVec 8) (s : State) :
    (startReceiving p n s).cinLen = s.cinLen := rfl
@[simp] theorem startReceiving_coutLen (p : PState) (n : BitVec 8) (s : State) :
    (startReceiving p n s).coutLen = s.coutLen := rfl
@[simp] theorem startReceiving_unameSrcLen (p : PState) (n : BitVec 8) (s : State) :
    (startReceiving p n s).unameSrcLen = s.unameSrcLen := rfl
@[simp] theorem startReceiving_mem (p : PState) (n : BitVec 8) (s : State) :
    (startReceiving p n s).mem = s.mem := rfl
@[simp] theorem startReceiving_txStream (p : PState) (n : BitVec 8) (s : State) :
    (startReceiving p n s).txStream = s.txStream := rfl
@[simp] theorem startReceiving_rxStream (p : PState) (n : BitVec 8) (s : State) :
    (startReceiving p n s).rxStream = s.rxStream := rfl
@[simp] theorem startReceiving_txEvents (p : PState) (n : BitVec 8) (s : State) :
    (startReceiving p n s).txEvents = s.txEvents := rfl
@[simp] theorem startReceiving_hostQueue (p : PState) (n : BitVec 8) (s : State) :
    (startReceiving p n s).hostQueue = s.hostQueue := rfl
@[simp] theorem startReceiving_turns (p : PState) (n : BitVec 8) (s : State) :
    (startReceiving p n s).turns = s.turns := rfl
@[simp] theorem startReceiving_lastRead (p : PState) (n : BitVec 8) (s : State) :
    (startReceiving p n s).lastRead = s.lastRead := rfl
@[simp] theorem startReceiving_draws (p : PState) (n : BitVec 8) (s : State) :
    (startReceiving p n s).draws = s.draws := rfl

@[simp] theorem byteAccepted_op (b : Bytes) (s : State) : (byteAccepted b s).op = s.op := rfl
@[simp] theorem byteAccepted_left (b : Bytes) (s : State) : (byteAccepted b s).left = s.left := rfl
@[simp] theorem byteAccepted_right (b : Bytes) (s : State) :
    (byteAccepted b s).right = s.right := rfl
@[simp] theorem byteAccepted_result (b : Bytes) (s : State) :
    (byteAccepted b s).result = s.result := rfl
@[simp] theorem byteAccepted_pstate (b : Bytes) (s : State) :
    (byteAccepted b s).pstate = s.pstate := rfl
@[simp] theorem byteAccepted_txCnt (b : Bytes) (s : State) :
    (byteAccepted b s).txCnt = s.txCnt + 1 := rfl
@[simp] theorem byteAccepted_txLen (b : Bytes) (s : State) :
    (byteAccepted b s).txLen = s.txLen := rfl
@[simp] theorem byteAccepted_rxCnt (b : Bytes) (s : State) :
    (byteAccepted b s).rxCnt = s.rxCnt := rfl
@[simp] theorem byteAccepted_rxNeed (b : Bytes) (s : State) :
    (byteAccepted b s).rxNeed = s.rxNeed := rfl
@[simp] theorem byteAccepted_busy (b : Bytes) (s : State) : (byteAccepted b s).busy = s.busy := rfl
@[simp] theorem byteAccepted_txActive (b : Bytes) (s : State) :
    (byteAccepted b s).txActive = s.txActive := rfl
@[simp] theorem byteAccepted_ivRxValid (b : Bytes) (s : State) :
    (byteAccepted b s).ivRxValid = s.ivRxValid := rfl
@[simp] theorem byteAccepted_ivTxValid (b : Bytes) (s : State) :
    (byteAccepted b s).ivTxValid = s.ivTxValid := rfl
@[simp] theorem byteAccepted_resultValid (b : Bytes) (s : State) :
    (byteAccepted b s).resultValid = s.resultValid := rfl
@[simp] theorem byteAccepted_cmdErr (b : Bytes) (s : State) :
    (byteAccepted b s).cmdErr = s.cmdErr := rfl
@[simp] theorem byteAccepted_coutKind (b : Bytes) (s : State) :
    (byteAccepted b s).coutKind = s.coutKind := rfl
@[simp] theorem byteAccepted_errReason (b : Bytes) (s : State) :
    (byteAccepted b s).errReason = s.errReason := rfl
@[simp] theorem byteAccepted_errCause (b : Bytes) (s : State) :
    (byteAccepted b s).errCause = s.errCause := rfl
@[simp] theorem byteAccepted_unitCause (b : Bytes) (s : State) :
    (byteAccepted b s).unitCause = s.unitCause := rfl
@[simp] theorem byteAccepted_verdict (b : Bytes) (s : State) :
    (byteAccepted b s).verdict = s.verdict := rfl
@[simp] theorem byteAccepted_cinLen (b : Bytes) (s : State) :
    (byteAccepted b s).cinLen = s.cinLen := rfl
@[simp] theorem byteAccepted_coutLen (b : Bytes) (s : State) :
    (byteAccepted b s).coutLen = s.coutLen := rfl
@[simp] theorem byteAccepted_unameSrcLen (b : Bytes) (s : State) :
    (byteAccepted b s).unameSrcLen = s.unameSrcLen := rfl
@[simp] theorem byteAccepted_mem (b : Bytes) (s : State) : (byteAccepted b s).mem = s.mem := rfl
@[simp] theorem byteAccepted_txStream (b : Bytes) (s : State) :
    (byteAccepted b s).txStream = s.txStream ++ b := rfl
@[simp] theorem byteAccepted_rxStream (b : Bytes) (s : State) :
    (byteAccepted b s).rxStream = s.rxStream := rfl
@[simp] theorem byteAccepted_txEvents (b : Bytes) (s : State) :
    (byteAccepted b s).txEvents = s.txEvents := rfl
@[simp] theorem byteAccepted_hostQueue (b : Bytes) (s : State) :
    (byteAccepted b s).hostQueue = s.hostQueue := rfl
@[simp] theorem byteAccepted_turns (b : Bytes) (s : State) :
    (byteAccepted b s).turns = s.turns := rfl
@[simp] theorem byteAccepted_lastRead (b : Bytes) (s : State) :
    (byteAccepted b s).lastRead = s.lastRead := rfl
@[simp] theorem byteAccepted_draws (b : Bytes) (s : State) :
    (byteAccepted b s).draws = s.draws := rfl

@[simp] theorem takeTxEvent_op (s : State) : (takeTxEvent s).op = s.op := rfl
@[simp] theorem takeTxEvent_left (s : State) : (takeTxEvent s).left = s.left := rfl
@[simp] theorem takeTxEvent_right (s : State) : (takeTxEvent s).right = s.right := rfl
@[simp] theorem takeTxEvent_result (s : State) : (takeTxEvent s).result = s.result := rfl
@[simp] theorem takeTxEvent_pstate (s : State) : (takeTxEvent s).pstate = s.pstate := rfl
@[simp] theorem takeTxEvent_txCnt (s : State) : (takeTxEvent s).txCnt = s.txCnt := rfl
@[simp] theorem takeTxEvent_txLen (s : State) : (takeTxEvent s).txLen = s.txLen := rfl
@[simp] theorem takeTxEvent_rxCnt (s : State) : (takeTxEvent s).rxCnt = s.rxCnt := rfl
@[simp] theorem takeTxEvent_rxNeed (s : State) : (takeTxEvent s).rxNeed = s.rxNeed := rfl
@[simp] theorem takeTxEvent_busy (s : State) : (takeTxEvent s).busy = s.busy := rfl
@[simp] theorem takeTxEvent_txActive (s : State) : (takeTxEvent s).txActive = s.txActive := rfl
@[simp] theorem takeTxEvent_ivRxValid (s : State) : (takeTxEvent s).ivRxValid = s.ivRxValid := rfl
@[simp] theorem takeTxEvent_ivTxValid (s : State) : (takeTxEvent s).ivTxValid = s.ivTxValid := rfl
@[simp] theorem takeTxEvent_resultValid (s : State) :
    (takeTxEvent s).resultValid = s.resultValid := rfl
@[simp] theorem takeTxEvent_cmdErr (s : State) : (takeTxEvent s).cmdErr = s.cmdErr := rfl
@[simp] theorem takeTxEvent_coutKind (s : State) : (takeTxEvent s).coutKind = s.coutKind := rfl
@[simp] theorem takeTxEvent_errReason (s : State) : (takeTxEvent s).errReason = s.errReason := rfl
@[simp] theorem takeTxEvent_errCause (s : State) : (takeTxEvent s).errCause = s.errCause := rfl
@[simp] theorem takeTxEvent_unitCause (s : State) : (takeTxEvent s).unitCause = s.unitCause := rfl
@[simp] theorem takeTxEvent_verdict (s : State) : (takeTxEvent s).verdict = s.verdict := rfl
@[simp] theorem takeTxEvent_cinLen (s : State) : (takeTxEvent s).cinLen = s.cinLen := rfl
@[simp] theorem takeTxEvent_coutLen (s : State) : (takeTxEvent s).coutLen = s.coutLen := rfl
@[simp] theorem takeTxEvent_unameSrcLen (s : State) :
    (takeTxEvent s).unameSrcLen = s.unameSrcLen := rfl
@[simp] theorem takeTxEvent_mem (s : State) : (takeTxEvent s).mem = s.mem := rfl
@[simp] theorem takeTxEvent_txStream (s : State) : (takeTxEvent s).txStream = s.txStream := rfl
@[simp] theorem takeTxEvent_rxStream (s : State) : (takeTxEvent s).rxStream = s.rxStream := rfl
@[simp] theorem takeTxEvent_txEvents (s : State) : (takeTxEvent s).txEvents = s.txEvents.tail := rfl
@[simp] theorem takeTxEvent_hostQueue (s : State) : (takeTxEvent s).hostQueue = s.hostQueue := rfl
@[simp] theorem takeTxEvent_turns (s : State) : (takeTxEvent s).turns = s.turns := rfl
@[simp] theorem takeTxEvent_lastRead (s : State) : (takeTxEvent s).lastRead = s.lastRead := rfl
@[simp] theorem takeTxEvent_draws (s : State) : (takeTxEvent s).draws = s.draws := rfl

@[simp] theorem takeRxEvent_op (s : State) : (takeRxEvent s).op = s.op := rfl
@[simp] theorem takeRxEvent_left (s : State) : (takeRxEvent s).left = s.left := rfl
@[simp] theorem takeRxEvent_right (s : State) : (takeRxEvent s).right = s.right := rfl
@[simp] theorem takeRxEvent_result (s : State) : (takeRxEvent s).result = s.result := rfl
@[simp] theorem takeRxEvent_pstate (s : State) : (takeRxEvent s).pstate = s.pstate := rfl
@[simp] theorem takeRxEvent_txCnt (s : State) : (takeRxEvent s).txCnt = s.txCnt := rfl
@[simp] theorem takeRxEvent_txLen (s : State) : (takeRxEvent s).txLen = s.txLen := rfl
@[simp] theorem takeRxEvent_rxCnt (s : State) : (takeRxEvent s).rxCnt = s.rxCnt := rfl
@[simp] theorem takeRxEvent_rxNeed (s : State) : (takeRxEvent s).rxNeed = s.rxNeed := rfl
@[simp] theorem takeRxEvent_busy (s : State) : (takeRxEvent s).busy = s.busy := rfl
@[simp] theorem takeRxEvent_txActive (s : State) : (takeRxEvent s).txActive = s.txActive := rfl
@[simp] theorem takeRxEvent_ivRxValid (s : State) : (takeRxEvent s).ivRxValid = s.ivRxValid := rfl
@[simp] theorem takeRxEvent_ivTxValid (s : State) : (takeRxEvent s).ivTxValid = s.ivTxValid := rfl
@[simp] theorem takeRxEvent_resultValid (s : State) :
    (takeRxEvent s).resultValid = s.resultValid := rfl
@[simp] theorem takeRxEvent_cmdErr (s : State) : (takeRxEvent s).cmdErr = s.cmdErr := rfl
@[simp] theorem takeRxEvent_coutKind (s : State) : (takeRxEvent s).coutKind = s.coutKind := rfl
@[simp] theorem takeRxEvent_errReason (s : State) : (takeRxEvent s).errReason = s.errReason := rfl
@[simp] theorem takeRxEvent_errCause (s : State) : (takeRxEvent s).errCause = s.errCause := rfl
@[simp] theorem takeRxEvent_unitCause (s : State) : (takeRxEvent s).unitCause = s.unitCause := rfl
@[simp] theorem takeRxEvent_verdict (s : State) : (takeRxEvent s).verdict = s.verdict := rfl
@[simp] theorem takeRxEvent_cinLen (s : State) : (takeRxEvent s).cinLen = s.cinLen := rfl
@[simp] theorem takeRxEvent_coutLen (s : State) : (takeRxEvent s).coutLen = s.coutLen := rfl
@[simp] theorem takeRxEvent_unameSrcLen (s : State) :
    (takeRxEvent s).unameSrcLen = s.unameSrcLen := rfl
@[simp] theorem takeRxEvent_mem (s : State) : (takeRxEvent s).mem = s.mem := rfl
@[simp] theorem takeRxEvent_txStream (s : State) : (takeRxEvent s).txStream = s.txStream := rfl
@[simp] theorem takeRxEvent_rxStream (s : State) : (takeRxEvent s).rxStream = s.rxStream.tail := rfl
@[simp] theorem takeRxEvent_txEvents (s : State) : (takeRxEvent s).txEvents = s.txEvents := rfl
@[simp] theorem takeRxEvent_hostQueue (s : State) : (takeRxEvent s).hostQueue = s.hostQueue := rfl
@[simp] theorem takeRxEvent_turns (s : State) : (takeRxEvent s).turns = s.turns := rfl
@[simp] theorem takeRxEvent_lastRead (s : State) : (takeRxEvent s).lastRead = s.lastRead := rfl
@[simp] theorem takeRxEvent_draws (s : State) : (takeRxEvent s).draws = s.draws := rfl

@[simp] theorem takeHostAction_op (s : State) : (takeHostAction s).op = s.op := rfl
@[simp] theorem takeHostAction_left (s : State) : (takeHostAction s).left = s.left := rfl
@[simp] theorem takeHostAction_right (s : State) : (takeHostAction s).right = s.right := rfl
@[simp] theorem takeHostAction_result (s : State) : (takeHostAction s).result = s.result := rfl
@[simp] theorem takeHostAction_pstate (s : State) : (takeHostAction s).pstate = s.pstate := rfl
@[simp] theorem takeHostAction_txCnt (s : State) : (takeHostAction s).txCnt = s.txCnt := rfl
@[simp] theorem takeHostAction_txLen (s : State) : (takeHostAction s).txLen = s.txLen := rfl
@[simp] theorem takeHostAction_rxCnt (s : State) : (takeHostAction s).rxCnt = s.rxCnt := rfl
@[simp] theorem takeHostAction_rxNeed (s : State) : (takeHostAction s).rxNeed = s.rxNeed := rfl
@[simp] theorem takeHostAction_busy (s : State) : (takeHostAction s).busy = s.busy := rfl
@[simp] theorem takeHostAction_txActive (s : State) :
    (takeHostAction s).txActive = s.txActive := rfl
@[simp] theorem takeHostAction_ivRxValid (s : State) :
    (takeHostAction s).ivRxValid = s.ivRxValid := rfl
@[simp] theorem takeHostAction_ivTxValid (s : State) :
    (takeHostAction s).ivTxValid = s.ivTxValid := rfl
@[simp] theorem takeHostAction_resultValid (s : State) :
    (takeHostAction s).resultValid = s.resultValid := rfl
@[simp] theorem takeHostAction_cmdErr (s : State) : (takeHostAction s).cmdErr = s.cmdErr := rfl
@[simp] theorem takeHostAction_coutKind (s : State) :
    (takeHostAction s).coutKind = s.coutKind := rfl
@[simp] theorem takeHostAction_errReason (s : State) :
    (takeHostAction s).errReason = s.errReason := rfl
@[simp] theorem takeHostAction_errCause (s : State) :
    (takeHostAction s).errCause = s.errCause := rfl
@[simp] theorem takeHostAction_unitCause (s : State) :
    (takeHostAction s).unitCause = s.unitCause := rfl
@[simp] theorem takeHostAction_verdict (s : State) : (takeHostAction s).verdict = s.verdict := rfl
@[simp] theorem takeHostAction_cinLen (s : State) : (takeHostAction s).cinLen = s.cinLen := rfl
@[simp] theorem takeHostAction_coutLen (s : State) : (takeHostAction s).coutLen = s.coutLen := rfl
@[simp] theorem takeHostAction_unameSrcLen (s : State) :
    (takeHostAction s).unameSrcLen = s.unameSrcLen := rfl
@[simp] theorem takeHostAction_mem (s : State) : (takeHostAction s).mem = s.mem := rfl
@[simp] theorem takeHostAction_txStream (s : State) :
    (takeHostAction s).txStream = s.txStream := rfl
@[simp] theorem takeHostAction_rxStream (s : State) :
    (takeHostAction s).rxStream = s.rxStream := rfl
@[simp] theorem takeHostAction_txEvents (s : State) :
    (takeHostAction s).txEvents = s.txEvents := rfl
@[simp] theorem takeHostAction_hostQueue (s : State) :
    (takeHostAction s).hostQueue = s.hostQueue.tail := rfl
@[simp] theorem takeHostAction_turns (s : State) : (takeHostAction s).turns = s.turns := rfl
@[simp] theorem takeHostAction_lastRead (s : State) :
    (takeHostAction s).lastRead = s.lastRead := rfl
@[simp] theorem takeHostAction_draws (s : State) : (takeHostAction s).draws = s.draws := rfl

@[simp] theorem noteRead_op (d : HostData) (s : State) : (noteRead d s).op = s.op := rfl
@[simp] theorem noteRead_left (d : HostData) (s : State) : (noteRead d s).left = s.left := rfl
@[simp] theorem noteRead_right (d : HostData) (s : State) : (noteRead d s).right = s.right := rfl
@[simp] theorem noteRead_result (d : HostData) (s : State) : (noteRead d s).result = s.result := rfl
@[simp] theorem noteRead_pstate (d : HostData) (s : State) : (noteRead d s).pstate = s.pstate := rfl
@[simp] theorem noteRead_txCnt (d : HostData) (s : State) : (noteRead d s).txCnt = s.txCnt := rfl
@[simp] theorem noteRead_txLen (d : HostData) (s : State) : (noteRead d s).txLen = s.txLen := rfl
@[simp] theorem noteRead_rxCnt (d : HostData) (s : State) : (noteRead d s).rxCnt = s.rxCnt := rfl
@[simp] theorem noteRead_rxNeed (d : HostData) (s : State) : (noteRead d s).rxNeed = s.rxNeed := rfl
@[simp] theorem noteRead_busy (d : HostData) (s : State) : (noteRead d s).busy = s.busy := rfl
@[simp] theorem noteRead_txActive (d : HostData) (s : State) :
    (noteRead d s).txActive = s.txActive := rfl
@[simp] theorem noteRead_ivRxValid (d : HostData) (s : State) :
    (noteRead d s).ivRxValid = s.ivRxValid := rfl
@[simp] theorem noteRead_ivTxValid (d : HostData) (s : State) :
    (noteRead d s).ivTxValid = s.ivTxValid := rfl
@[simp] theorem noteRead_resultValid (d : HostData) (s : State) :
    (noteRead d s).resultValid = s.resultValid := rfl
@[simp] theorem noteRead_cmdErr (d : HostData) (s : State) : (noteRead d s).cmdErr = s.cmdErr := rfl
@[simp] theorem noteRead_coutKind (d : HostData) (s : State) :
    (noteRead d s).coutKind = s.coutKind := rfl
@[simp] theorem noteRead_errReason (d : HostData) (s : State) :
    (noteRead d s).errReason = s.errReason := rfl
@[simp] theorem noteRead_errCause (d : HostData) (s : State) :
    (noteRead d s).errCause = s.errCause := rfl
@[simp] theorem noteRead_unitCause (d : HostData) (s : State) :
    (noteRead d s).unitCause = s.unitCause := rfl
@[simp] theorem noteRead_verdict (d : HostData) (s : State) :
    (noteRead d s).verdict = s.verdict := rfl
@[simp] theorem noteRead_cinLen (d : HostData) (s : State) : (noteRead d s).cinLen = s.cinLen := rfl
@[simp] theorem noteRead_coutLen (d : HostData) (s : State) :
    (noteRead d s).coutLen = s.coutLen := rfl
@[simp] theorem noteRead_unameSrcLen (d : HostData) (s : State) :
    (noteRead d s).unameSrcLen = s.unameSrcLen := rfl
@[simp] theorem noteRead_mem (d : HostData) (s : State) : (noteRead d s).mem = s.mem := rfl
@[simp] theorem noteRead_txStream (d : HostData) (s : State) :
    (noteRead d s).txStream = s.txStream := rfl
@[simp] theorem noteRead_rxStream (d : HostData) (s : State) :
    (noteRead d s).rxStream = s.rxStream := rfl
@[simp] theorem noteRead_txEvents (d : HostData) (s : State) :
    (noteRead d s).txEvents = s.txEvents := rfl
@[simp] theorem noteRead_hostQueue (d : HostData) (s : State) :
    (noteRead d s).hostQueue = s.hostQueue := rfl
@[simp] theorem noteRead_turns (d : HostData) (s : State) : (noteRead d s).turns = s.turns := rfl
@[simp] theorem noteRead_lastRead (d : HostData) (s : State) :
    (noteRead d s).lastRead = some d := rfl
@[simp] theorem noteRead_draws (d : HostData) (s : State) : (noteRead d s).draws = s.draws := rfl

@[simp] theorem nextTurn_op (s : State) : s.nextTurn.op = s.op := rfl
@[simp] theorem nextTurn_left (s : State) : s.nextTurn.left = s.left := rfl
@[simp] theorem nextTurn_right (s : State) : s.nextTurn.right = s.right := rfl
@[simp] theorem nextTurn_result (s : State) : s.nextTurn.result = s.result := rfl
@[simp] theorem nextTurn_pstate (s : State) : s.nextTurn.pstate = s.pstate := rfl
@[simp] theorem nextTurn_txCnt (s : State) : s.nextTurn.txCnt = s.txCnt := rfl
@[simp] theorem nextTurn_txLen (s : State) : s.nextTurn.txLen = s.txLen := rfl
@[simp] theorem nextTurn_rxCnt (s : State) : s.nextTurn.rxCnt = s.rxCnt := rfl
@[simp] theorem nextTurn_rxNeed (s : State) : s.nextTurn.rxNeed = s.rxNeed := rfl
@[simp] theorem nextTurn_busy (s : State) : s.nextTurn.busy = s.busy := rfl
@[simp] theorem nextTurn_txActive (s : State) : s.nextTurn.txActive = s.txActive := rfl
@[simp] theorem nextTurn_ivRxValid (s : State) : s.nextTurn.ivRxValid = s.ivRxValid := rfl
@[simp] theorem nextTurn_ivTxValid (s : State) : s.nextTurn.ivTxValid = s.ivTxValid := rfl
@[simp] theorem nextTurn_resultValid (s : State) : s.nextTurn.resultValid = s.resultValid := rfl
@[simp] theorem nextTurn_cmdErr (s : State) : s.nextTurn.cmdErr = s.cmdErr := rfl
@[simp] theorem nextTurn_coutKind (s : State) : s.nextTurn.coutKind = s.coutKind := rfl
@[simp] theorem nextTurn_errReason (s : State) : s.nextTurn.errReason = s.errReason := rfl
@[simp] theorem nextTurn_errCause (s : State) : s.nextTurn.errCause = s.errCause := rfl
@[simp] theorem nextTurn_unitCause (s : State) : s.nextTurn.unitCause = s.unitCause := rfl
@[simp] theorem nextTurn_verdict (s : State) : s.nextTurn.verdict = s.verdict := rfl
@[simp] theorem nextTurn_cinLen (s : State) : s.nextTurn.cinLen = s.cinLen := rfl
@[simp] theorem nextTurn_coutLen (s : State) : s.nextTurn.coutLen = s.coutLen := rfl
@[simp] theorem nextTurn_unameSrcLen (s : State) : s.nextTurn.unameSrcLen = s.unameSrcLen := rfl
@[simp] theorem nextTurn_mem (s : State) : s.nextTurn.mem = s.mem := rfl
@[simp] theorem nextTurn_txStream (s : State) : s.nextTurn.txStream = s.txStream := rfl
@[simp] theorem nextTurn_rxStream (s : State) : s.nextTurn.rxStream = s.rxStream := rfl
@[simp] theorem nextTurn_txEvents (s : State) : s.nextTurn.txEvents = s.txEvents := rfl
@[simp] theorem nextTurn_hostQueue (s : State) : s.nextTurn.hostQueue = s.hostQueue := rfl
@[simp] theorem nextTurn_turns (s : State) : s.nextTurn.turns = s.turns.tail := rfl
@[simp] theorem nextTurn_lastRead (s : State) : s.nextTurn.lastRead = s.lastRead := rfl
@[simp] theorem nextTurn_draws (s : State) : s.nextTurn.draws = s.draws := rfl

@[simp] theorem putBytes_op (sp : Space) (off : Nat) (data : Bytes) (s : State) :
    (putBytes sp off data s).op = s.op := rfl
@[simp] theorem putBytes_left (sp : Space) (off : Nat) (data : Bytes) (s : State) :
    (putBytes sp off data s).left = s.left := rfl
@[simp] theorem putBytes_right (sp : Space) (off : Nat) (data : Bytes) (s : State) :
    (putBytes sp off data s).right = s.right := rfl
@[simp] theorem putBytes_result (sp : Space) (off : Nat) (data : Bytes) (s : State) :
    (putBytes sp off data s).result = s.result := rfl
@[simp] theorem putBytes_pstate (sp : Space) (off : Nat) (data : Bytes) (s : State) :
    (putBytes sp off data s).pstate = s.pstate := rfl
@[simp] theorem putBytes_txCnt (sp : Space) (off : Nat) (data : Bytes) (s : State) :
    (putBytes sp off data s).txCnt = s.txCnt := rfl
@[simp] theorem putBytes_txLen (sp : Space) (off : Nat) (data : Bytes) (s : State) :
    (putBytes sp off data s).txLen = s.txLen := rfl
@[simp] theorem putBytes_rxCnt (sp : Space) (off : Nat) (data : Bytes) (s : State) :
    (putBytes sp off data s).rxCnt = s.rxCnt := rfl
@[simp] theorem putBytes_rxNeed (sp : Space) (off : Nat) (data : Bytes) (s : State) :
    (putBytes sp off data s).rxNeed = s.rxNeed := rfl
@[simp] theorem putBytes_busy (sp : Space) (off : Nat) (data : Bytes) (s : State) :
    (putBytes sp off data s).busy = s.busy := rfl
@[simp] theorem putBytes_txActive (sp : Space) (off : Nat) (data : Bytes) (s : State) :
    (putBytes sp off data s).txActive = s.txActive := rfl
@[simp] theorem putBytes_ivRxValid (sp : Space) (off : Nat) (data : Bytes) (s : State) :
    (putBytes sp off data s).ivRxValid = (s.ivRxValid || (sp == .ivRx && off == 0 && data.length == Config.ivLen)) := rfl
@[simp] theorem putBytes_ivTxValid (sp : Space) (off : Nat) (data : Bytes) (s : State) :
    (putBytes sp off data s).ivTxValid = s.ivTxValid := rfl
@[simp] theorem putBytes_resultValid (sp : Space) (off : Nat) (data : Bytes) (s : State) :
    (putBytes sp off data s).resultValid = s.resultValid := rfl
@[simp] theorem putBytes_cmdErr (sp : Space) (off : Nat) (data : Bytes) (s : State) :
    (putBytes sp off data s).cmdErr = s.cmdErr := rfl
@[simp] theorem putBytes_coutKind (sp : Space) (off : Nat) (data : Bytes) (s : State) :
    (putBytes sp off data s).coutKind = s.coutKind := rfl
@[simp] theorem putBytes_errReason (sp : Space) (off : Nat) (data : Bytes) (s : State) :
    (putBytes sp off data s).errReason = s.errReason := rfl
@[simp] theorem putBytes_errCause (sp : Space) (off : Nat) (data : Bytes) (s : State) :
    (putBytes sp off data s).errCause = s.errCause := rfl
@[simp] theorem putBytes_unitCause (sp : Space) (off : Nat) (data : Bytes) (s : State) :
    (putBytes sp off data s).unitCause = s.unitCause := rfl
@[simp] theorem putBytes_verdict (sp : Space) (off : Nat) (data : Bytes) (s : State) :
    (putBytes sp off data s).verdict = s.verdict := rfl
@[simp] theorem putBytes_cinLen (sp : Space) (off : Nat) (data : Bytes) (s : State) :
    (putBytes sp off data s).cinLen = s.cinLen := rfl
@[simp] theorem putBytes_coutLen (sp : Space) (off : Nat) (data : Bytes) (s : State) :
    (putBytes sp off data s).coutLen = s.coutLen := rfl
@[simp] theorem putBytes_unameSrcLen (sp : Space) (off : Nat) (data : Bytes) (s : State) :
    (putBytes sp off data s).unameSrcLen = s.unameSrcLen := rfl
@[simp] theorem putBytes_mem (sp : Space) (off : Nat) (data : Bytes) (s : State) :
    (putBytes sp off data s).mem = s.mem.writeRange (sp.addr off) data := rfl
@[simp] theorem putBytes_txStream (sp : Space) (off : Nat) (data : Bytes) (s : State) :
    (putBytes sp off data s).txStream = s.txStream := rfl
@[simp] theorem putBytes_rxStream (sp : Space) (off : Nat) (data : Bytes) (s : State) :
    (putBytes sp off data s).rxStream = s.rxStream := rfl
@[simp] theorem putBytes_txEvents (sp : Space) (off : Nat) (data : Bytes) (s : State) :
    (putBytes sp off data s).txEvents = s.txEvents := rfl
@[simp] theorem putBytes_hostQueue (sp : Space) (off : Nat) (data : Bytes) (s : State) :
    (putBytes sp off data s).hostQueue = s.hostQueue := rfl
@[simp] theorem putBytes_turns (sp : Space) (off : Nat) (data : Bytes) (s : State) :
    (putBytes sp off data s).turns = s.turns := rfl
@[simp] theorem putBytes_lastRead (sp : Space) (off : Nat) (data : Bytes) (s : State) :
    (putBytes sp off data s).lastRead = s.lastRead := rfl
@[simp] theorem putBytes_draws (sp : Space) (off : Nat) (data : Bytes) (s : State) :
    (putBytes sp off data s).draws = s.draws := rfl

end Sys2Proof.Machine
end

