-- ==== Sys2Proof/Laws/Memory.lean ====
section
/-! SUPPORT. The laws of memory: reading after writing, and that every memory operation keeps the canonical
form and the map of arrays. -/

namespace Sys2Proof.Machine

theorem Memory.read_write_same (m : Memory) (a : Nat) (v : Byte) : (m.write a v).read a = some v := by
  induction m with
  | nil => simp [Memory.write, Memory.read]
  | cons c m ih =>
    obtain ⟨x, b⟩ := c
    simp only [Memory.write]
    split
    · simp [Memory.read]
    · split
      · simp [Memory.read, *]
      · simp [Memory.read, *]

theorem Memory.read_write_other (m : Memory) {a x : Nat} (v : Byte) (h : x ≠ a) :
    (m.write a v).read x = m.read x := by
  induction m with
  | nil => simp [Memory.write, Memory.read, h]
  | cons c m ih =>
    obtain ⟨y, b⟩ := c
    simp only [Memory.write]
    split
    · simp [Memory.read, h]
    · split
      · rename_i h2
        subst h2
        simp [Memory.read, h]
      · simp [Memory.read, ih]

/-- Outside the bytes written, a range write changes nothing. -/
theorem Memory.read_writeRange_other (m : Memory) (a : Nat) (bs : Bytes) {x : Nat}
    (h : ¬(a ≤ x ∧ x < a + bs.length)) : (m.writeRange a bs).read x = m.read x := by
  induction bs generalizing m a with
  | nil => rfl
  | cons b bs ih =>
    simp only [List.length_cons] at h
    simp only [Memory.writeRange]
    rw [ih (m.write a b) (a + 1) (by omega), Memory.read_write_other m b (by omega)]

/-- Inside the bytes written, a range write leaves them. -/
theorem Memory.read_writeRange_same (m : Memory) (a : Nat) (bs : Bytes) {i : Nat}
    (h : i < bs.length) : (m.writeRange a bs).read (a + i) = some bs[i] := by
  induction bs generalizing m a i with
  | nil => simp at h
  | cons b bs ih =>
    simp only [Memory.writeRange]
    cases i with
    | zero =>
      rw [Memory.read_writeRange_other _ _ _ (by omega)]
      simpa using Memory.read_write_same m a b
    | succ j =>
      have := ih (m.write a b) (a + 1) (i := j) (by simpa using h)
      rw [show a + (j + 1) = a + 1 + j by omega, this]
      simp

/-- Reading a range depends on its bytes alone. -/
theorem Memory.readRange_congr {m m' : Memory} {a n : Nat}
    (h : ∀ x, a ≤ x → x < a + n → m'.read x = m.read x) : m'.readRange a n = m.readRange a n := by
  induction n generalizing a with
  | zero => rfl
  | succ n ih =>
    simp only [Memory.readRange]
    rw [h a (Nat.le_refl _) (by omega), ih (fun x h1 h2 => h x (by omega) (by omega))]

theorem Memory.readRange_writeRange_same (m : Memory) (a : Nat) (bs : Bytes) :
    (m.writeRange a bs).readRange a bs.length = some bs := by
  induction bs generalizing m a with
  | nil => rfl
  | cons b bs ih =>
    simp only [Memory.writeRange, List.length_cons, Memory.readRange]
    rw [Memory.read_writeRange_other _ _ _ (by omega), Memory.read_write_same, ih]

theorem Memory.readRange_writeRange_other (m : Memory) (a : Nat) (bs : Bytes) {x n : Nat}
    (h : x + n ≤ a ∨ a + bs.length ≤ x) : (m.writeRange a bs).readRange x n = m.readRange x n :=
  Memory.readRange_congr fun y _ _ => Memory.read_writeRange_other m a bs (by omega)

theorem Memory.readRange_length {m : Memory} {a n : Nat} {bs : Bytes}
    (h : m.readRange a n = some bs) : bs.length = n := by
  induction n generalizing a bs with
  | zero => simp [Memory.readRange] at h; simp [← h]
  | succ n ih =>
    simp only [Memory.readRange] at h
    split at h
    · rename_i b bs' _ h2
      cases h
      simp [ih h2]
    · cases h

/-- A range is readable exactly when each of its bytes holds a value. -/
theorem Memory.readRange_isSome {m : Memory} {a n : Nat} :
    (m.readRange a n).isSome = true ↔ ∀ i, i < n → (m.read (a + i)).isSome = true := by
  induction n generalizing a with
  | zero => simp [Memory.readRange]
  | succ n ih =>
    simp only [Memory.readRange]
    constructor
    · intro h
      split at h
      · rename_i b bs h1 h2
        have h3 := ih.mp (by rw [h2]; rfl)
        intro i hi
        cases i with
        | zero => simp [h1]
        | succ j => rw [show a + (j + 1) = a + 1 + j by omega]; exact h3 j (by omega)
      · cases h
    · intro h
      have h0 := h 0 (by omega)
      have h1 : (m.readRange (a + 1) n).isSome = true := ih.mpr fun j hj => by
        rw [show a + 1 + j = a + (j + 1) by omega]; exact h (j + 1) (by omega)
      obtain ⟨b, hb⟩ := Option.isSome_iff_exists.mp h0
      obtain ⟨bs, hbs⟩ := Option.isSome_iff_exists.mp h1
      simp only [Nat.add_zero] at hb
      simp [hb, hbs]

/-- Every address of a canonical memory after its first cell lies above it. -/
theorem Memory.wf_cons {c : Host.Cell} {m : Memory} (h : Memory.wf (c :: m) = true) :
    Memory.wf m = true ∧ ∀ d ∈ m, c.1 < d.1 := by
  induction m generalizing c with
  | nil => simp [Memory.wf]
  | cons e m ih =>
    obtain ⟨x, b⟩ := c
    obtain ⟨y, b'⟩ := e
    simp only [Memory.wf, Bool.and_eq_true, decide_eq_true_eq] at h
    refine ⟨h.2, ?_⟩
    intro d hd
    rcases List.mem_cons.mp hd with rfl | hd
    · exact h.1
    · exact Nat.lt_trans h.1 ((ih h.2).2 d hd)

theorem Memory.wf_of_cons {c : Host.Cell} {m : Memory} (hm : Memory.wf m = true)
    (h : ∀ d ∈ m, c.1 < d.1) : Memory.wf (c :: m) = true := by
  cases m with
  | nil => rfl
  | cons e m =>
    simp only [Memory.wf, Bool.and_eq_true, decide_eq_true_eq]
    exact ⟨h e (by simp), hm⟩

theorem Memory.mem_write {m : Memory} {a : Nat} {v : Byte} {d : Host.Cell}
    (h : d ∈ m.write a v) : d = (a, v) ∨ d ∈ m := by
  induction m with
  | nil => simpa [Memory.write] using h
  | cons c m ih =>
    obtain ⟨y, b⟩ := c
    simp only [Memory.write] at h
    split at h
    · simpa using h
    · split at h
      · rename_i hay
        subst hay
        rcases List.mem_cons.mp h with rfl | h
        · exact .inl rfl
        · exact .inr (List.mem_cons_of_mem _ h)
      · rcases List.mem_cons.mp h with rfl | h
        · exact .inr (by simp)
        · rcases ih h with h | h
          · exact .inl h
          · exact .inr (List.mem_cons_of_mem _ h)

/-- A byte write keeps the canonical form. -/
theorem Memory.wf_write {m : Memory} (h : m.wf = true) (a : Nat) (v : Byte) :
    (m.write a v).wf = true := by
  induction m with
  | nil => rfl
  | cons c m ih =>
    obtain ⟨y, b⟩ := c
    obtain ⟨hm, hlt⟩ := Memory.wf_cons h
    simp only [Memory.write]
    split
    · rename_i hay
      refine Memory.wf_of_cons h ?_
      intro d hd
      rcases List.mem_cons.mp hd with rfl | hd
      · exact hay
      · exact Nat.lt_trans hay (hlt d hd)
    · split
      · rename_i hay
        subst hay
        exact Memory.wf_of_cons hm hlt
      · refine Memory.wf_of_cons (ih hm) ?_
        intro d hd
        rcases Memory.mem_write hd with rfl | hd
        · simp only; omega
        · exact hlt d hd

/-- A range write keeps the canonical form. -/
theorem Memory.wf_writeRange {m : Memory} (h : m.wf = true) (a : Nat) (bs : Bytes) :
    (m.writeRange a bs).wf = true := by
  induction bs generalizing m a with
  | nil => exact h
  | cons b bs ih => exact ih (Memory.wf_write h a b) (a + 1)

theorem Memory.mapped_write {m : Memory} (h : m.mapped = true) {a : Nat} (ha : addressMapped a = true)
    (v : Byte) : (m.write a v).mapped = true := by
  simp only [Memory.mapped, List.all_eq_true] at *
  intro d hd
  rcases Memory.mem_write hd with rfl | hd
  · exact ha
  · exact h d hd

/-- An index of an array is an address of the map. -/
theorem addressMapped_addr {sp : Space} {i : Nat} (h : i < sp.size) :
    addressMapped (sp.addr i) = true := by
  simp only [addressMapped, List.any_eq_true, Bool.and_eq_true, decide_eq_true_eq]
  refine ⟨sp, by cases sp <;> simp, ?_⟩
  simp only [Space.addr]
  omega

/-- A range write inside an array keeps the map. -/
theorem Memory.mapped_writeRange {m : Memory} (h : m.mapped = true) {sp : Space} {off : Nat}
    {bs : Bytes} (hb : off + bs.length ≤ sp.size) :
    (m.writeRange (sp.addr off) bs).mapped = true := by
  induction bs generalizing m off with
  | nil => exact h
  | cons b bs ih =>
    simp only [List.length_cons] at hb
    have e : sp.addr off + 1 = sp.addr (off + 1) := by simp only [Space.addr]; omega
    rw [Memory.writeRange, e]
    exact ih (off := off + 1)
      (Memory.mapped_write h (addressMapped_addr (sp := sp) (i := off) (by omega)) b) (by omega)

end Sys2Proof.Machine
end

