-- ==== Sys2Proof/Laws/Buffers.lean ====
section
/-! SUPPORT. The laws of the byte arrays: reading one after a write to it or to another. -/

namespace Sys2Proof.Machine

/-- `UNAME_SRC_MAX` is from 20 to 255, whatever the open choice is (R9, D16). -/
theorem unameSrcMax_bounds : 20 ≤ Config.unameSrcMax ∧ Config.unameSrcMax ≤ 255 := by
  have := Nat.mod_lt Config.unameSrcChoice (show 0 < 236 by omega)
  simp only [Config.unameSrcMax]
  omega

theorem Space.size_le (sp : Space) : sp.size ≤ 255 := by
  have := unameSrcMax_bounds.2
  cases sp <;> first | exact this | decide

theorem State.readBytes_eq {s : State} {sp : Space} {off n : Nat} (h : off + n ≤ sp.size) :
    s.readBytes sp off n = s.mem.readRange (sp.addr off) n := if_pos h

theorem State.readBytes_some {s : State} {sp : Space} {off n : Nat} {bs : Bytes}
    (h : s.readBytes sp off n = some bs) :
    off + n ≤ sp.size ∧ s.mem.readRange (sp.addr off) n = some bs := by
  unfold State.readBytes at h
  split at h
  · exact ⟨‹_›, h⟩
  · cases h

theorem State.readBytes_length {s : State} {sp : Space} {off n : Nat} {bs : Bytes}
    (h : s.readBytes sp off n = some bs) : bs.length = n :=
  Memory.readRange_length (State.readBytes_some h).2

/-- Two states with equal buffers read alike. -/
theorem State.readBytes_congr {s t : State} (h : t.mem = s.mem) (sp : Space) (off n : Nat) :
    t.readBytes sp off n = s.readBytes sp off n := by
  unfold State.readBytes
  rw [h]

/-- A readable range is a range of written bytes. -/
theorem State.readBytes_isSome {s : State} {sp : Space} {off n : Nat} :
    (s.readBytes sp off n).isSome = true ↔
      off + n ≤ sp.size ∧ ∀ i, i < n → (s.mem.read (sp.addr off + i)).isSome = true := by
  unfold State.readBytes
  split
  · simp [Memory.readRange_isSome, *]
  · simp [*]

/-- What a write to an array leaves there. -/
theorem State.readBytes_writeBytes_same (s : State) (sp : Space) (off : Nat) (bs : Bytes)
    (h : off + bs.length ≤ sp.size) : (s.writeBytes sp off bs).readBytes sp off bs.length = some bs := by
  rw [State.readBytes_eq h]
  exact Memory.readRange_writeRange_same _ _ _

/-- A write to one array leaves another as it was, as long as it stays in the array's own page. -/
theorem State.readBytes_writeBytes_other (s : State) {sp sp' : Space} (off : Nat) (bs : Bytes)
    (off' n : Nat) (hne : sp' ≠ sp) (h : off + bs.length ≤ 256) :
    (s.writeBytes sp off bs).readBytes sp' off' n = s.readBytes sp' off' n := by
  unfold State.readBytes
  split
  · rename_i hn
    have hsz := sp'.size_le
    refine Memory.readRange_writeRange_other _ _ _ ?_
    revert hne
    cases sp <;> cases sp' <;> simp [Space.addr, Space.number] <;> omega
  · rfl

/-- A write elsewhere in the same array leaves the range as it was. -/
theorem State.readBytes_writeBytes_apart (s : State) (sp : Space) (off : Nat) (bs : Bytes)
    (off' n : Nat) (h : off' + n ≤ off ∨ off + bs.length ≤ off') :
    (s.writeBytes sp off bs).readBytes sp off' n = s.readBytes sp off' n := by
  unfold State.readBytes
  split
  · exact Memory.readRange_writeRange_other _ _ _ (by simp only [Space.addr]; omega)
  · rfl

/-- A write never takes a value away. -/
theorem State.readBytes_writeBytes_isSome (s : State) (sp : Space) (off : Nat) (bs : Bytes)
    (sp' : Space) (off' n : Nat) (h : (s.readBytes sp' off' n).isSome = true) :
    ((s.writeBytes sp off bs).readBytes sp' off' n).isSome = true := by
  rw [State.readBytes_isSome] at *
  refine ⟨h.1, fun i hi => ?_⟩
  simp only [writeBytes_mem]
  by_cases hin : sp.addr off ≤ sp'.addr off' + i ∧ sp'.addr off' + i < sp.addr off + bs.length
  · obtain ⟨j, hj⟩ := Nat.exists_eq_add_of_le hin.1
    rw [hj, Memory.read_writeRange_same _ _ _ (by omega)]
    rfl
  · rw [Memory.read_writeRange_other _ _ _ hin]
    exact h.2 i hi

/-- A write of an array stores its bytes and nothing else. -/
theorem State.writeBytes_stored (s : State) (sp : Space) (off : Nat) (bs : Bytes) :
    Stored sp off bs s.mem (s.writeBytes sp off bs).mem :=
  ⟨Memory.readRange_writeRange_same _ _ _, fun _ ha => Memory.read_writeRange_other _ _ _ ha⟩

end Sys2Proof.Machine
end

