-- ==== Sys2Proof/Laws/Cipher.lean ====
section
/-! SUPPORT. The lengths of what the pure functions of the Crypto Engine compute. -/

namespace Sys2Proof.Machine

theorem pad_length (p : Bytes) : (pad p).length = 16 * (p.length / 16 + 1) := by
  simp only [pad, List.length_append, List.length_replicate]
  omega

/-- Where `Unpad` succeeds it takes off 1 to 16 bytes (R132). -/
theorem unpad_some {m u : Bytes} (h : unpad m = some u) :
    ∃ v, 1 ≤ v ∧ v ≤ 16 ∧ u = m.take (m.length - v) := by
  simp only [unpad] at h
  split at h
  · cases h
  · rename_i hv
    split at h
    · cases h
      exact ⟨(m.getLastD 0).toNat, by omega, by omega, rfl⟩
    · cases h

/-- The blocks of a message of `16 * n` bytes are `n` blocks of sixteen bytes. -/
theorem blocksOf_length (n : Nat) (m : Bytes) (h : m.length = 16 * n) :
    (blocksOf n m).length = n ∧ ∀ b ∈ blocksOf n m, b.length = 16 := by
  induction n generalizing m with
  | zero => exact ⟨rfl, fun b hb => by cases hb⟩
  | succ n ih =>
    obtain ⟨h1, h2⟩ := ih (m.drop 16) (by rw [List.length_drop]; omega)
    refine ⟨by rw [blocksOf, List.length_cons, h1], fun b hb => ?_⟩
    rcases List.mem_cons.mp hb with rfl | hb
    · rw [List.length_take]; omega
    · exact h2 b hb

theorem cbcEncBlocks_length {enc : Bytes → Bytes → Bytes} {k : Bytes}
    (he : ∀ x, x.length = 16 → (enc k x).length = 16) (bs : List Bytes) (c : Bytes)
    (hc : c.length = 16) (hb : ∀ b ∈ bs, b.length = 16) :
    (cbcEncBlocks enc k c bs).length = 16 * bs.length := by
  induction bs generalizing c with
  | nil => rfl
  | cons b bs ih =>
    have h1 : (xorBytes b c).length = 16 := by
      simp [xorBytes, hc, hb b (by simp)]
    have h2 := he _ h1
    rw [cbcEncBlocks, List.length_append, h2,
      ih _ h2 fun x hx => hb x (List.mem_cons_of_mem _ hx), List.length_cons]
    omega

theorem cbcDecBlocks_length {dec : Bytes → Bytes → Bytes} {k : Bytes}
    (hd : ∀ x, x.length = 16 → (dec k x).length = 16) (bs : List Bytes) (c : Bytes)
    (hc : c.length = 16) (hb : ∀ b ∈ bs, b.length = 16) :
    (cbcDecBlocks dec k c bs).length = 16 * bs.length := by
  induction bs generalizing c with
  | nil => rfl
  | cons b bs ih =>
    have h0 := hb b (by simp)
    have h1 : (xorBytes (dec k b) c).length = 16 := by
      simp [xorBytes, hc, hd b h0]
    rw [cbcDecBlocks, List.length_append, h1,
      ih b h0 fun x hx => hb x (List.mem_cons_of_mem _ hx), List.length_cons]
    omega

/-- CBC encryption keeps the length of a message of whole blocks (R133). -/
theorem cbcEnc_length {enc : Bytes → Bytes → Bytes} {k iv m : Bytes} {n : Nat}
    (he : ∀ x, x.length = 16 → (enc k x).length = 16) (hiv : iv.length = 16)
    (hm : m.length = 16 * n) : (cbcEnc enc k iv m).length = 16 * n := by
  obtain ⟨h1, h2⟩ := blocksOf_length n m hm
  rw [cbcEnc, show m.length / 16 = n by omega, cbcEncBlocks_length he _ _ hiv h2, h1]

/-- CBC decryption keeps the length of a message of whole blocks (R134). -/
theorem cbcDec_length {dec : Bytes → Bytes → Bytes} {k iv m : Bytes} {n : Nat}
    (hd : ∀ x, x.length = 16 → (dec k x).length = 16) (hiv : iv.length = 16)
    (hm : m.length = 16 * n) : (cbcDec dec k iv m).length = 16 * n := by
  obtain ⟨h1, h2⟩ := blocksOf_length n m hm
  rw [cbcDec, show m.length / 16 = n by omega, cbcDecBlocks_length hd _ _ hiv h2, h1]

/-- A length that `Decrypt` accepts (R106, R136). -/
theorem validCtLen_iff (n : Nat) : validCtLen n = true ↔ 0 < n ∧ n % 16 = 0 ∧ n ≤ 128 := by
  simp only [validCtLen, Bool.and_eq_true, bne_iff_ne, beq_iff_eq, decide_eq_true_eq]
  simp only [Config.ctMax]
  omega

/-- What `Decrypt` answers is shorter than the ciphertext (R136). -/
theorem cbcDecrypt_length_lt {dec : Bytes → Bytes → Bytes} {c k iv : Bytes}
    (hd : ∀ x, x.length = 16 → (dec k x).length = 16) (hiv : iv.length = 16)
    (hne : (cbcDecrypt dec c k iv).length ≠ 0) :
    (cbcDecrypt dec c k iv).length < c.length ∧ c.length ≤ 128 := by
  unfold cbcDecrypt at *
  split at hne
  · rename_i hv
    rw [if_pos hv]
    obtain ⟨h0, h16, h128⟩ := (validCtLen_iff _).mp hv
    have hl := cbcDec_length hd hiv (show c.length = 16 * (c.length / 16) by omega)
    cases hu : unpad (cbcDec dec k iv c) with
    | none => simp [hu] at hne
    | some u =>
      obtain ⟨v, h1, h2, rfl⟩ := unpad_some hu
      simp only [Option.getD_some, List.length_take]
      omega
  · exact absurd rfl hne

end Sys2Proof.Machine
end

