-- ==== Sys2Proof/Laws/Encoding.lean ====
section
/-! SUPPORT. The laws of byte order: big-endian strings and their values are each other's inverse. -/

namespace Sys2Proof

theorem toBE_length (k v : Nat) : (toBE k v).length = k := by
  induction k with
  | zero => rfl
  | succ k ih => rw [toBE, List.length_cons, ih]

theorem fromBE_foldl (bs : Bytes) (a : Nat) :
    bs.foldl (fun acc b => acc * 256 + b.toNat) a = a * 256 ^ bs.length + fromBE bs := by
  induction bs generalizing a with
  | nil => simp [fromBE]
  | cons b bs ih =>
    unfold fromBE
    simp only [List.foldl_cons, List.length_cons]
    rw [ih, ih (0 * 256 + b.toNat)]
    ring

/-- The first byte is the most significant one (R11). -/
theorem fromBE_cons (b : Byte) (bs : Bytes) :
    fromBE (b :: bs) = b.toNat * 256 ^ bs.length + fromBE bs := by
  have := fromBE_foldl bs b.toNat
  unfold fromBE at *
  simp only [List.foldl_cons, Nat.zero_mul, Nat.zero_add]
  exact this

theorem fromBE_lt (bs : Bytes) : fromBE bs < 256 ^ bs.length := by
  induction bs with
  | nil => simp [fromBE]
  | cons b bs ih =>
    rw [fromBE_cons, List.length_cons, pow_succ]
    have := b.isLt
    nlinarith

/-- Writing a value out and reading it back keeps its low `k` bytes (R11). -/
theorem fromBE_toBE (k v : Nat) : fromBE (toBE k v) = v % 256 ^ k := by
  induction k with
  | zero => simp [toBE, fromBE, Nat.mod_one]
  | succ k ih =>
    rw [toBE, fromBE_cons, toBE_length, ih, pow_succ, Nat.mod_mul, BitVec.toNat_ofNat]
    ring

theorem toBE_congr (k : Nat) {v w : Nat} (h : v % 256 ^ k = w % 256 ^ k) : toBE k v = toBE k w := by
  induction k with
  | zero => rfl
  | succ k ih =>
    rw [pow_succ, Nat.mod_mul, Nat.mod_mul] at h
    have hp : 0 < 256 ^ k := Nat.pow_pos (by decide)
    have h1 := Nat.mod_lt v hp
    have h2 := Nat.mod_lt w hp
    have hd : v / 256 ^ k % 256 = w / 256 ^ k % 256 := by
      have e := congrArg (· / 256 ^ k) h
      simpa [Nat.add_mul_div_left _ _ hp, Nat.div_eq_of_lt h1, Nat.div_eq_of_lt h2] using e
    have hm : v % 256 ^ k = w % 256 ^ k := by
      rw [hd] at h
      exact Nat.add_right_cancel h
    rw [toBE, toBE, ih hm]
    congr 1
    exact BitVec.eq_of_toNat_eq (by simpa [BitVec.toNat_ofNat] using hd)

/-- Reading a byte string and writing its value out gives it back (R11). -/
theorem toBE_fromBE (bs : Bytes) : toBE bs.length (fromBE bs) = bs := by
  induction bs with
  | nil => rfl
  | cons b bs ih =>
    have hp : 0 < 256 ^ bs.length := Nat.pow_pos (by decide)
    have hl := fromBE_lt bs
    rw [List.length_cons, toBE, fromBE_cons]
    congr 1
    · rw [Nat.add_comm, Nat.add_mul_div_right _ _ hp, Nat.div_eq_of_lt hl]
      simp
    · refine Eq.trans (toBE_congr _ ?_) ih
      rw [Nat.add_comm, Nat.add_mul_mod_self_right]

/-- `BE32` and `ToBE32` are inverse (R11). -/
theorem be32_toBE32 (v : BitVec 32) : be32 (toBE32 v) = v := by
  rw [be32, toBE32, fromBE_toBE]
  exact BitVec.eq_of_toNat_eq (by
    rw [BitVec.toNat_ofNat, Nat.mod_eq_of_lt (a := v.toNat) (b := 256 ^ 4) v.isLt,
      Nat.mod_eq_of_lt v.isLt])

theorem toBE32_be32 {bs : Bytes} (h : bs.length = 4) : toBE32 (be32 bs) = bs := by
  have hl := fromBE_lt bs
  rw [h] at hl
  have := toBE_fromBE bs
  rw [h] at this
  rw [toBE32, be32, BitVec.toNat_ofNat, Nat.mod_eq_of_lt (by simpa using hl), this]

theorem toBE32_length (v : BitVec 32) : (toBE32 v).length = 4 := toBE_length 4 _

theorem toBE64_length (v : BitVec 64) : (toBE64 v).length = 8 := toBE_length 8 _

theorem slice_length {bs : Bytes} {off n : Nat} (h : off + n ≤ bs.length) :
    (slice bs off n).length = n := by
  rw [slice, List.length_take, List.length_drop]; omega

/-- Two neighbouring slices are the slice of both. -/
theorem slice_append (bs : Bytes) (off n m : Nat) :
    slice bs off n ++ slice bs (off + n) m = slice bs off (n + m) := by
  simp only [slice]
  rw [← List.drop_drop, List.take_add]

theorem slice_all {bs : Bytes} {n : Nat} (h : bs.length = n) : slice bs 0 n = bs := by
  rw [slice, List.drop_zero, List.take_of_length_le (Nat.le_of_eq h)]

/-- The slice of a string put together from three parts that covers the middle one. -/
theorem slice_middle (a b c : Bytes) : slice (a ++ b ++ c) a.length b.length = b := by
  simp [slice]

theorem challengeWord_length (op : Byte) (l r : Operand) : (challengeWord op l r).length = 9 := by
  simp [challengeWord, toBE32_length]

theorem shortFrameBytes_length {c u : Bytes} (hc : c.length = 3) (hu : u.length = 16) :
    (shortFrameBytes c u).length = 19 := by
  simp [shortFrameBytes, hc, hu]

theorem longFrameBytes_length {c u iv p : Bytes} (n : BitVec 32) (hc : c.length = 3)
    (hu : u.length = 16) (hiv : iv.length = 16) (hp : p.length = 128) :
    (longFrameBytes c u iv n p).length = 167 := by
  simp [longFrameBytes, toBE32_length, hc, hu, hiv, hp]

end Sys2Proof
end

