-- ==== Sys2Proof/Laws/Ops.lean ====
section
/-! SUPPORT. One lemma for each shared operation that says once everything it can do. -/

namespace Sys2Proof.Machine

/-! ### Raising, refusing, sequencing -/

theorem raise_busy {s : State} (c : Cause) (h : s.busy = true) : raise c s = enterError c s := by
  simp [raise, h]

theorem raise_idle {s : State} (c : Cause) (h : s.busy = false) :
    raise c s = setUnitCause c s := by
  simp [raise, h]

theorem raise_mem (c : Cause) (s : State) : (raise c s).mem = s.mem := by
  unfold raise; split <;> rfl

theorem andThen_done {r : OpResult} {f : State → OpResult} {t : State} :
    r.andThen f = .done t ↔ ∃ s, r = .done s ∧ f s = .done t := by
  cases r <;> simp [OpResult.andThen]

theorem andThen_raised {r : OpResult} {f : State → OpResult} {c : Cause} {t : State} :
    r.andThen f = .raised c t ↔ r = .raised c t ∨ ∃ s, r = .done s ∧ f s = .raised c t := by
  cases r <;> simp [OpResult.andThen]

theorem andThen_lacking {r : OpResult} {f : State → OpResult} :
    r.andThen f = .lacking ↔ r = .lacking ∨ ∃ s, r = .done s ∧ f s = .lacking := by
  cases r <;> simp [OpResult.andThen]

theorem outcomeOf_next {r : OpResult} {t : State} :
    outcomeOf r = .next t ↔ r = .done t ∨ ∃ c s, r = .raised c s ∧ t = raise c s := by
  cases r <;> simp [outcomeOf, eq_comm]

theorem sessionStep_next {r : OpResult} {t : State} :
    sessionStep r = .next t ↔ r = .done t ∨ ∃ c s, r = .raised c s ∧ t = enterError c s := by
  cases r <;> simp [sessionStep, eq_comm]

theorem sessionStep_fault {r : OpResult} {f : Fault} :
    sessionStep r = .fault f ↔ r = .lacking ∧ f = .noValueInSession := by
  cases r <;> simp [sessionStep, eq_comm]

theorem sessionStep_refused {r : OpResult} {e : Refusal} : sessionStep r ≠ .refused e := by
  cases r <;> simp [sessionStep]

/-- A unit command does one of four things. -/
theorem unitCommand_cases (op : State → OpResult) (s : State) :
    (s.busy = true ∧ unitCommand op s = refuseCommand s)
      ∨ (s.busy = false ∧ ∃ t, op (clearCmdErr s) = .done t
          ∧ unitCommand op s = setUnitCause .none t)
      ∨ (s.busy = false ∧ ∃ c t, op (clearCmdErr s) = .raised c t
          ∧ unitCommand op s = raise c t)
      ∨ (s.busy = false ∧ op (clearCmdErr s) = .lacking
          ∧ unitCommand op s = setUnitCause .badSequence s) := by
  unfold unitCommand
  cases s.busy with
  | true => exact .inl ⟨rfl, rfl⟩
  | false =>
    cases op (clearCmdErr s) with
    | done t => exact .inr (.inl ⟨rfl, t, rfl, rfl⟩)
    | raised c t => exact .inr (.inr (.inl ⟨rfl, c, t, rfl, rfl⟩))
    | lacking => exact .inr (.inr (.inr ⟨rfl, rfl, rfl⟩))

theorem unitCommand_done {op : State → OpResult} {s t : State} (hb : s.busy = false)
    (h : op (clearCmdErr s) = .done t) : unitCommand op s = setUnitCause .none t := by
  simp [unitCommand, hb, h]

theorem unitCommand_raised {op : State → OpResult} {s t : State} {c : Cause} (hb : s.busy = false)
    (h : op (clearCmdErr s) = .raised c t) : unitCommand op s = raise c t := by
  simp [unitCommand, hb, h]

theorem unitCommand_lacking {op : State → OpResult} {s : State} (hb : s.busy = false)
    (h : op (clearCmdErr s) = .lacking) : unitCommand op s = setUnitCause .badSequence s := by
  simp [unitCommand, hb, h]

theorem unitCommand_busy {op : State → OpResult} {s : State} (hb : s.busy = true) :
    unitCommand op s = refuseCommand s := by
  simp [unitCommand, hb]

/-! ### The solver -/

/-- SOLVE's dispatch either gives a result or raises one of two causes, and does nothing else. -/
theorem evaluate_cases (op : Byte) (l r : Operand) (s : State) :
    (∃ v, evaluate op l r s = .done (putResult v s))
      ∨ evaluate op l r s = .raised .divByZero (dropResult s)
      ∨ evaluate op l r s = .raised .unknownOperator (dropResult s) := by
  unfold evaluate addOp subOp mulOp divOp modOp unknownOp
  split
  · exact .inl ⟨_, rfl⟩
  split
  · exact .inl ⟨_, rfl⟩
  split
  · exact .inl ⟨_, rfl⟩
  split
  · split
    · exact .inr (.inl rfl)
    · exact .inl ⟨_, rfl⟩
  split
  · split
    · exact .inr (.inl rfl)
    · exact .inl ⟨_, rfl⟩
  · exact .inr (.inr rfl)

/-- The instruction a challenge selects does what SOLVE's dispatch does. -/
theorem exec_challengeInstr (op : Byte) (l r : Operand) (s : State) :
    exec (challengeInstr op l r) s = outcomeOf (evaluate op l r s) := by
  unfold challengeInstr evaluate
  split
  · rfl
  split
  · rfl
  split
  · rfl
  split
  · rfl
  split <;> rfl

theorem decodeOp_done {s t : State} (h : decodeOp s = .done t) :
    s.coutKind = .plaintext ∧ s.coutLen = 9 ∧
      ∃ c, s.readBytes .cout 0 9 = some c ∧ t = loadChallenge c s := by
  unfold decodeOp at h
  split at h
  · cases h
  · rename_i hk
    split at h
    · cases h
    · rename_i hl
      refine ⟨not_not.mp hk, not_not.mp hl, ?_⟩
      simp only [Config.chalLen] at h
      split at h
      · cases h
      · rename_i c hc
        cases h
        exact ⟨c, hc, rfl⟩

theorem decodeOp_of_read {s : State} {c : Bytes} (hk : s.coutKind = .plaintext)
    (hl : s.coutLen = 9) (hc : s.readBytes .cout 0 9 = some c) :
    decodeOp s = .done (loadChallenge c s) := by
  simp [decodeOp, hk, hl, Config.chalLen, hc]

theorem decodeOp_raised {s t : State} {c : Cause} (h : decodeOp s = .raised c t) :
    s.coutKind = .plaintext ∧ s.coutLen ≠ 9 ∧ c = .badChallengeLen ∧ t = s := by
  unfold decodeOp at h
  split at h
  · cases h
  · rename_i hk
    split at h
    · rename_i hl
      cases h
      exact ⟨not_not.mp hk, hl, rfl, rfl⟩
    · split at h <;> cases h

theorem decodeOp_lacking {s : State} (h : decodeOp s = .lacking) :
    s.coutKind ≠ .plaintext ∨ (s.coutLen = 9 ∧ s.readBytes .cout 0 9 = none) := by
  unfold decodeOp at h
  split at h
  · exact .inl ‹_›
  · split at h
    · cases h
    · rename_i hl
      simp only [Config.chalLen] at h
      split at h
      · exact .inr ⟨not_not.mp hl, ‹_›⟩
      · cases h

theorem solveOp_some {s : State} {op : Byte} {l r : Operand} (ho : s.op = some op)
    (hl : s.left = some l) (hr : s.right = some r) : solveOp s = evaluate op l r s := by
  unfold solveOp
  rw [ho, hl, hr]

theorem solveOp_lacking {s : State} (h : s.op = none ∨ s.left = none ∨ s.right = none) :
    solveOp s = .lacking := by
  unfold solveOp
  rcases h with h | h | h <;> rw [h] <;> split <;> simp_all

theorem encodeOp_done {s t : State} (h : encodeOp s = .done t) :
    s.resultValid = true ∧ ∃ v, s.result = some v ∧ t = putResultBytes v s := by
  unfold encodeOp at h
  split at h
  · rename_i hv
    split at h
    · cases h
    · rename_i v hr
      cases h
      exact ⟨hv, v, hr, rfl⟩
  · cases h

theorem encodeOp_of_result {s : State} {v : Result} (hv : s.resultValid = true)
    (hr : s.result = some v) : encodeOp s = .done (putResultBytes v s) := by
  simp [encodeOp, hv, hr]

theorem encodeOp_raised {s t : State} {c : Cause} : encodeOp s ≠ .raised c t := by
  unfold encodeOp
  intro h
  split at h
  · split at h <;> cases h
  · cases h

theorem encodeOp_lacking {s : State} (h : encodeOp s = .lacking) :
    s.resultValid = false ∨ s.result = none := by
  unfold encodeOp at h
  split at h
  · split at h
    · exact .inr ‹_›
    · cases h
  · rename_i hv
    exact .inl (Bool.eq_false_iff.mpr hv)

/-! ### The Crypto Engine -/

theorem encryptWith_done {iv : Bytes} {s t : State} (h : encryptWith iv s = .done t) :
    ∃ n p k, s.cinLen = some n ∧ n.toNat ≤ 96
      ∧ s.readBytes .cin 0 n.toNat = some p ∧ s.keyBytes = some k
      ∧ t = putCiphertext iv (cbcEnc blockEnc k iv (pad p)) s := by
  unfold encryptWith at h
  split at h
  · cases h
  · rename_i n hn
    split at h
    · cases h
    · rename_i hle
      split at h
      · rename_i p k hp hk
        cases h
        exact ⟨n, p, k, hn, Nat.le_of_not_lt hle, hp, hk, rfl⟩
      · cases h

theorem encryptWith_of_read {iv : Bytes} {s : State} {n : BitVec 8} {p k : Bytes}
    (hn : s.cinLen = some n) (hle : n.toNat ≤ 96) (hp : s.readBytes .cin 0 n.toNat = some p)
    (hk : s.keyBytes = some k) :
    encryptWith iv s = .done (putCiphertext iv (cbcEnc blockEnc k iv (pad p)) s) := by
  have : ¬Config.ptMax < n.toNat := Nat.not_lt.mpr hle
  simp only [encryptWith, hn, this, ↓reduceIte, hp, hk]
  rfl

theorem encryptWith_raised {iv : Bytes} {s t : State} {c : Cause}
    (h : encryptWith iv s = .raised c t) :
    ∃ n, s.cinLen = some n ∧ 96 < n.toNat ∧ c = .encryptFail ∧ t = encryptFailed s := by
  unfold encryptWith at h
  split at h
  · cases h
  · rename_i n hn
    split at h
    · rename_i hlt
      cases h
      exact ⟨n, hn, hlt, rfl, rfl⟩
    · split at h <;> cases h

theorem encryptWith_lacking {iv : Bytes} {s : State} (h : encryptWith iv s = .lacking) :
    s.cinLen = none ∨ ∃ n, s.cinLen = some n ∧ n.toNat ≤ 96
      ∧ (s.readBytes .cin 0 n.toNat = none ∨ s.keyBytes = none) := by
  unfold encryptWith at h
  split at h
  · exact .inl ‹_›
  · rename_i n hn
    split at h
    · cases h
    · rename_i hle
      refine .inr ⟨n, hn, Nat.le_of_not_lt hle, ?_⟩
      split at h
      · cases h
      · rename_i hno
        cases h1 : s.readBytes .cin 0 n.toNat with
        | none => exact .inl rfl
        | some p =>
          cases h2 : s.keyBytes with
          | none => exact .inr rfl
          | some k => exact absurd h2 (hno p k h1)

theorem decryptOp_done {s t : State} (h : decryptOp s = .done t) :
    s.ivRxValid = true ∧ ∃ n c k iv, s.cinLen = some n
      ∧ validCtLen n.toNat = true ∧ s.readBytes .cin 0 n.toNat = some c ∧ s.keyBytes = some k
      ∧ s.readBytes .ivRx 0 16 = some iv ∧ (cbcDecrypt blockDec c k iv).length ≠ 0
      ∧ t = putPlaintext (cbcDecrypt blockDec c k iv) s := by
  unfold decryptOp at h
  split at h
  · rename_i hv
    split at h
    · cases h
    · rename_i n hn
      split at h
      · rename_i hl
        split at h
        · rename_i c k iv hc hk hiv
          split at h
          · cases h
          · rename_i hu
            cases h
            exact ⟨hv, n, c, k, iv, hn, hl, hc, hk, hiv, hu, rfl⟩
        · cases h
      · cases h
  · cases h

theorem decryptOp_of_read {s : State} {n : BitVec 8} {c k iv : Bytes} (hv : s.ivRxValid = true)
    (hn : s.cinLen = some n) (hl : validCtLen n.toNat = true)
    (hc : s.readBytes .cin 0 n.toNat = some c) (hk : s.keyBytes = some k)
    (hiv : s.readBytes .ivRx 0 16 = some iv) :
    decryptOp s = if (cbcDecrypt blockDec c k iv).length = 0
      then .raised .decryptFail (decryptFailed s)
      else .done (putPlaintext (cbcDecrypt blockDec c k iv) s) := by
  simp only [decryptOp, hv, hn, hl, hc, hk, hiv, Config.ivLen, ↓reduceIte]

theorem decryptOp_raised {s t : State} {c : Cause} (h : decryptOp s = .raised c t) :
    c = .decryptFail ∧ t = decryptFailed s := by
  unfold decryptOp at h
  split at h
  · split at h
    · cases h
    · split at h
      · split at h
        · split at h
          · cases h; exact ⟨rfl, rfl⟩
          · cases h
        · cases h
      · cases h; exact ⟨rfl, rfl⟩
  · cases h; exact ⟨rfl, rfl⟩

theorem decryptOp_lacking {s : State} (h : decryptOp s = .lacking) :
    s.ivRxValid = true ∧ (s.cinLen = none ∨ ∃ n, s.cinLen = some n ∧ validCtLen n.toNat = true
      ∧ (s.readBytes .cin 0 n.toNat = none ∨ s.keyBytes = none
          ∨ s.readBytes .ivRx 0 16 = none)) := by
  unfold decryptOp at h
  split at h
  · refine ⟨‹_›, ?_⟩
    split at h
    · exact .inl ‹_›
    · rename_i n hn
      split at h
      · rename_i hv
        refine .inr ⟨n, hn, hv, ?_⟩
        simp only [Config.ivLen] at h
        split at h
        · split at h <;> cases h
        · rename_i hno
          cases h1 : s.readBytes .cin 0 n.toNat with
          | none => exact .inl rfl
          | some c =>
            cases h2 : s.keyBytes with
            | none => exact .inr (.inl rfl)
            | some k =>
              cases h3 : s.readBytes .ivRx 0 16 with
              | none => exact .inr (.inr rfl)
              | some iv => exact absurd h3 (hno c k iv h1 h2)
      · cases h
  · cases h

/-! ### The framer -/

theorem buildReqOp_done {s t : State} (h : buildReqOp s = .done t) :
    ∃ u, s.userField = some u ∧ t = putRequest u s := by
  unfold buildReqOp at h
  split at h
  · cases h
  · rename_i u hu
    cases h
    exact ⟨u, hu, rfl⟩

theorem buildReqOp_of_name {s : State} {u : Bytes} (h : s.userField = some u) :
    buildReqOp s = .done (putRequest u s) := by
  simp only [buildReqOp, h]

theorem buildReqOp_raised {s t : State} {c : Cause} : buildReqOp s ≠ .raised c t := by
  unfold buildReqOp
  intro h
  split at h <;> cases h

theorem buildReqOp_lacking {s : State} (h : buildReqOp s = .lacking) : s.userField = none := by
  unfold buildReqOp at h
  split at h
  · assumption
  · cases h

theorem buildRespOp_done {s t : State} (h : buildRespOp s = .done t) :
    s.ivTxValid = true ∧ s.coutKind = .ciphertext ∧ ∃ u iv ct,
      s.userField = some u ∧ s.readBytes .ivTx 0 16 = some iv
      ∧ s.readBytes .cout 0 s.coutLen.toNat = some ct
      ∧ t = putResponse u iv (s.coutLen.setWidth 32) (responsePayload ct) s := by
  unfold buildRespOp at h
  split at h
  · cases h
  · rename_i hg
    simp only [not_or, Bool.not_eq_false, not_not] at hg
    refine ⟨hg.1, hg.2, ?_⟩
    split at h
    · rename_i u iv ct hu hiv hct
      cases h
      exact ⟨u, iv, ct, hu, hiv, hct, rfl⟩
    · cases h

theorem buildRespOp_of_read {s : State} {u iv ct : Bytes} (hv : s.ivTxValid = true)
    (hk : s.coutKind = .ciphertext) (hu : s.userField = some u)
    (hiv : s.readBytes .ivTx 0 16 = some iv)
    (hct : s.readBytes .cout 0 s.coutLen.toNat = some ct) :
    buildRespOp s = .done (putResponse u iv (s.coutLen.setWidth 32) (responsePayload ct) s) := by
  simp [buildRespOp, hv, hk, hu, hiv, hct, Config.ivLen]

theorem buildRespOp_raised {s t : State} {c : Cause} : buildRespOp s ≠ .raised c t := by
  unfold buildRespOp
  intro h
  split at h
  · cases h
  · split at h <;> cases h

theorem buildRespOp_lacking {s : State} (h : buildRespOp s = .lacking) :
    s.ivTxValid = false ∨ s.coutKind ≠ .ciphertext ∨ s.userField = none
      ∨ s.readBytes .ivTx 0 16 = none ∨ s.readBytes .cout 0 s.coutLen.toNat = none := by
  unfold buildRespOp at h
  split at h
  · rename_i hg
    rcases hg with hg | hg
    · exact .inl hg
    · exact .inr (.inl hg)
  · simp only [Config.ivLen] at h
    split at h
    · cases h
    · rename_i hno
      cases h1 : s.userField with
      | none => simp
      | some u =>
        cases h2 : s.readBytes .ivTx 0 16 with
        | none => simp
        | some iv =>
          cases h3 : s.readBytes .cout 0 s.coutLen.toNat with
          | none => simp
          | some ct => exact absurd h3 (hno u iv ct h1 h2)

/-- A Challenge frame with code `"110"` is accepted, or its length is bad and nothing is written. -/
theorem acceptChallenge_cases (iv : Bytes) (n : BitVec 32) (p : Bytes) (s : State) :
    (96 < n.toNat ∧ acceptChallenge iv n p s = .raised .badLength s)
      ∨ (n.toNat ≤ 96 ∧ acceptChallenge iv n p s = .done (extractChallenge iv (p.take n.toNat) s)) := by
  unfold acceptChallenge
  by_cases h : 96 < n.toNat
  · exact .inl ⟨h, if_pos h⟩
  · exact .inr ⟨by omega, if_neg h⟩

/-- The frame read at the challenge point does what `ClassifyCode` says of its code. -/
theorem exec_challengePointInstr (f : Bytes) (s : State) :
    exec (challengePointInstr f) s = outcomeOf
      (match classifyCode .challenge (frameCode f) with
       | .raises c => .raised c s
       | _ => acceptChallenge (frameIv f) (framePayloadLen f) (framePayload f) s) := by
  unfold challengePointInstr classifyCode
  by_cases h1 : frameCode f = code305
  · simp only [h1, ↓reduceIte]; rfl
  · by_cases h2 : frameCode f = code110
    · simp only [h2, ↓reduceIte, show ¬code110 = code305 by decide]; rfl
    · simp only [h1, h2, ↓reduceIte]; rfl

/-- The frame read at the status point does what `ClassifyCode` says of its code. -/
theorem exec_statusPointInstr (f : Bytes) (s : State) :
    exec (statusPointInstr f) s = outcomeOf
      (match classifyCode .status (frameCode f) with
       | .raises c => .raised c (putVerdict .none s)
       | .success => .done (putVerdict .success s)
       | .failure => .done (putVerdict .failure s)
       | .proceed => .lacking) := by
  unfold statusPointInstr classifyCode
  by_cases h1 : frameCode f = code305
  · simp only [h1, ↓reduceIte]; rfl
  · by_cases h2 : frameCode f = code205
    · simp only [h2, ↓reduceIte, show ¬code205 = code305 by decide]; rfl
    · by_cases h3 : frameCode f = code210
      · simp only [h3, ↓reduceIte, show ¬code210 = code305 by decide,
          show ¬code210 = code205 by decide]; rfl
      · simp only [h1, h2, h3, ↓reduceIte]; rfl

/-- At the challenge point a code is accepted or raises one of two causes. -/
theorem classifyCode_challenge (c : Bytes) :
    (∃ k, classifyCode .challenge c = .raises k ∧ k ∈ [.serverReported, .unexpectedCode])
      ∨ classifyCode .challenge c = .proceed := by
  by_cases h1 : c = code305
  · exact .inl ⟨.serverReported, if_pos h1, by simp⟩
  · by_cases h2 : c = code110
    · exact .inr ((if_neg h1).trans (if_pos h2))
    · exact .inl ⟨.unexpectedCode, (if_neg h1).trans (if_neg h2), by simp⟩

/-- At the status point a code is a verdict or raises one of two causes. -/
theorem classifyCode_status (c : Bytes) :
    (∃ k, classifyCode .status c = .raises k ∧ k ∈ [.serverReported, .unexpectedStatus])
      ∨ classifyCode .status c = .success ∨ classifyCode .status c = .failure := by
  by_cases h1 : c = code305
  · exact .inl ⟨.serverReported, if_pos h1, by simp⟩
  · by_cases h2 : c = code205
    · exact .inr (.inl ((if_neg h1).trans (if_pos h2)))
    · by_cases h3 : c = code210
      · exact .inr (.inr ((if_neg h1).trans ((if_neg h2).trans (if_pos h3))))
      · exact .inl ⟨.unexpectedStatus, (if_neg h1).trans ((if_neg h2).trans (if_neg h3)), by simp⟩

/-- What PARSE_CHAL can do as a unit: one of three raises that write nothing, or the extraction. -/
theorem parseChalOp_cases (s : State) :
    parseChalOp s = .lacking
      ∨ (∃ c, parseChalOp s = .raised c s ∧ c ∈ [.serverReported, .unexpectedCode, .badLength])
      ∨ ∃ iv ct, iv.length = 16 ∧ ct.length ≤ 96
          ∧ parseChalOp s = .done (extractChallenge iv ct s) := by
  unfold parseChalOp
  cases s.rxCode with
  | none => exact .inl rfl
  | some code =>
    rcases classifyCode_challenge code with ⟨c, hc, hmem⟩ | hc
    · exact .inr (.inl ⟨c, by simp only [hc], by simp only [List.mem_cons] at hmem ⊢; tauto⟩)
    · simp only [hc]
      cases s.readBytes .rxbuf 35 Config.lenField with
      | none => exact .inl rfl
      | some lb =>
        by_cases hle : Config.ptMax < (be32 lb).toNat
        · exact .inr (.inl ⟨.badLength, if_pos hle, by simp⟩)
        · simp only [hle, ↓reduceIte]
          cases hiv : s.readBytes .rxbuf 19 Config.ivLen with
          | none => exact .inl rfl
          | some iv =>
            cases hct : s.readBytes .rxbuf 39 (be32 lb).toNat with
            | none => exact .inl rfl
            | some ct =>
              have h1 := State.readBytes_length hiv
              have h2 := State.readBytes_length hct
              have h3 : ct.length ≤ 96 := h2 ▸ Nat.le_of_not_lt hle
              refine .inr (.inr ⟨iv, ct, h1, h3, ?_⟩)
              simp only [acceptChallenge, hle, ↓reduceIte]
              rw [List.take_of_length_le (Nat.le_of_eq h2)]

/-- What PARSE_STAT can do as a unit. -/
theorem parseStatOp_cases (s : State) :
    parseStatOp s = .lacking
      ∨ (∃ v, parseStatOp s = .done (putVerdict v s) ∧ v ≠ .none)
      ∨ ∃ c, parseStatOp s = .raised c (putVerdict .none s)
          ∧ c ∈ [.serverReported, .unexpectedStatus] := by
  unfold parseStatOp
  cases s.rxCode with
  | none => exact .inl rfl
  | some code =>
    rcases classifyCode_status code with ⟨c, hc, hmem⟩ | hc | hc
    · exact .inr (.inr ⟨c, by simp only [hc], hmem⟩)
    · exact .inr (.inl ⟨.success, by simp only [hc], by decide⟩)
    · exact .inr (.inl ⟨.failure, by simp only [hc], by decide⟩)

/-! ### Operands -/

theorem usernameField_length (u : Bytes) : (usernameField u).length = 16 := by
  simp [usernameField, Config.unameVisibleMax, Config.unameLen]
  omega

theorem userField_some {s : State} {u : Bytes} (h : s.userField = some u) : u.length = 16 := by
  unfold State.userField at h
  obtain ⟨n, _, rfl⟩ := Option.map_eq_some_iff.mp h
  exact usernameField_length n

theorem nextDraw_length (s : State) : s.nextDraw.length = 16 := toBE_length _ _

/-- The user name and the key depend on the buffers and the name's length alone. -/
theorem userField_congr {s t : State} (hm : t.mem = s.mem) (hl : t.unameSrcLen = s.unameSrcLen) :
    t.userField = s.userField := by
  unfold State.userField State.sourceName
  rw [hl]
  cases s.unameSrcLen <;> simp [State.readBytes_congr hm]

theorem keyBytes_congr {s t : State} (hm : t.mem = s.mem) : t.keyBytes = s.keyBytes :=
  State.readBytes_congr hm _ _ _

/-- A write to another array leaves the user name as it was. -/
theorem userField_writeBytes (s : State) {sp : Space} (off : Nat) (bs : Bytes)
    (hne : sp ≠ .unameSrc) (h : off + bs.length ≤ 256) :
    (s.writeBytes sp off bs).userField = s.userField := by
  unfold State.userField State.sourceName
  simp only [writeBytes_unameSrcLen]
  cases s.unameSrcLen with
  | none => rfl
  | some u => simp [State.readBytes_writeBytes_other s off bs 0 _ (Ne.symm hne) h]

/-- A write to another array leaves the key as it was. -/
theorem keyBytes_writeBytes (s : State) {sp : Space} (off : Nat) (bs : Bytes)
    (hne : sp ≠ .key) (h : off + bs.length ≤ 256) :
    (s.writeBytes sp off bs).keyBytes = s.keyBytes :=
  State.readBytes_writeBytes_other s off bs 0 _ (Ne.symm hne) h

end Sys2Proof.Machine
end

