-- ==== Sys2Proof/Laws/Invariant.lean ====
section
/-! SUPPORT. What every unit operation keeps, whether it ends or raises: the part of the engine's invariant that
speaks of buffers and validity flags, the session's registers, and what could be read before. -/

namespace Sys2Proof.Machine

/-- The part of `EngineInv` that does not speak of the session. -/
structure DataInv (s : State) : Prop where
  memory : s.mem.wf = true ∧ s.mem.mapped = true
  result : s.resultValid = s.result.isSome
  ivRx : s.ivRxValid = true → (s.readBytes .ivRx 0 16).isSome
  ivTx : s.ivTxValid = true → (s.readBytes .ivTx 0 16).isSome
  ciphertext : s.coutKind = .ciphertext →
    s.ivTxValid = true ∧ 16 ≤ s.coutLen.toNat ∧ s.coutLen.toNat ≤ 112 ∧ s.coutLen.toNat % 16 = 0
      ∧ (s.readBytes .cout 0 s.coutLen.toNat).isSome
  plaintext : s.coutKind = .plaintext →
    1 ≤ s.coutLen.toNat ∧ s.coutLen.toNat ≤ 127 ∧ (s.readBytes .cout 0 s.coutLen.toNat).isSome

/-- The session's registers, its report and the world are the same in both states. -/
structure SameSession (s t : State) : Prop where
  pstate : t.pstate = s.pstate
  busy : t.busy = s.busy
  txActive : t.txActive = s.txActive
  txCnt : t.txCnt = s.txCnt
  rxCnt : t.rxCnt = s.rxCnt
  rxNeed : t.rxNeed = s.rxNeed
  errReason : t.errReason = s.errReason
  errCause : t.errCause = s.errCause
  unitCause : t.unitCause = s.unitCause
  cmdErr : t.cmdErr = s.cmdErr
  unameSrcLen : t.unameSrcLen = s.unameSrcLen
  txStream : t.txStream = s.txStream
  rxStream : t.rxStream = s.rxStream
  txEvents : t.txEvents = s.txEvents
  hostQueue : t.hostQueue = s.hostQueue
  turns : t.turns = s.turns
  lastRead : t.lastRead = s.lastRead

/-- What a unit operation keeps, from its first state to its last. -/
structure OpKeeps (s t : State) : Prop where
  data : DataInv t
  same : SameSession s t
  txLen : t.txLen = s.txLen ∨ t.txLen = 19 ∨ t.txLen = 167
  reads : ∀ sp off n, (s.readBytes sp off n).isSome = true → (t.readBytes sp off n).isSome = true
  key : t.keyBytes = s.keyBytes
  name : ∀ i, i < Config.unameSrcMax →
    t.mem.read (Space.unameSrc.addr i) = s.mem.read (Space.unameSrc.addr i)

theorem EngineInv.data {s : State} (h : EngineInv s) : DataInv s :=
  ⟨h.memory, h.result, h.ivRx, h.ivTx, h.ciphertext, h.plaintext⟩

theorem SameSession.refl (s : State) : SameSession s s := by constructor <;> rfl

theorem SameSession.trans {s t u : State} (h : SameSession s t) (h' : SameSession t u) :
    SameSession s u where
  pstate := h'.pstate.trans h.pstate
  busy := h'.busy.trans h.busy
  txActive := h'.txActive.trans h.txActive
  txCnt := h'.txCnt.trans h.txCnt
  rxCnt := h'.rxCnt.trans h.rxCnt
  rxNeed := h'.rxNeed.trans h.rxNeed
  errReason := h'.errReason.trans h.errReason
  errCause := h'.errCause.trans h.errCause
  unitCause := h'.unitCause.trans h.unitCause
  cmdErr := h'.cmdErr.trans h.cmdErr
  unameSrcLen := h'.unameSrcLen.trans h.unameSrcLen
  txStream := h'.txStream.trans h.txStream
  rxStream := h'.rxStream.trans h.rxStream
  txEvents := h'.txEvents.trans h.txEvents
  hostQueue := h'.hostQueue.trans h.hostQueue
  turns := h'.turns.trans h.turns
  lastRead := h'.lastRead.trans h.lastRead

theorem OpKeeps.refl {s : State} (h : DataInv s) : OpKeeps s s :=
  ⟨h, .refl s, .inl rfl, fun _ _ _ h => h, rfl, fun _ _ => rfl⟩

theorem OpKeeps.trans {s t u : State} (h : OpKeeps s t) (h' : OpKeeps t u) : OpKeeps s u where
  data := h'.data
  same := h.same.trans h'.same
  txLen := by
    rcases h'.txLen with e | e | e
    · rw [e]; exact h.txLen
    · exact .inr (.inl e)
    · exact .inr (.inr e)
  reads sp off n hr := h'.reads sp off n (h.reads sp off n hr)
  key := h'.key.trans h.key
  name i hi := (h'.name i hi).trans (h.name i hi)

/-- The user name stays readable. -/
theorem OpKeeps.userField {s t : State} (h : OpKeeps s t) (hu : s.userField.isSome = true) :
    t.userField.isSome = true := by
  unfold State.userField State.sourceName at *
  rw [h.same.unameSrcLen]
  cases hl : s.unameSrcLen with
  | none => simp [hl] at hu
  | some n =>
    simp only [hl, Option.isSome_map] at hu ⊢
    exact h.reads _ _ _ hu

/-- The canonical form and the map survive a write inside an array. -/
theorem memory_writeBytes {s : State} (h : s.mem.wf = true ∧ s.mem.mapped = true) {sp : Space}
    {off : Nat} {bs : Bytes} (hb : off + bs.length ≤ sp.size) :
    (s.writeBytes sp off bs).mem.wf = true ∧ (s.writeBytes sp off bs).mem.mapped = true :=
  ⟨Memory.wf_writeRange h.1 _ _, Memory.mapped_writeRange h.2 hb⟩

/-- A write of another array leaves the user name's bytes as they were. -/
theorem name_writeBytes (s : State) {sp : Space} {off : Nat} {bs : Bytes} (hne : sp ≠ .unameSrc)
    (hb : off + bs.length ≤ 256) (i : Nat) (hi : i < Config.unameSrcMax) :
    (s.writeBytes sp off bs).mem.read (Space.unameSrc.addr i)
      = s.mem.read (Space.unameSrc.addr i) := by
  rw [writeBytes_mem, Memory.read_writeRange_other]
  have := unameSrcMax_bounds.2
  revert hne
  cases sp <;> simp [Space.addr, Space.number] <;> omega

/-! ### The operations -/

theorem dropOutput_keeps {s : State} (h : DataInv s) : OpKeeps s (dropOutput s) where
  data := { h with ciphertext := fun e => (by cases e), plaintext := fun e => by cases e }
  same := by constructor <;> rfl
  txLen := .inl rfl
  reads _ _ _ h := h
  key := rfl
  name _ _ := rfl

theorem encryptFailed_keeps {s : State} (h : DataInv s) : OpKeeps s (encryptFailed s) where
  data :=
    { h with
      ivTx := fun e => by cases e
      ciphertext := fun e => by cases e
      plaintext := fun e => by cases e }
  same := by constructor <;> rfl
  txLen := .inl rfl
  reads _ _ _ h := h
  key := rfl
  name _ _ := rfl

theorem decryptFailed_keeps {s : State} (h : DataInv s) : OpKeeps s (decryptFailed s) where
  data :=
    { h with
      ivRx := fun e => by cases e
      ciphertext := fun e => by cases e
      plaintext := fun e => by cases e }
  same := by constructor <;> rfl
  txLen := .inl rfl
  reads _ _ _ h := h
  key := rfl
  name _ _ := rfl

theorem putResult_keeps {s : State} (h : DataInv s) (v : Result) : OpKeeps s (putResult v s) where
  data := { h with result := rfl }
  same := by constructor <;> rfl
  txLen := .inl rfl
  reads _ _ _ h := h
  key := rfl
  name _ _ := rfl

theorem dropResult_keeps {s : State} (h : DataInv s) : OpKeeps s (dropResult s) where
  data := { h with result := rfl }
  same := by constructor <;> rfl
  txLen := .inl rfl
  reads _ _ _ h := h
  key := rfl
  name _ _ := rfl

theorem putVerdict_keeps {s : State} (h : DataInv s) (v : Verdict) : OpKeeps s (putVerdict v s) where
  data := { h with }
  same := by constructor <;> rfl
  txLen := .inl rfl
  reads _ _ _ h := h
  key := rfl
  name _ _ := rfl

theorem loadChallenge_keeps {s : State} (h : DataInv s) (c : Bytes) :
    OpKeeps s (loadChallenge c s) where
  data := { h with }
  same := by constructor <;> rfl
  txLen := .inl rfl
  reads _ _ _ h := h
  key := rfl
  name _ _ := rfl

/-- A write of another array keeps the validity of both IVs and the content of `COUT`. -/
theorem dataInv_writeBytes {s : State} (h : DataInv s) {sp : Space} {off : Nat} {bs : Bytes}
    (hb : off + bs.length ≤ sp.size) : DataInv (s.writeBytes sp off bs) where
  memory := memory_writeBytes h.memory hb
  result := h.result
  ivRx e := State.readBytes_writeBytes_isSome _ _ _ _ _ _ _ (h.ivRx e)
  ivTx e := State.readBytes_writeBytes_isSome _ _ _ _ _ _ _ (h.ivTx e)
  ciphertext e :=
    let ⟨h1, h2, h3, h4, h5⟩ := h.ciphertext e
    ⟨h1, h2, h3, h4, State.readBytes_writeBytes_isSome _ _ _ _ _ _ _ h5⟩
  plaintext e :=
    let ⟨h1, h2, h3⟩ := h.plaintext e
    ⟨h1, h2, State.readBytes_writeBytes_isSome _ _ _ _ _ _ _ h3⟩

/-- A write of any array but the key and the user name keeps what an operation keeps. -/
theorem writeBytes_keeps {s : State} (h : DataInv s) {sp : Space} {off : Nat} {bs : Bytes}
    (hk : sp ≠ .key) (hu : sp ≠ .unameSrc) (hb : off + bs.length ≤ sp.size) :
    OpKeeps s (s.writeBytes sp off bs) := by
  have hsz := sp.size_le
  exact
    { data := dataInv_writeBytes h hb
      same := by constructor <;> rfl
      txLen := .inl rfl
      reads := fun _ _ _ hr => State.readBytes_writeBytes_isSome _ _ _ _ _ _ _ hr
      key := keyBytes_writeBytes s off bs hk (by omega)
      name := name_writeBytes s hu (by omega) }

theorem putResultBytes_keeps {s : State} (h : DataInv s) (v : Result) :
    OpKeeps s (putResultBytes v s) := by
  have hw := writeBytes_keeps h (sp := .cin) (off := 0) (bs := toBE64 v) (by decide) (by decide)
    (by rw [toBE64, toBE_length]; decide)
  exact { hw with data := { hw.data with }, same := { hw.same with } }

theorem putRequest_keeps {s : State} (h : DataInv s) {u : Bytes} (hu : u.length = 16) :
    OpKeeps s (putRequest u s) := by
  have hw := writeBytes_keeps h (sp := .txbuf) (off := 0) (bs := shortFrameBytes code105 u)
    (by decide) (by decide) (by simp [shortFrameBytes, code105, hu]; decide)
  exact { hw with data := { hw.data with }, same := { hw.same with }, txLen := .inr (.inl rfl) }

theorem putResponse_keeps {s : State} (h : DataInv s) {u iv p : Bytes} (n : BitVec 32)
    (hu : u.length = 16) (hiv : iv.length = 16) (hp : p.length = 128) :
    OpKeeps s (putResponse u iv n p s) := by
  have hw := writeBytes_keeps h (sp := .txbuf) (off := 0) (bs := longFrameBytes code115 u iv n p)
    (by decide) (by decide) (by rw [longFrameBytes_length n rfl hu hiv hp]; decide)
  exact
    { hw with
      data :=
        { hw.data with
          ivTx := fun e => by cases e
          ciphertext := fun e => by cases e
          plaintext := fun e => by cases e }
      same := { hw.same with }
      txLen := .inr (.inr rfl) }

theorem extractChallenge_keeps {s : State} (h : DataInv s) {iv ct : Bytes} (hiv : iv.length = 16)
    (hct : ct.length ≤ 128) : OpKeeps s (extractChallenge iv ct s) := by
  have h1 := writeBytes_keeps h (sp := .ivRx) (off := 0) (bs := iv) (by decide) (by decide)
    (by rw [hiv]; decide)
  have h2 := writeBytes_keeps h1.data (sp := .cin) (off := 0) (bs := ct) (by decide) (by decide)
    (by simp only [Space.size]; omega)
  have hw := h1.trans h2
  have hr : ((s.writeBytes .ivRx 0 iv).readBytes .ivRx 0 16).isSome = true := by
    have := State.readBytes_writeBytes_same s .ivRx 0 iv (by rw [hiv]; decide)
    rw [hiv] at this
    rw [this]; rfl
  exact
    { hw with
      data := { hw.data with ivRx := fun _ => h2.reads _ _ _ hr }
      same := { hw.same with } }

theorem putPlaintext_keeps {s : State} (h : DataInv s) {u : Bytes} (h1 : 1 ≤ u.length)
    (h2 : u.length ≤ 127) : OpKeeps s (putPlaintext u s) := by
  have hb : 0 + u.length ≤ Space.cout.size := by simp only [Space.size]; omega
  have hw := writeBytes_keeps h (sp := .cout) (off := 0) (bs := u) (by decide) (by decide) hb
  have hlen : (BitVec.ofNat 8 u.length).toNat = u.length := by
    rw [BitVec.toNat_ofNat]; omega
  have hr : (s.writeBytes .cout 0 u).readBytes .cout 0 u.length = some u :=
    State.readBytes_writeBytes_same s .cout 0 u hb
  exact
    { hw with
      data :=
        { hw.data with
          ivRx := fun e => by cases e
          ciphertext := fun e => by cases e
          plaintext := fun _ => by
            refine ⟨hlen ▸ h1, hlen ▸ h2, ?_⟩
            change ((s.writeBytes .cout 0 u).readBytes .cout 0 (BitVec.ofNat 8 u.length).toNat).isSome
              = true
            rw [hlen, hr]; rfl }
      same := { hw.same with } }

theorem putCiphertext_keeps {s : State} (h : DataInv s) {iv ct : Bytes} {n : Nat}
    (hiv : iv.length = 16) (hct : ct.length = 16 * (n + 1)) (hn : n ≤ 6) :
    OpKeeps s (putCiphertext iv ct s) := by
  have h1 := writeBytes_keeps h (sp := .ivTx) (off := 0) (bs := iv) (by decide) (by decide)
    (by rw [hiv]; decide)
  have hb : 0 + ct.length ≤ Space.cout.size := by simp only [Space.size]; omega
  have h2 := writeBytes_keeps h1.data (sp := .cout) (off := 0) (bs := ct) (by decide) (by decide) hb
  have hw := h1.trans h2
  have hr : ((s.writeBytes .ivTx 0 iv).readBytes .ivTx 0 16).isSome = true := by
    have := State.readBytes_writeBytes_same s .ivTx 0 iv (by rw [hiv]; decide)
    rw [hiv] at this
    rw [this]; rfl
  have hlen : (BitVec.ofNat 8 ct.length).toNat = ct.length := by
    rw [BitVec.toNat_ofNat]; omega
  have hc := State.readBytes_writeBytes_same (s.writeBytes .ivTx 0 iv) .cout 0 ct hb
  exact
    { hw with
      data :=
        { hw.data with
          ivTx := fun _ => h2.reads _ _ _ hr
          plaintext := fun e => by cases e
          ciphertext := fun _ => by
            change true = true ∧ 16 ≤ (BitVec.ofNat 8 ct.length).toNat
              ∧ (BitVec.ofNat 8 ct.length).toNat ≤ 112 ∧ (BitVec.ofNat 8 ct.length).toNat % 16 = 0
              ∧ (((s.writeBytes .ivTx 0 iv).writeBytes .cout 0 ct).readBytes .cout 0
                  (BitVec.ofNat 8 ct.length).toNat).isSome = true
            rw [hlen, hc]
            exact ⟨rfl, by omega, by omega, by omega, rfl⟩ }
      same := { hw.same with } }

/-- Every unit operation keeps what `OpKeeps` lists, where it ends and where it raises. -/
theorem decodeOp_keeps {s : State} (h : DataInv s) :
    (∀ t, decodeOp s = .done t → OpKeeps s t) ∧ ∀ c t, decodeOp s = .raised c t → OpKeeps s t := by
  refine ⟨fun t ht => ?_, fun c t ht => ?_⟩
  · obtain ⟨_, _, c, _, rfl⟩ := decodeOp_done ht
    exact loadChallenge_keeps h c
  · obtain ⟨_, _, _, rfl⟩ := decodeOp_raised ht
    exact .refl h

theorem evaluate_keeps {s : State} (h : DataInv s) (op : Byte) (l r : Operand) :
    (∀ t, evaluate op l r s = .done t → OpKeeps s t)
      ∧ ∀ c t, evaluate op l r s = .raised c t → OpKeeps s t := by
  rcases evaluate_cases op l r s with ⟨v, e⟩ | e | e <;> rw [e]
  · exact ⟨fun t ht => by cases ht; exact putResult_keeps h v, fun c t ht => by cases ht⟩
  · exact ⟨fun t ht => (by cases ht), fun c t ht => by cases ht; exact dropResult_keeps h⟩
  · exact ⟨fun t ht => (by cases ht), fun c t ht => by cases ht; exact dropResult_keeps h⟩

theorem solveOp_keeps {s : State} (h : DataInv s) :
    (∀ t, solveOp s = .done t → OpKeeps s t) ∧ ∀ c t, solveOp s = .raised c t → OpKeeps s t := by
  unfold solveOp
  split
  · exact evaluate_keeps h _ _ _
  · exact ⟨fun t ht => (by cases ht), fun c t ht => by cases ht⟩

theorem encodeOp_keeps {s : State} (h : DataInv s) {t : State} (ht : encodeOp s = .done t) :
    OpKeeps s t := by
  obtain ⟨_, v, _, rfl⟩ := encodeOp_done ht
  exact putResultBytes_keeps h v

theorem encryptOp_keeps {s : State} (h : DataInv s) :
    (∀ t, encryptOp s = .done t → OpKeeps s t) ∧ ∀ c t, encryptOp s = .raised c t → OpKeeps s t := by
  refine ⟨fun t ht => ?_, fun c t ht => ?_⟩
  · obtain ⟨n, p, k, _, hle, hp, hk, rfl⟩ := encryptWith_done ht
    have hpl := State.readBytes_length hp
    have hkl : k.length = 16 := State.readBytes_length hk
    exact putCiphertext_keeps h (nextDraw_length s)
      (cbcEnc_length (fun x hx => blockEnc_length k x hkl hx) (nextDraw_length s) (pad_length p))
      (by omega)
  · obtain ⟨_, _, _, _, rfl⟩ := encryptWith_raised ht
    exact encryptFailed_keeps h

theorem decryptOp_keeps {s : State} (h : DataInv s) :
    (∀ t, decryptOp s = .done t → OpKeeps s t) ∧ ∀ c t, decryptOp s = .raised c t → OpKeeps s t := by
  refine ⟨fun t ht => ?_, fun c t ht => ?_⟩
  · obtain ⟨_, n, c, k, iv, _, _, hc, hk, hiv, hne, rfl⟩ := decryptOp_done ht
    have hkl : k.length = 16 := State.readBytes_length hk
    have := cbcDecrypt_length_lt (fun x hx => blockDec_length k x hkl hx)
      (State.readBytes_length hiv) hne
    exact putPlaintext_keeps h (Nat.pos_of_ne_zero hne) (by omega)
  · obtain ⟨_, rfl⟩ := decryptOp_raised ht
    exact decryptFailed_keeps h

theorem buildReqOp_keeps {s : State} (h : DataInv s) {t : State} (ht : buildReqOp s = .done t) :
    OpKeeps s t := by
  obtain ⟨u, hu, rfl⟩ := buildReqOp_done ht
  exact putRequest_keeps h (userField_some hu)

theorem buildRespOp_keeps {s : State} (h : DataInv s) {t : State} (ht : buildRespOp s = .done t) :
    OpKeeps s t := by
  obtain ⟨_, _, u, iv, ct, hu, hiv, hct, rfl⟩ := buildRespOp_done ht
  refine putResponse_keeps h _ (userField_some hu) (State.readBytes_length hiv) ?_
  have h1 := State.readBytes_length hct
  have h2 := (State.readBytes_some hct).1
  simp only [Space.size] at h2
  simp only [responsePayload, Config.payloadMax, List.length_append, List.length_replicate]
  omega

theorem acceptChallenge_keeps {s : State} (h : DataInv s) {iv p : Bytes} (n : BitVec 32)
    (hiv : iv.length = 16) :
    (∀ t, acceptChallenge iv n p s = .done t → OpKeeps s t)
      ∧ ∀ c t, acceptChallenge iv n p s = .raised c t → OpKeeps s t := by
  rcases acceptChallenge_cases iv n p s with ⟨_, e⟩ | ⟨hle, e⟩ <;> rw [e]
  · exact ⟨fun t ht => (by cases ht), fun c t ht => by cases ht; exact .refl h⟩
  · refine ⟨fun t ht => ?_, fun c t ht => by cases ht⟩
    cases ht
    exact extractChallenge_keeps h hiv (by rw [List.length_take]; omega)

theorem parseChalOp_keeps {s : State} (h : DataInv s) :
    (∀ t, parseChalOp s = .done t → OpKeeps s t)
      ∧ ∀ c t, parseChalOp s = .raised c t → OpKeeps s t := by
  rcases parseChalOp_cases s with e | ⟨c, e, _⟩ | ⟨iv, ct, h1, h2, e⟩ <;> rw [e]
  · exact ⟨fun t ht => (by cases ht), fun c t ht => (by cases ht)⟩
  · exact ⟨fun t ht => (by cases ht), fun c t ht => by cases ht; exact .refl h⟩
  · exact ⟨fun t ht => by cases ht; exact extractChallenge_keeps h h1 (by omega),
      fun c t ht => by cases ht⟩

theorem parseStatOp_keeps {s : State} (h : DataInv s) :
    (∀ t, parseStatOp s = .done t → OpKeeps s t)
      ∧ ∀ c t, parseStatOp s = .raised c t → OpKeeps s t := by
  rcases parseStatOp_cases s with e | ⟨v, e, _⟩ | ⟨c, e, _⟩ <;> rw [e]
  · exact ⟨fun t ht => (by cases ht), fun c t ht => (by cases ht)⟩
  · exact ⟨fun t ht => by cases ht; exact putVerdict_keeps h v, fun c t ht => by cases ht⟩
  · exact ⟨fun t ht => (by cases ht), fun c t ht => by cases ht; exact putVerdict_keeps h _⟩

end Sys2Proof.Machine
end

