-- ==== Sys2Proof/Laws/PerInstr.lean ====
section
/-! SUPPORT. The per-instruction family `EncodingWidth`: how many bytes a well-formed instruction takes
(spec/30_encoding.md R90 to R96). -/

namespace Sys2Proof.Laws.EncodingWidth

/-- The bytes of the format at a place where the engine takes bits (R90 to R93, R96). -/
def width : Instr → Nat
  | .request105 _ | .status205 _ | .status210 _ | .error305AtStatus _
  | .unexpectedCodeAtStatus _ _ => 19
  | .challenge110 _ _ _ _ | .response115 _ _ _ _ | .error305AtChallenge _ _ _ _
  | .unexpectedCodeAtChallenge _ _ _ _ _ => 167
  | .add _ _ | .sub _ _ | .mul _ _ | .div _ _ | .mod _ _ | .unknownOperator _ _ _ => 9
  | .start | .buildReq | .parseChal | .decrypt | .decode | .solve | .encode | .encrypt
  | .buildResp | .parseStat | .reset | .reservedCmd _ => 1

/-- A well-formed instruction's encoding has the length of its format. -/
def Statement (i : Instr) : Prop := WellFormed i = true → (encode i).length = width i

theorem challengeWord_length (op : Byte) (l r : Operand) : (challengeWord op l r).length = 9 := by
  simp [challengeWord, toBE32, toBE_length]

theorem short_length (c u : Bytes) (hc : c.length = 3) (h : shortFields u = true) :
    (shortFrameBytes c u).length = 19 := by
  simp only [shortFields, Config.unameLen, beq_iff_eq] at h
  simp [shortFrameBytes, hc, h]

theorem long_length (c u iv p : Bytes) (n : BitVec 32) (hc : c.length = 3)
    (h : longFields u iv p = true) : (longFrameBytes c u iv n p).length = 167 := by
  simp only [longFields, Config.unameLen, Config.ivLen, Config.payloadMax, Bool.and_eq_true,
    beq_iff_eq] at h
  simp [longFrameBytes, toBE32, toBE_length, hc, h]

theorem add (l : Operand) (r : Operand) : Statement (.add l r) :=
  fun _ => challengeWord_length _ _ _

theorem sub (l : Operand) (r : Operand) : Statement (.sub l r) :=
  fun _ => challengeWord_length _ _ _

theorem mul (l : Operand) (r : Operand) : Statement (.mul l r) :=
  fun _ => challengeWord_length _ _ _

theorem div (l : Operand) (r : Operand) : Statement (.div l r) :=
  fun _ => challengeWord_length _ _ _

theorem mod (l : Operand) (r : Operand) : Statement (.mod l r) :=
  fun _ => challengeWord_length _ _ _

theorem unknownOperator (op : Byte) (l : Operand) (r : Operand) :
    Statement (.unknownOperator op l r) :=
  fun _ => challengeWord_length _ _ _

theorem request105 (u : Bytes) : Statement (.request105 u) :=
  fun h => short_length _ _ rfl h

theorem challenge110 (u : Bytes) (iv : Bytes) (n : BitVec 32) (p : Bytes) :
    Statement (.challenge110 u iv n p) :=
  fun h => long_length _ _ _ _ _ rfl h

theorem response115 (u : Bytes) (iv : Bytes) (n : BitVec 32) (p : Bytes) :
    Statement (.response115 u iv n p) :=
  fun h => long_length _ _ _ _ _ rfl h

theorem status205 (u : Bytes) : Statement (.status205 u) :=
  fun h => short_length _ _ rfl h

theorem status210 (u : Bytes) : Statement (.status210 u) :=
  fun h => short_length _ _ rfl h

theorem error305AtChallenge (u : Bytes) (iv : Bytes) (n : BitVec 32) (p : Bytes) :
    Statement (.error305AtChallenge u iv n p) :=
  fun h => long_length _ _ _ _ _ rfl h

theorem error305AtStatus (u : Bytes) : Statement (.error305AtStatus u) :=
  fun h => short_length _ _ rfl h

theorem unexpectedCodeAtChallenge (c : Bytes) (u : Bytes) (iv : Bytes) (n : BitVec 32) (p : Bytes) :
    Statement (.unexpectedCodeAtChallenge c u iv n p) := by
  intro h
  simp only [WellFormed, Bool.and_eq_true, beq_iff_eq] at h
  exact long_length _ _ _ _ _ h.1.1.2 h.1.1.1

theorem unexpectedCodeAtStatus (c : Bytes) (u : Bytes) :
    Statement (.unexpectedCodeAtStatus c u) := by
  intro h
  simp only [WellFormed, Bool.and_eq_true, beq_iff_eq] at h
  exact short_length _ _ h.1.1.1.2 h.1.1.1.1

theorem start : Statement (.start) :=
  fun _ => rfl

theorem buildReq : Statement (.buildReq) :=
  fun _ => rfl

theorem parseChal : Statement (.parseChal) :=
  fun _ => rfl

theorem decrypt : Statement (.decrypt) :=
  fun _ => rfl

theorem decode : Statement (.decode) :=
  fun _ => rfl

theorem solve : Statement (.solve) :=
  fun _ => rfl

theorem encode : Statement (.encode) :=
  fun _ => rfl

theorem encrypt : Statement (.encrypt) :=
  fun _ => rfl

theorem buildResp : Statement (.buildResp) :=
  fun _ => rfl

theorem parseStat : Statement (.parseStat) :=
  fun _ => rfl

theorem reset : Statement (.reset) :=
  fun _ => rfl

theorem reservedCmd (op : Byte) : Statement (.reservedCmd op) :=
  fun _ => rfl

end Sys2Proof.Laws.EncodingWidth
end

