-- ==== Sys2Proof/Laws/Step.lean ====
section
/-! SUPPORT. What a command and each of the engine's steps can do: one lemma for each, which says every case and
what holds in it. -/

namespace Sys2Proof.Machine

/-! ### Commands -/

/-- An operation that keeps what `OpKeeps` lists, from every state whose data are sound. -/
def OpSound (op : State → OpResult) : Prop :=
  ∀ s, DataInv s → (∀ t, op s = .done t → OpKeeps s t) ∧ ∀ c t, op s = .raised c t → OpKeeps s t

theorem startAccepted_some {s : State} {u : Bytes} (h : startAccepted s = some u) :
    s.busy = false ∧ s.pstate = .init ∧ s.keyBytes.isSome = true ∧ s.userField = some u := by
  unfold startAccepted at h
  split at h
  · rename_i hc
    exact ⟨hc.1, hc.2.1, hc.2.2, h⟩
  · cases h

/-- A byte written to `CMD` is refused, resets the engine, begins a session, or runs one unit
operation. -/
theorem exec_commandInstr_cases (b : Byte) (s : State) :
    exec (commandInstr b) s = .next (refuseCommand s)
      ∨ (b = 0x0B ∧ s.busy = false ∧ exec (commandInstr b) s = .next (hardReset s))
      ∨ (∃ u, startAccepted s = some u ∧ exec (commandInstr b) s = .next (startSession u s))
      ∨ ∃ op, OpSound op ∧ exec (commandInstr b) s = .next (unitCommand op s) := by
  unfold commandInstr
  by_cases h1 : b = 0x01
  · rw [if_pos h1]
    cases h : startAccepted s with
    | none => exact .inl (by simp only [exec, execStart, h])
    | some u => exact .inr (.inr (.inl ⟨u, rfl, by simp only [exec, execStart, h]⟩))
  rw [if_neg h1]
  by_cases h2 : b = 0x02
  · rw [if_pos h2]; exact .inr (.inr (.inr ⟨_, fun s h => ⟨fun t ht => buildReqOp_keeps h ht,
      fun c t ht => absurd ht buildReqOp_raised⟩, rfl⟩))
  rw [if_neg h2]
  by_cases h3 : b = 0x03
  · rw [if_pos h3]; exact .inr (.inr (.inr ⟨_, fun s h => parseChalOp_keeps h, rfl⟩))
  rw [if_neg h3]
  by_cases h4 : b = 0x04
  · rw [if_pos h4]; exact .inr (.inr (.inr ⟨_, fun s h => decryptOp_keeps h, rfl⟩))
  rw [if_neg h4]
  by_cases h5 : b = 0x05
  · rw [if_pos h5]; exact .inr (.inr (.inr ⟨_, fun s h => decodeOp_keeps h, rfl⟩))
  rw [if_neg h5]
  by_cases h6 : b = 0x06
  · rw [if_pos h6]; exact .inr (.inr (.inr ⟨_, fun s h => solveOp_keeps h, rfl⟩))
  rw [if_neg h6]
  by_cases h7 : b = 0x07
  · rw [if_pos h7]; exact .inr (.inr (.inr ⟨_, fun s h => ⟨fun t ht => encodeOp_keeps h ht,
      fun c t ht => absurd ht encodeOp_raised⟩, rfl⟩))
  rw [if_neg h7]
  by_cases h8 : b = 0x08
  · rw [if_pos h8]; exact .inr (.inr (.inr ⟨_, fun s h => encryptOp_keeps h, rfl⟩))
  rw [if_neg h8]
  by_cases h9 : b = 0x09
  · rw [if_pos h9]; exact .inr (.inr (.inr ⟨_, fun s h => ⟨fun t ht => buildRespOp_keeps h ht,
      fun c t ht => absurd ht buildRespOp_raised⟩, rfl⟩))
  rw [if_neg h9]
  by_cases h10 : b = 0x0A
  · rw [if_pos h10]; exact .inr (.inr (.inr ⟨_, fun s h => parseStatOp_keeps h, rfl⟩))
  rw [if_neg h10]
  by_cases h11 : b = 0x0B
  · rw [if_pos h11]
    cases h : s.busy with
    | true => exact .inl (by simp only [exec, execReset, h, ↓reduceIte])
    | false => exact .inr (.inl ⟨h11, rfl, by simp [exec, execReset, h]⟩)
  rw [if_neg h11]
  exact .inl rfl

/-- A host access answers the next state, but for the write, while idle, of a byte that no array has. -/
theorem hostAccess_cases (a : HostAction) (s : State) :
    (∃ t, hostAccess a s = .next t) ∨ (s.busy = false ∧ hostAccess a s = .fault .noSuchByte) := by
  cases a with
  | write r v =>
    cases r <;> first
      | exact .inl ⟨_, rfl⟩
      | (rcases exec_commandInstr_cases (v.setWidth 8) s with h | ⟨_, _, h⟩ | ⟨_, _, h⟩ | ⟨_, _, h⟩ <;>
          exact .inl ⟨_, h⟩)
  | read r => exact .inl ⟨_, rfl⟩
  | writeBytes sp off data =>
    simp only [hostAccess, hostWriteBytes]
    split
    · exact .inl ⟨_, rfl⟩
    · rename_i hb
      split
      · split
        · exact .inl ⟨_, rfl⟩
        · exact .inr ⟨by simpa using hb, rfl⟩
      · exact .inl ⟨_, rfl⟩
  | readBytes sp off n => exact .inl ⟨_, rfl⟩

/-- A host write leaves in `UNAME_SRC_LEN` what was there, or a value of its range (R37). -/
theorem nameLengthAfter_cases (old : Option (BitVec 8)) (v : BitVec 8) :
    nameLengthAfter old v = old
      ∨ ∃ w : BitVec 8, w.toNat ≤ Config.unameSrcMax ∧ nameLengthAfter old v = some w := by
  have hm := unameSrcMax_bounds.2
  unfold nameLengthAfter
  split
  · rename_i h
    exact .inr ⟨v, h, rfl⟩
  · split
    · exact .inl rfl
    · rename_i n _
      have hn := Nat.mod_lt n (Nat.succ_pos Config.unameSrcMax)
      refine .inr ⟨_, ?_, rfl⟩
      rw [BitVec.toNat_ofNat]
      exact (Nat.mod_le _ _).trans (Nat.le_of_lt_succ hn)

/-- A value in the register's range is what the register takes (R37). -/
theorem nameLengthAfter_of_le {v : BitVec 8} (old : Option (BitVec 8))
    (h : v.toNat ≤ Config.unameSrcMax) : nameLengthAfter old v = some v := if_pos h

/-! ### The engine's steps -/

theorem txStep_cases (e : TxEvent) (s : State) :
    (s.readBytes .txbuf s.txCnt.toNat 1 = none ∧ txStep e s = .fault .noValueInSession)
      ∨ (e = .err ∧ txStep e s = .next (enterError .transportError s))
      ∨ ∃ b, s.readBytes .txbuf s.txCnt.toNat 1 = some b ∧ e = .accept ∧
          ((s.txCnt + 1 = s.txLen ∧ txStep e s = .next (frameSent (byteAccepted b s)))
            ∨ (s.txCnt + 1 ≠ s.txLen ∧ txStep e s = .next (byteAccepted b s))) := by
  unfold txStep
  cases h : s.readBytes .txbuf s.txCnt.toNat 1 with
  | none => exact .inl ⟨rfl, rfl⟩
  | some b =>
    cases e with
    | err => exact .inr (.inl ⟨rfl, rfl⟩)
    | accept =>
      refine .inr (.inr ⟨b, rfl, rfl, ?_⟩)
      by_cases hl : s.txCnt + 1 = s.txLen
      · exact .inl ⟨hl, if_pos hl⟩
      · exact .inr ⟨hl, if_neg hl⟩

theorem afterChallenge_cases (s : State) :
    (decryptOp s = .lacking ∧ afterChallenge s = .fault .noValueInSession)
      ∨ (decryptOp s = .raised .decryptFail (decryptFailed s)
          ∧ afterChallenge s = .next (enterError .decryptFail (decryptFailed s)))
      ∨ ∃ t, decryptOp s = .done t ∧ afterChallenge s = .next (setPState .challengeReceived t) := by
  unfold afterChallenge
  cases h : decryptOp s with
  | lacking => exact .inl ⟨rfl, rfl⟩
  | raised c t =>
    obtain ⟨rfl, rfl⟩ := decryptOp_raised h
    exact .inr (.inl ⟨rfl, rfl⟩)
  | done t => exact .inr (.inr ⟨t, rfl, rfl⟩)

/-- A frame at the challenge point raises before anything is written, or is extracted and
decrypted. -/
theorem runChallengeFrame_cases (f : Bytes) {s : State} (hb : s.busy = true)
    (hp : s.pstate ≠ .error) :
    (∃ c, c ∈ [Cause.serverReported, .unexpectedCode, .badLength]
        ∧ runChallengeFrame (challengePointInstr f) s = .next (enterError c s))
      ∨ ∃ ct, ct.length ≤ 96 ∧ runChallengeFrame (challengePointInstr f) s
          = afterChallenge (extractChallenge (frameIv f) ct s) := by
  unfold runChallengeFrame
  rw [exec_challengePointInstr]
  rcases classifyCode_challenge (frameCode f) with ⟨c, hc, hm⟩ | hc
  · refine .inl ⟨c, by simp only [List.mem_cons] at hm ⊢; tauto, ?_⟩
    simp only [hc, outcomeOf, raise_busy c hb, enterError_pstate, ↓reduceIte]
  · simp only [hc]
    rcases acceptChallenge_cases (frameIv f) (framePayloadLen f) (framePayload f) s with
      ⟨_, e⟩ | ⟨hle, e⟩
    · refine .inl ⟨.badLength, by simp, ?_⟩
      simp only [e, outcomeOf, raise_busy _ hb, enterError_pstate, ↓reduceIte]
    · refine .inr ⟨(framePayload f).take (framePayloadLen f).toNat, ?_, ?_⟩
      · rw [List.length_take]; omega
      · simp only [e, outcomeOf, extractChallenge_pstate, hp, ↓reduceIte]

/-- A frame at the status point ends the session. -/
theorem runStatusFrame_cases (f : Bytes) {s : State} (hb : s.busy = true) :
    (∃ c, c ∈ [Cause.serverReported, .unexpectedStatus]
        ∧ runStatusFrame (statusPointInstr f) s = .next (enterError c (putVerdict .none s)))
      ∨ runStatusFrame (statusPointInstr f) s
          = .next (endSession .success (putVerdict .success s))
      ∨ runStatusFrame (statusPointInstr f) s
          = .next (endSession .failure (putVerdict .failure s)) := by
  unfold runStatusFrame
  rw [exec_statusPointInstr]
  rcases classifyCode_status (frameCode f) with ⟨c, hc, hm⟩ | hc | hc
  · refine .inl ⟨c, hm, ?_⟩
    have hb' : (putVerdict .none s).busy = true := hb
    simp only [hc, outcomeOf, raise_busy c hb', afterStatus, enterError_verdict,
      putVerdict_verdict]
  · exact .inr (.inl (by simp only [hc, outcomeOf, afterStatus, putVerdict_verdict]))
  · exact .inr (.inr (by simp only [hc, outcomeOf, afterStatus, putVerdict_verdict]))

theorem decode_challengePoint {f : Bytes} (h : f.length = 167) :
    decode .challengePoint f = .instr (challengePointInstr f) := if_pos h

theorem decode_statusPoint {f : Bytes} (h : f.length = 19) :
    decode .statusPoint f = .instr (statusPointInstr f) := if_pos h

/-- T3 from DECODE to the dispatch: no plaintext to decode, a wrong length, a solver failure, or the
result with what follows. -/
theorem computeStep_cases {s : State} (hb : s.busy = true) :
    (decodeOp s = .lacking ∧ computeStep s = .fault .noValueInSession)
      ∨ (s.coutLen ≠ 9 ∧ computeStep s = .next (enterError .badChallengeLen s))
      ∨ ∃ c, s.readBytes .cout 0 9 = some c ∧
          ((∃ k, k ∈ [Cause.divByZero, .unknownOperator] ∧
              computeStep s = .next (enterError k (dropResult (loadChallenge c s))))
            ∨ ∃ v, computeStep s = afterSolve (putResult v (loadChallenge c s))) := by
  unfold computeStep
  cases h : decodeOp s with
  | lacking => exact .inl ⟨rfl, rfl⟩
  | raised c t =>
    obtain ⟨_, hl, rfl, rfl⟩ := decodeOp_raised h
    exact .inr (.inl ⟨hl, rfl⟩)
  | done t =>
    obtain ⟨_, _, c, hc, rfl⟩ := decodeOp_done h
    refine .inr (.inr ⟨c, hc, ?_⟩)
    have hch : (loadChallenge c s).challenge = some (challengeInstr (c.headD 0)
        (be32 (slice c 1 4)) (be32 (slice c 5 4))) := rfl
    simp only [hch, runChallengeWord, exec_challengeInstr]
    have hb' : (dropResult (loadChallenge c s)).busy = true := hb
    rcases evaluate_cases (c.headD 0) (be32 (slice c 1 4)) (be32 (slice c 5 4))
      (loadChallenge c s) with ⟨v, e⟩ | e | e
    · exact .inr ⟨v, by simp only [e, outcomeOf, putResult_resultValid, ↓reduceIte]⟩
    · refine .inl ⟨.divByZero, by simp, ?_⟩
      simp only [e, outcomeOf, raise_busy _ hb', enterError_resultValid, dropResult_resultValid,
        Bool.false_eq_true, ↓reduceIte]
    · refine .inl ⟨.unknownOperator, by simp, ?_⟩
      simp only [e, outcomeOf, raise_busy _ hb', enterError_resultValid, dropResult_resultValid,
        Bool.false_eq_true, ↓reduceIte]

/-- T3 after SOLVE, when its operations have what they read. -/
theorem afterSolve_of_ops {s a b c : State} (h1 : encodeOp s = .done a) (h2 : encryptOp a = .done b)
    (h3 : buildRespOp b = .done c) : afterSolve s = .next (startSending c) := by
  simp only [afterSolve, h1, h2, h3, OpResult.andThen, sessionStep]

/-- The engine's move: it waits, or takes the one step that is enabled. -/
theorem engineStep_cases (s : State) :
    engineStep s = .next s
      ∨ (∃ e, s.txActive = true ∧ s.txEvents.head? = some e
          ∧ engineStep s = txStep e (takeTxEvent s))
      ∨ (∃ e, s.rxEnabled = true ∧ s.rxStream.head? = some e
          ∧ engineStep s = rxStep e (takeRxEvent s))
      ∨ (s.txActive = false ∧ s.pstate = .challengeReceived ∧ engineStep s = computeStep s) := by
  unfold engineStep
  split
  · rename_i ha
    split
    · exact .inl rfl
    · rename_i e es he
      exact .inr (.inl ⟨e, ha, by rw [he]; rfl, rfl⟩)
  · rename_i ha
    have ha : s.txActive = false := by simpa using ha
    split
    · rename_i hr
      split
      · exact .inl rfl
      · rename_i e es he
        exact .inr (.inr (.inl ⟨e, hr, by rw [he]; rfl, rfl⟩))
    · split
      · rename_i hc
        simp only [State.computeEnabled, Bool.and_eq_true, beq_iff_eq] at hc
        exact .inr (.inr (.inr ⟨ha, hc.1, rfl⟩))
      · exact .inl rfl

theorem rxEnabled_iff (s : State) : s.rxEnabled = true ↔ s.busy = true ∧ s.txActive = false
    ∧ (s.pstate = .awaitChallenge ∨ s.pstate = .responseSent) ∧ s.rxCnt < s.rxNeed := by
  simp only [State.rxEnabled, Bool.and_eq_true, Bool.or_eq_true, beq_iff_eq, decide_eq_true_eq,
    Bool.not_eq_true']
  tauto

/-- One step of the machine, by whose turn it is. -/
theorem step_cases (s : State) :
    (s.turns = [] ∧ step s = .next s)
      ∨ (∃ ts, s.turns = .host :: ts ∧ step s = hostStep s.nextTurn)
      ∨ (∃ ts, s.turns = .engine :: ts ∧ step s = engineStep s.nextTurn)
      ∨ ∃ ts, s.turns = .resetInput :: ts ∧ step s = .next (hardReset s.nextTurn) := by
  unfold step
  split <;> rename_i h
  · exact .inl ⟨h, rfl⟩
  · exact .inr (.inl ⟨_, h, rfl⟩)
  · exact .inr (.inr (.inl ⟨_, h, rfl⟩))
  · exact .inr (.inr (.inr ⟨_, h, rfl⟩))

end Sys2Proof.Machine
end

