-- ==== Sys2Proof/Tests/Slice0.lean ====
section
/-! SUPPORT. Tests, their expected values from the spec (the vectors of spec/95_test_vectors.md, or the rule
that the comment names), and for each statement with hypotheses a state that meets them. -/

namespace Sys2Proof.Tests

open Sys2Proof Sys2Proof.Machine

set_option Elab.async false

/-! ### Values and states -/

/-- The key of the vectors. -/
def K0 : Bytes := toBE 16 0x000102030405060708090a0b0c0d0e0f
/-- The server's IV of the vectors. -/
def IVS : Bytes := toBE 16 0x101112131415161718191a1b1c1d1e1f
/-- The drawn IV of the vectors. -/
def IVC : Bytes := toBE 16 0xa0a1a2a3a4a5a6a7a8a9aaabacadaeaf
/-- The one block that decrypts to `CHAL('*',6,7)` under `K0` and `IVS`. -/
def C1 : Bytes := toBE 16 0x1e53d1cac402daab5899de06dc43eb9a
/-- The user name `alice`. -/
def alice : Bytes := [0x61, 0x6c, 0x69, 0x63, 0x65]
/-- The username field of `alice`. -/
def aliceField : Bytes := alice ++ List.replicate 11 0
/-- `CHAL('*',6,7)`. -/
def chalMul : Bytes := [0x2a, 0, 0, 0, 6, 0, 0, 0, 7]

/-- A long frame with this code, `alice`, `IVS`, this length field and this first payload block. -/
def longOf (code len block : Bytes) : Bytes :=
  code ++ aliceField ++ IVS ++ len ++ block ++ List.replicate 112 0

/-- Step 2 of program P1. -/
def chalFrame : Bytes := longOf [0x31, 0x31, 0x30] [0, 0, 0, 0x10] C1

/-- The bytes `bs` from an address on. -/
def cells (a : Nat) : Bytes → Memory
  | [] => []
  | b :: bs => (a, b) :: cells (a + 1) bs

/-- Buffers that hold these bytes from their first index on; in rising order of their addresses. -/
def holding (parts : List (Space × Bytes)) : Memory :=
  parts.flatMap fun q => cells (q.1.addr 0) q.2

/-- Idle in `Init`, the key and the user name written. -/
def ready : State :=
  { State.reset with
    mem := holding [(.key, K0), (.unameSrc, alice)]
    unameSrcLen := some 5 }

/-- `ready` with a frame's first bytes in `RXBUF`. -/
def withRx (f : Bytes) : State :=
  { ready with mem := holding [(.key, K0), (.unameSrc, alice), (.rxbuf, f)] }

/-- `ready` with a received IV and a ciphertext. -/
def toDecrypt (n : BitVec 8) : State :=
  { ready with
    mem := holding [(.key, K0), (.ivRx, IVS), (.unameSrc, alice), (.cin, C1)]
    ivRxValid := true, cinLen := some n }

/-- `ready` with a plaintext for ENCRYPT. -/
def toEncrypt (p : Bytes) : State :=
  { ready with
    mem := holding [(.key, K0), (.unameSrc, alice), (.cin, p)]
    cinLen := some (BitVec.ofNat 8 p.length) }

/-- `ready` with a plaintext in `COUT`. -/
def withPlain (c : Bytes) : State :=
  { ready with
    mem := holding [(.key, K0), (.unameSrc, alice), (.cout, c)]
    coutKind := .plaintext, coutLen := BitVec.ofNat 8 c.length }

/-- A challenge in the solver's registers. -/
def toSolve (op : Byte) (l r : Operand) : State :=
  { State.reset with op := some op, left := some l, right := some r }

/-- A ciphertext with its IV, not framed yet. -/
def toFrame : State :=
  { ready with
    mem := holding [(.key, K0), (.ivTx, IVC), (.unameSrc, alice),
      (.cout, toBE 16 0x545d46fac6e4c08ea9b8a75e07bda6df)]
    ivTxValid := true, coutKind := .ciphertext, coutLen := 16 }

/-- The Request frame of `alice`. -/
def reqFrame : Bytes := [0x31, 0x30, 0x35] ++ aliceField

/-- A session that is about to send its Request. -/
def started : State :=
  { ready with
    mem := holding [(.key, K0), (.unameSrc, alice), (.txbuf, reqFrame)]
    busy := true, txActive := true, txLen := 19, turns := [.engine], txEvents := [.accept] }

/-- A session that waits for the last byte of the Challenge frame `f`. -/
def awaiting (f : Bytes) : State :=
  { started with
    mem := holding [(.key, K0), (.unameSrc, alice), (.rxbuf, f.take 166), (.txbuf, reqFrame)]
    txActive := false, txCnt := 19, pstate := .awaitChallenge, rxNeed := 167, rxCnt := 166
    rxStream := [.byte 0] }

/-- A session that has decrypted the challenge `c`. -/
def received (c : Bytes) : State :=
  { started with
    mem := holding [(.key, K0), (.unameSrc, alice), (.cout, c), (.txbuf, reqFrame)]
    txActive := false, txCnt := 19, pstate := .challengeReceived, rxNeed := 167, rxCnt := 167
    coutKind := .plaintext, coutLen := BitVec.ofNat 8 c.length }

/-- A session that is about to send the last byte of its Response. -/
def sending : State :=
  { started with
    mem := holding [(.key, K0), (.unameSrc, alice),
      (.txbuf, longOf [0x31, 0x31, 0x35] [0, 0, 0, 0x10] C1)]
    pstate := .challengeReceived, txLen := 167, txCnt := 166, rxNeed := 167, rxCnt := 167 }

/-- A session that waits for the last byte of the Status frame with this code. -/
def waiting (code : Bytes) : State :=
  { started with
    mem := holding [(.key, K0), (.unameSrc, alice), (.rxbuf, code ++ aliceField.take 15)]
    txActive := false, txLen := 167, txCnt := 167, pstate := .responseSent, rxNeed := 19
    rxCnt := 18, rxStream := [.byte 0] }

/-- A session that has ended well. -/
def ended : State :=
  { ready with pstate := .success, turns := [.engine], verdict := .success }

/-- The outcome is a next state with this property. -/
def after (o : Host.Outcome State Fault Refusal) (p : State → Bool) : Bool :=
  match o with
  | .next s => p s
  | .fault _ => false
  | .refused _ => false

/-! ### Ill-formed terms are refused -/

theorem test_wf_unknown_is_not_add : WellFormed (.unknownOperator 0x2b 0 0) = false := by decide
theorem test_wf_short_username : WellFormed (.request105 (List.replicate 15 0)) = false := by decide
theorem test_wf_long_username :
    WellFormed (.challenge110 (List.replicate 17 0) IVS 0 (List.replicate 128 0)) = false := by
  decide +kernel
theorem test_wf_long_iv :
    WellFormed (.response115 aliceField [0] 0 (List.replicate 128 0)) = false := by decide +kernel
theorem test_wf_long_payload :
    WellFormed (.error305AtChallenge aliceField IVS 0 (List.replicate 127 0)) = false := by
  decide +kernel
theorem test_wf_challenge_code_length :
    WellFormed (.unexpectedCodeAtChallenge [0x31] aliceField IVS 0 (List.replicate 128 0)) = false := by
  decide +kernel
theorem test_wf_challenge_code_110 :
    WellFormed (.unexpectedCodeAtChallenge [0x31, 0x31, 0x30] aliceField IVS 0
      (List.replicate 128 0)) = false := by decide +kernel
theorem test_wf_challenge_code_305 :
    WellFormed (.unexpectedCodeAtChallenge [0x33, 0x30, 0x35] aliceField IVS 0
      (List.replicate 128 0)) = false := by decide +kernel
theorem test_wf_status_code_length :
    WellFormed (.unexpectedCodeAtStatus [0x31, 0, 0, 0] aliceField) = false := by decide +kernel
theorem test_wf_status_codes :
    (WellFormed (.unexpectedCodeAtStatus [0x32, 0x30, 0x35] aliceField)
      || WellFormed (.unexpectedCodeAtStatus [0x32, 0x31, 0x30] aliceField)
      || WellFormed (.unexpectedCodeAtStatus [0x33, 0x30, 0x35] aliceField)) = false := by
  decide +kernel
theorem test_wf_reserved_is_not_start : WellFormed (.reservedCmd 0x01) = false := by decide
theorem test_wf_good :
    (WellFormed (.unexpectedCodeAtChallenge [0x31, 0x31, 0x31] aliceField IVS 0
        (List.replicate 128 0))
      && WellFormed (.unexpectedCodeAtStatus [0x31, 0x31, 0x30] aliceField)
      && WellFormed (.reservedCmd 0x0c) && WellFormed (.unknownOperator 0x5e 1 0)) = true := by
  decide +kernel

/-! ### Words written out from the encoding tables (R91 to R93, R96, R101 to R103) -/

theorem test_decode_add : decodeTableWord 72 0x2b0000000a00000020 = some (.add 10 32) := by
  decide +kernel
theorem test_decode_sub : decodeTableWord 72 0x2d0000000300000005 = some (.sub 3 5) := by
  decide +kernel
theorem test_decode_mul : decodeTableWord 72 0x2a1234567800000000 = some (.mul 305419896 0) := by
  decide +kernel
theorem test_decode_div : decodeTableWord 72 0x2f0000000700000002 = some (.div 7 2) := by
  decide +kernel
theorem test_decode_mod : decodeTableWord 72 0x25ffffffff00010000 = some (.mod 4294967295 65536) := by
  decide +kernel
theorem test_decode_unknown :
    decodeTableWord 72 0x5e0000000100000000 = some (.unknownOperator 0x5e 1 0) := by decide +kernel
theorem test_decode_request :
    decodeTableWord 152 0x313035616c6963650000000000000000000000
      = some (.request105 aliceField) := by decide +kernel
theorem test_decode_status205 :
    decodeTableWord 152 0x323035616c6963650000000000000000000000
      = some (.status205 aliceField) := by decide +kernel
theorem test_decode_status210 :
    decodeTableWord 152 0x323130616c6963650000000000000000000000
      = some (.status210 aliceField) := by decide +kernel
theorem test_decode_error305_status :
    decodeTableWord 152 0x333035616c6963650000000000000000000000
      = some (.error305AtStatus aliceField) := by decide +kernel
theorem test_decode_unexpected_status :
    decodeTableWord 152 0x323036616c6963650000000000000000000000
      = some (.unexpectedCodeAtStatus [0x32, 0x30, 0x36] aliceField) := by decide +kernel

/-- A long frame as the table's word: code, username, IV, length, first payload block, tail of 7. -/
def longWord (code : Nat) : Nat :=
  code <<< 1312 ||| 0x616c6963650000000000000000000000 <<< 1184
    ||| 0x101112131415161718191a1b1c1d1e1f <<< 1056 ||| 0x00010010 <<< 1024
    ||| 0x1e53d1cac402daab5899de06dc43eb9a <<< 896 ||| 7

/-- Its payload field. -/
def longPayload : Bytes := C1 ++ List.replicate 111 0 ++ [7]

theorem test_decode_challenge :
    decodeTableWord 1336 (longWord 0x313130)
      = some (.challenge110 aliceField IVS 65552 longPayload) := by decide +kernel
theorem test_decode_response :
    decodeTableWord 1336 (longWord 0x313135)
      = some (.response115 aliceField IVS 65552 longPayload) := by decide +kernel
theorem test_decode_error305_challenge :
    decodeTableWord 1336 (longWord 0x333035)
      = some (.error305AtChallenge aliceField IVS 65552 longPayload) := by decide +kernel
theorem test_decode_unexpected_challenge :
    decodeTableWord 1336 (longWord 0x323035)
      = some (.unexpectedCodeAtChallenge [0x32, 0x30, 0x35] aliceField IVS 65552 longPayload) := by
  decide +kernel
theorem test_decode_commands :
    (List.range 14).map (decodeTableWord 8)
      = ([.reservedCmd 0, .start, .buildReq, .parseChal, .decrypt, .decode, .solve, .encode,
          .encrypt, .buildResp, .parseStat, .reset, .reservedCmd 12, .reservedCmd 13]
          : List Instr).map some := by decide +kernel
theorem test_decode_no_other_width : decodeTableWord 16 0x2b2b = none := by decide +kernel
theorem test_decode_wrong_length :
    decode .challengePoint (List.replicate 19 0x33) = .rejected .wrongLength := by decide +kernel

/-! ### The primitive and the pure functions (R254, R256, R257; section 2 of the vectors) -/

theorem test_aes_encrypt :
    blockEnc K0 (toBE 16 0x00112233445566778899aabbccddeeff)
      = toBE 16 0x69c4e0d86a7b0430d8cdb78070b4c55a := by decide +kernel
theorem test_aes_decrypt :
    blockDec K0 (toBE 16 0x69c4e0d86a7b0430d8cdb78070b4c55a)
      = toBE 16 0x00112233445566778899aabbccddeeff := by decide +kernel
theorem test_aes_last_round_key :
    (roundKeys K0).getLastD [] = toBE 16 0x13111d7fe3944a17f307a78b4d2b30c5 := by decide +kernel
theorem test_pad_full_block : pad IVS = IVS ++ List.replicate 16 16 := by decide +kernel
theorem test_unpad_rejects :
    [toBE 16 0x0203, toBE 16 0, toBE 16 0x11, toBE 16 0x2a00000006000000070707070707070706].map unpad
      = [none, none, none, none] := by decide +kernel
theorem test_encrypt_two_blocks :
    (cbcEncrypt blockEnc (toBE 17 0x4142434445464748494a4b4c4d4e4f5051) K0 IVS).1
      = toBE 32 0x8ea07eb4477cd88cf75583500cf4599942fcb4541a84d672d09b3b22892b289f := by
  decide +kernel
theorem test_decrypt_flipped_first_byte :
    cbcDecrypt blockDec (toBE 32 0x8fa07eb4477cd88cf75583500cf4599942fcb4541a84d672d09b3b22892b289f)
      K0 IVS = toBE 17 0x5a83eb8c8bbcd187738e3b113a1b284d50 := by decide +kernel
/-! ### Challenges as instructions (vectors 2.5) -/

theorem test_add_carries_out :
    after (exec (.add 0xffffffff 0xffffffff) State.reset)
      (fun s => s.result == some 0x1fffffffe && s.resultValid) = true := by decide +kernel
theorem test_sub_wraps :
    after (exec (.sub 0 0xffffffff) State.reset) (fun s => s.result == some 0xffffffff00000001)
      = true := by decide +kernel
theorem test_mul_is_exact :
    after (exec (.mul 0xffffffff 0xffffffff) State.reset)
      (fun s => s.result == some 0xfffffffe00000001) = true := by decide +kernel
theorem test_div_truncates :
    after (exec (.div 7 2) State.reset) (fun s => s.result == some 3) = true := by decide +kernel
theorem test_div_by_zero_ends_the_session :
    after (exec (.div 5 0) started) (fun s => s.pstate == .error && s.errReason == .arithmetic
      && s.errCause == .divByZero && !s.busy && s.result == none) = true := by decide +kernel
theorem test_mod :
    after (exec (.mod 0xffffffff 65536) State.reset) (fun s => s.result == some 65535) = true := by
  decide +kernel
theorem test_mod_by_zero :
    after (exec (.mod 9 0) State.reset) (fun s => s.unitCause == .divByZero && !s.resultValid)
      = true := by decide +kernel
theorem test_unknown_operator_before_zero :
    after (exec (.unknownOperator 0x5e 1 0) started) (fun s => s.errCause == .unknownOperator)
      = true := by decide +kernel

/-! ### Frames as instructions (vectors 2.4, 2.6) -/

theorem test_request :
    after (exec (.request105 aliceField) ready) (fun s => s.txLen == 19
      && s.readBytes .txbuf 0 19 == some (toBE 19 0x313035616c6963650000000000000000000000))
      = true := by decide +kernel
theorem test_response_uses_up_its_iv :
    after (exec (.response115 aliceField IVC 16 (List.replicate 128 0)) toFrame) (fun s =>
      s.txLen == 167 && !s.ivTxValid && s.coutKind == .none
        && s.readBytes .txbuf 35 4 == some [0, 0, 0, 16]) = true := by decide +kernel
theorem test_challenge_96_accepted :
    after (exec (.challenge110 aliceField IVS 96 (List.replicate 128 0)) started) (fun s =>
      s.ivRxValid && s.cinLen == some 96 && s.busy) = true := by decide +kernel
theorem test_challenge_65552_is_too_long :
    after (exec (.challenge110 aliceField IVS 65552 (List.replicate 128 0)) started) (fun s =>
      s.errReason == .protocolViolation && s.errCause == .badLength && !s.ivRxValid
        && s.cinLen == none) = true := by decide +kernel
theorem test_status205 :
    after (exec (.status205 aliceField) started) (fun s => s.verdict == .success) = true := by
  decide +kernel
theorem test_status210_is_no_error :
    after (exec (.status210 aliceField) started)
      (fun s => s.verdict == .failure && s.errCause == .none) = true := by decide +kernel
theorem test_error305_at_challenge :
    after (exec (.error305AtChallenge aliceField IVS 0xffffffff longPayload) started) (fun s =>
      s.pstate == .error && s.errReason == .serverReported && s.cinLen == none) = true := by
  decide +kernel
theorem test_error305_at_status :
    after (exec (.error305AtStatus aliceField) { started with verdict := .success }) (fun s =>
      s.errCause == .serverReported && s.verdict == .none) = true := by decide +kernel
theorem test_unexpected_code :
    after (exec (.unexpectedCodeAtChallenge [0x31, 0x30, 0x35] aliceField IVS 0 longPayload) started)
      (fun s => s.errReason == .protocolViolation && s.errCause == .unexpectedCode) = true := by
  decide +kernel
theorem test_unexpected_status :
    after (exec (.unexpectedCodeAtStatus [0x31, 0x31, 0x30] aliceField) started)
      (fun s => s.errReason == .unexpectedStatus && s.errCause == .unexpectedStatus) = true := by
  decide +kernel

/-! ### Host commands (program P6, vectors 2.2 and 2.4 to 2.7) -/

theorem test_start :
    after (exec .start ready) (fun s => s.busy && s.txActive && s.txLen == 19 && s.txCnt == 0
      && s.pstate == .init) = true := by decide +kernel
theorem test_start_without_key :
    after (exec .start State.reset) (fun s => s == { State.reset with cmdErr := true }) = true := by
  decide +kernel
theorem test_buildReq_truncates :
    after (exec .buildReq { ready.writeBytes .unameSrc 0
        (toBE 16 0x4142434445464748494a4b4c4d4e4f50) with unameSrcLen := some 16 }) (fun s =>
      s.readBytes .txbuf 0 19 == some (toBE 19 0x3130354142434445464748494a4b4c4d4e4f00)) = true := by
  decide +kernel
theorem test_parseChal :
    after (exec .parseChal (withRx chalFrame)) (fun s => s.readBytes .ivRx 0 16 == some IVS
      && s.ivRxValid && s.cinLen == some 16 && s.readBytes .cin 0 16 == some C1) = true := by
  decide +kernel
theorem test_parseChal_97 :
    after (exec .parseChal (withRx (longOf [0x31, 0x31, 0x30] [0, 0, 0, 0x61] C1))) (fun s =>
      s.unitCause == .badLength && !s.ivRxValid && s.cinLen == none && s.pstate == .init)
      = true := by decide +kernel
theorem test_decrypt :
    after (exec .decrypt (toDecrypt 16)) (fun s => s.readBytes .cout 0 9 == some chalMul
      && s.coutLen == 9 && s.coutKind == .plaintext && !s.ivRxValid) = true := by decide +kernel
theorem test_decrypt_17 :
    after (exec .decrypt (toDecrypt 17)) (fun s => s.unitCause == .decryptFail && s.coutLen == 0
      && !s.ivRxValid) = true := by decide +kernel
theorem test_decode :
    after (exec .decode (withPlain chalMul)) (fun s =>
      s.op == some 0x2a && s.left == some 6 && s.right == some 7) = true := by decide +kernel
theorem test_decode_short :
    after (exec .decode (withPlain [0x2b, 0, 0, 0, 0x0a, 0, 0, 0])) (fun s =>
      s.unitCause == .badChallengeLen && s.op == none) = true := by decide +kernel
theorem test_solve :
    after (exec .solve (toSolve 0x2d 3 5)) (fun s => s.result == some 0xfffffffffffffffe
      && s.resultValid && s.unitCause == .none) = true := by decide +kernel
theorem test_solve_after_reset :
    after (exec .solve State.reset) (fun s => s == { State.reset with unitCause := .badSequence })
      = true := by decide +kernel
theorem test_encode :
    after (exec .encode { State.reset with result := some 0x1fffffffe, resultValid := true }) (fun s =>
      s.readBytes .cin 0 8 == some [0, 0, 0, 1, 0xff, 0xff, 0xff, 0xfe] && s.cinLen == some 8)
      = true := by decide +kernel
theorem test_encryptWith :
    (match encryptWith IVC (toEncrypt [0, 0, 0, 0, 0, 0, 0, 0x2a]) with
      | .done s => s.readBytes .cout 0 16 == some (toBE 16 0x545d46fac6e4c08ea9b8a75e07bda6df)
          && s.readBytes .ivTx 0 16 == some IVC && s.ivTxValid && s.coutLen == 16
          && s.coutKind == .ciphertext && s.draws == 1
      | .raised _ _ => false
      | .lacking => false) = true := by decide +kernel
theorem test_encrypt_97 :
    after (exec .encrypt { toFrame with cinLen := some 97 }) (fun s => s.unitCause == .encryptFail
      && s.coutLen == 0 && s.coutKind == .none && !s.ivTxValid && s.draws == 0) = true := by
  decide +kernel
theorem test_buildResp :
    after (exec .buildResp toFrame) (fun s => s.txLen == 167 && !s.ivTxValid && s.coutKind == .none
      && s.readBytes .txbuf 0 56 == some ([0x31, 0x31, 0x35] ++ aliceField ++ IVC
          ++ [0, 0, 0, 0x10] ++ toBE 16 0x545d46fac6e4c08ea9b8a75e07bda6df ++ [0])) = true := by
  decide +kernel
theorem test_buildResp_of_plaintext :
    after (exec .buildResp { withPlain chalMul with ivTxValid := true }) (fun s =>
      s.unitCause == .badSequence && s.txLen == 0) = true := by decide +kernel
theorem test_parseStat :
    after (exec .parseStat (withRx [0x32, 0x31, 0x30])) (fun s => s.verdict == .failure
      && s.unitCause == .none) = true := by decide +kernel
theorem test_parseStat_305 :
    after (exec .parseStat { withRx [0x33, 0x30, 0x35] with verdict := .success }) (fun s =>
      s.verdict == .none && s.unitCause == .serverReported) = true := by decide +kernel
theorem test_reset_in_error :
    after (exec .reset { toFrame with
        pstate := .error, errReason := .transport, errCause := .transportError,
        cmdErr := true }) (fun s => s == State.reset) = true := by
  decide +kernel
theorem test_reset_busy :
    after (exec .reset started) (fun s => s == { started with cmdErr := true }) = true := by
  decide +kernel
theorem test_reserved :
    after (exec (.reservedCmd 0xff) ready) (fun s => s == { ready with cmdErr := true }) = true := by
  decide +kernel

/-! ### Steps (programs P1 to P5, vectors 2.6) -/

theorem test_step_last_request_byte :
    after (step { started with txCnt := 18 }) (fun s => s.pstate == .awaitChallenge
      && s.rxNeed == 167 && s.rxCnt == 0 && s.txCnt == 19 && !s.txActive && s.txStream == [0])
      = true := by decide +kernel
theorem test_step_fifth_byte_fails :
    after (step { started with txCnt := 4, txEvents := [.err] }) (fun s => s.pstate == .error
      && s.errReason == .transport && s.errCause == .transportError && s.txCnt == 4) = true := by
  decide +kernel
theorem test_step_last_challenge_byte :
    after (step (awaiting chalFrame)) (fun s => s.pstate == .challengeReceived
      && s.readBytes .cout 0 9 == some chalMul && s.coutLen == 9 && !s.ivRxValid && s.busy)
      = true := by decide +kernel
theorem test_step_bad_padding :
    after (step (awaiting (longOf [0x31, 0x31, 0x30] [0, 0, 0, 0x10] (toBE 16 0)))) (fun s =>
      s.pstate == .error && s.errReason == .cryptoFailure && s.errCause == .decryptFail)
      = true := by decide +kernel
theorem test_step_close :
    after (step { awaiting chalFrame with rxCnt := 100, rxStream := [.close] }) (fun s =>
      s.errCause == .transportClosed && s.rxCnt == 100 && s.cinLen == none) = true := by
  decide +kernel
theorem test_step_compute :
    after (step (received chalMul)) (fun s => s.result == some 42 && s.txLen == 167 && s.txCnt == 0
      && s.txActive && s.readBytes .txbuf 0 3 == some [0x31, 0x31, 0x35] && !s.ivTxValid
      && s.coutKind == .none && s.draws == 1 && s.cinLen == some 8) = true := by decide +kernel
theorem test_step_division_by_zero :
    after (step (received [0x2f, 0, 0, 0, 5, 0, 0, 0, 0])) (fun s => s.pstate == .error
      && s.errReason == .arithmetic && s.errCause == .divByZero && !s.busy && !s.txActive
      && s.txLen == 19 && s.txCnt == 19 && s.draws == 0) = true := by decide +kernel
theorem test_step_last_response_byte :
    after (step sending) (fun s => s.pstate == .responseSent && s.rxNeed == 19 && s.rxCnt == 0)
      = true := by decide +kernel
theorem test_step_success :
    after (step (waiting [0x32, 0x30, 0x35])) (fun s => s.pstate == .success && !s.busy
      && s.isDone && s.verdict == .success) = true := by decide +kernel
theorem test_step_unexpected_status :
    after (step (waiting [0x32, 0x30, 0x36])) (fun s => s.pstate == .error
      && s.errCause == .unexpectedStatus && s.verdict == .none) = true := by decide +kernel
theorem test_step_key_is_not_read :
    after (step { ready with turns := [.host], hostQueue := [.readBytes .key 0 16] })
      (fun s => s.lastRead == some .refused) = true := by decide +kernel
theorem test_step_key_is_not_written_while_busy :
    after (step { started with turns := [.host], hostQueue := [.writeBytes .key 0 IVS] })
      (fun s => s.readBytes .key 0 16 == some K0 && s.cmdErr) = true := by decide +kernel

/-! ### A placed instruction runs as the first one after reset -/

theorem test_placed_challenge :
    after (step (State.reset.withFetchWord 72 0x2a0000000600000007))
      (fun s => s.result == some 42) = true := by decide +kernel
theorem test_placed_request :
    after (step (State.reset.withFetchWord 152 0x313035616c6963650000000000000000000000))
      (fun s => s.readBytes .txbuf 0 8 == some ([0x31, 0x30, 0x35] ++ alice)) = true := by
  decide +kernel
theorem test_placed_status :
    after (step (State.reset.withFetchWord 152 0x323130616c6963650000000000000000000000))
      (fun s => s.verdict == .failure) = true := by decide +kernel
theorem test_placed_long_frame :
    after (step (State.reset.withFetchWord 1336 (longWord 0x333035)))
      (fun s => s.unitCause == .serverReported) = true := by decide +kernel
theorem test_placed_command :
    after (step (State.reset.withFetchWord 8 0xff)) (fun s => s.cmdErr) = true := by decide +kernel

/-! ### States that meet the hypotheses of the statements

`witness_<Name>` (with `_1`, `_2`, … for further clauses) is for the statement `Obligations.<Name>`. -/

theorem next_of_after {o : Host.Outcome State Fault Refusal} (h : after o (fun _ => true) = true) :
    ∃ t, o = .next t := by
  cases o with
  | next t => exact ⟨t, rfl⟩
  | fault _ => cases h
  | refused _ => cases h

theorem mapped_cells {sp : Space} {off : Nat} {bs : Bytes} (h : off + bs.length ≤ sp.size) :
    (cells (sp.addr off) bs).mapped = true := by
  induction bs generalizing off with
  | nil => rfl
  | cons b bs ih =>
    simp only [List.length_cons] at h
    have hi : (cells (sp.addr (off + 1)) bs).mapped = true := ih (by omega)
    have e : sp.addr off + 1 = sp.addr (off + 1) := Nat.add_assoc _ _ _
    simp only [cells, e]
    simp only [Memory.mapped, List.all_cons, Bool.and_eq_true] at hi ⊢
    exact ⟨addressMapped_addr (by omega), hi⟩

theorem mapped_holding {parts : List (Space × Bytes)}
    (h : parts.all (fun q => decide (0 + q.2.length ≤ q.1.size)) = true) :
    (holding parts).mapped = true := by
  simp only [Memory.mapped, holding, List.all_flatMap, List.all_eq_true, decide_eq_true_eq] at *
  intro q hq
  have := mapped_cells (h q hq)
  simpa only [Memory.mapped, List.all_eq_true] using this

/-- The name `alice` is within every bound that R37 allows. -/
theorem alice_fits {s : State} (h : s.unameSrcLen = some 5) (n : BitVec 8)
    (hn : s.unameSrcLen = some n) : n.toNat ≤ Config.unameSrcMax := by
  cases h.symm.trans hn
  exact Nat.le_trans (by decide) unameSrcMax_bounds.1

theorem inv_ended : EngineInv ended :=
  ⟨⟨by decide +kernel, mapped_holding (by decide +kernel)⟩,
    by decide +kernel, by decide +kernel, by decide +kernel, by decide +kernel,
    by decide +kernel, by decide +kernel, alice_fits rfl, by decide +kernel, by decide +kernel,
    fun h => absurd h (by decide)⟩

theorem inv_started : EngineInv started :=
  ⟨⟨by decide +kernel, mapped_holding (by decide +kernel)⟩,
    by decide +kernel, by decide +kernel, by decide +kernel, by decide +kernel,
    by decide +kernel, by decide +kernel, alice_fits rfl, by decide +kernel, by decide +kernel,
    fun _ => ⟨by decide +kernel, by decide +kernel, by
      show started.txActive = true ∧ started.txLen = 19 ∧ started.txCnt < 19
        ∧ (started.readBytes .txbuf 0 19).isSome = true
      decide +kernel⟩⟩

theorem inv_awaiting : EngineInv (awaiting chalFrame) :=
  ⟨⟨by decide +kernel, mapped_holding (by decide +kernel)⟩,
    by decide +kernel,
    by decide +kernel, by decide +kernel, by decide +kernel, by decide +kernel, by decide +kernel,
    alice_fits rfl, by decide +kernel, by decide +kernel,
    fun _ => ⟨by decide +kernel, by decide +kernel, by
      show (awaiting chalFrame).txActive = false ∧ (awaiting chalFrame).rxNeed = 167
        ∧ (awaiting chalFrame).rxCnt < 167
        ∧ ((awaiting chalFrame).readBytes .rxbuf 0 (awaiting chalFrame).rxCnt.toNat).isSome = true
      decide +kernel⟩⟩

theorem inv_received (c : Bytes)
    (hl : [(Space.key, K0), (.unameSrc, alice), (.cout, c), (.txbuf, reqFrame)].all
      (fun q => decide (0 + q.2.length ≤ q.1.size)) = true)
    (h : ((received c).readBytes .cout 0 (received c).coutLen.toNat).isSome = true
      ∧ 1 ≤ (received c).coutLen.toNat ∧ (received c).coutLen.toNat ≤ 127
      ∧ (received c).keyBytes.isSome = true ∧ (received c).userField.isSome = true
      ∧ (received c).mem.wf = true) :
    EngineInv (received c) :=
  ⟨⟨h.2.2.2.2.2, mapped_holding hl⟩, rfl, (nomatch ·), (nomatch ·), (nomatch ·),
    fun _ => ⟨h.2.1, h.2.2.1, h.1⟩, ⟨⟨(nomatch ·), fun k => absurd rfl k⟩, rfl, (nomatch ·)⟩,
    alice_fits rfl, ⟨.inr (.inl rfl), .inr (.inr rfl), by show (167 : BitVec 8) ≤ 167; decide,
      by show (19 : BitVec 8) ≤ 167; decide, fun _ => by show (19 : BitVec 8) ≤ 19; decide⟩,
    (nomatch ·),
    fun _ => ⟨h.2.2.2.1, h.2.2.2.2.1, .inr ⟨rfl, rfl⟩⟩⟩

theorem inv_received_mul : EngineInv (received chalMul) :=
  inv_received _ (by decide +kernel) (by decide +kernel)

theorem inv_sending : EngineInv sending :=
  ⟨⟨by decide +kernel, mapped_holding (by decide +kernel)⟩,
    by decide +kernel,
    by decide +kernel, by decide +kernel, by decide +kernel, by decide +kernel, by decide +kernel,
    alice_fits rfl, by decide +kernel, by decide +kernel,
    fun _ => ⟨by decide +kernel, by decide +kernel, .inl (by decide +kernel)⟩⟩

theorem inv_waiting : EngineInv (waiting [0x32, 0x30, 0x35]) :=
  ⟨⟨by decide +kernel, mapped_holding (by decide +kernel)⟩,
    by decide +kernel,
    by decide +kernel, by decide +kernel, by decide +kernel, by decide +kernel, by decide +kernel,
    alice_fits rfl, by decide +kernel, by decide +kernel,
    fun _ => ⟨by decide +kernel, by decide +kernel, by
      show (waiting [0x32, 0x30, 0x35]).txActive = false ∧ (waiting [0x32, 0x30, 0x35]).rxNeed = 19
        ∧ (waiting [0x32, 0x30, 0x35]).rxCnt < 19
        ∧ ((waiting [0x32, 0x30, 0x35]).readBytes .rxbuf 0
            (waiting [0x32, 0x30, 0x35]).rxCnt.toNat).isSome = true
      decide +kernel⟩⟩

theorem witness_DecodeOfEncodeIsTheInstruction :
    WellFormed (.challenge110 aliceField IVS 0xffffffff longPayload) = true := by decide +kernel
theorem witness_DecodedBytesAreTheEncoding :
    decode .outbound ([0x31, 0x30, 0x35] ++ aliceField) = .instr (.request105 aliceField) := by
  decide +kernel
theorem witness_ResetClearsTheEngineOnly :
    State.turns { started with turns := [.resetInput, .host] } = [.resetInput, .host]
      ∧ ended.busy = false ∧ started.busy = true := by decide
theorem witness_StepKeepsTheEngineInvariant : EngineInv started ∧ ∃ t, step started = .next t :=
  ⟨inv_started, next_of_after (by decide +kernel)⟩
theorem witness_SessionStepsNeverLackAValue :
    EngineInv (received chalMul) ∧ (received chalMul).turns = [.engine] :=
  ⟨inv_received_mul, rfl⟩
theorem witness_SessionStepsNeverLackAValue_2 :
    step { ended with turns := [.host], hostQueue := [.writeBytes .key 15 [1, 2]] }
      = .fault .noSuchByte := rfl
theorem witness_PstateMovesOnlyByTheTable : EngineInv sending ∧ ∃ t, step sending = .next t :=
  ⟨inv_sending, next_of_after (by decide +kernel)⟩
theorem witness_TerminalStatesHoldWithoutReset :
    EngineInv ended ∧ ended.pstate.terminal = true ∧ (∃ t, step ended = .next t)
      ∧ ended.turns.head? ≠ some .resetInput
      ∧ ∀ v, ended.hostQueue.head? = some (.write .cmd v) → v.setWidth 8 ≠ (0x0B : BitVec 8) :=
  ⟨inv_ended, by decide, next_of_after (by decide +kernel), by decide, fun _ h => nomatch h⟩
theorem witness_SessionAdvancesOrEnds :
    (EngineInv started ∧ started.busy = true ∧ eventReady started = true
        ∧ started.turns = [.engine])
      ∧ (EngineInv (awaiting chalFrame) ∧ (awaiting chalFrame).busy = true
        ∧ eventReady (awaiting chalFrame) = true ∧ (awaiting chalFrame).turns = [.engine])
      ∧ (EngineInv (received chalMul) ∧ (received chalMul).busy = true
        ∧ eventReady (received chalMul) = true ∧ (received chalMul).turns = [.engine]) :=
  ⟨⟨inv_started, by decide +kernel⟩, ⟨inv_awaiting, by decide +kernel⟩,
    ⟨inv_received_mul, by decide +kernel⟩⟩
theorem witness_SessionAdvancesOrEnds_2 :
    EngineInv (waiting [0x32, 0x30, 0x35]) ∧ (waiting [0x32, 0x30, 0x35]).busy = true
      ∧ eventReady (waiting [0x32, 0x30, 0x35]) = true
      ∧ (waiting [0x32, 0x30, 0x35]).turns = [.engine] :=
  ⟨inv_waiting, by decide +kernel⟩
theorem witness_SessionKeepsKeyAndUserName :
    EngineInv started ∧ started.busy = true ∧ started.turns.head? ≠ some .resetInput
      ∧ ∃ t, step started = .next t :=
  ⟨inv_started, by decide, by decide, next_of_after (by decide +kernel)⟩

theorem witness_SubWrapsModulo64Bits : (0 : Operand).toNat < (0xffffffff : Operand).toNat := by decide
theorem witness_DivGivesTheQuotientOrRaises :
    (1 : Operand).toNat ≠ 0 ∧ (0 : Operand).toNat = 0 := by decide
theorem witness_ModGivesTheRemainderOrRaises :
    (1 : Operand).toNat ≠ 0 ∧ (0 : Operand).toNat = 0 := by decide
theorem witness_UnknownOperatorRaises :
    (0x2c : Byte) ≠ 0x25 ∧ (0x2c : Byte) ≠ 0x2A ∧ (0x2c : Byte) ≠ 0x2B ∧ (0x2c : Byte) ≠ 0x2D
      ∧ (0x2c : Byte) ≠ 0x2F := by decide
theorem witness_DecodeLoadsTheChallenge :
    (withPlain chalMul).busy = false ∧ (withPlain chalMul).coutKind = .plaintext
      ∧ (withPlain chalMul).coutLen = 9
      ∧ (withPlain chalMul).readBytes .cout 0 9 = some [0x2a, 0, 0, 0, 6, 0, 0, 0, 7] := by
  decide +kernel
theorem witness_DecodeLoadsTheChallenge_2 :
    ((withPlain [1]).busy = false ∧ (withPlain [1]).coutKind = .plaintext
        ∧ (withPlain [1]).coutLen ≠ 9)
      ∧ ready.busy = false ∧ ready.coutKind ≠ .plaintext := by decide +kernel

/-- A plaintext of nine bytes that nothing has written. -/
def unwrittenPlain : State := { ready with coutKind := .plaintext, coutLen := 9 }

theorem witness_DecodeLoadsTheChallenge_3 :
    unwrittenPlain.busy = false ∧ unwrittenPlain.coutLen = 9
      ∧ unwrittenPlain.readBytes .cout 0 9 = none := by decide +kernel
theorem witness_SolveEvaluatesTheRegisters :
    (toSolve 0x2d 0 0xffffffff).busy = false ∧ (toSolve 0x2d 0 0xffffffff).op = some 0x2d
      ∧ (toSolve 0x2d 0 0xffffffff).left = some 0
      ∧ (toSolve 0x2d 0 0xffffffff).right = some 0xffffffff
      ∧ solverValue 0x2d (0 : Operand).toNat (0xffffffff : Operand).toNat
          = some 0xffffffff00000001 := by decide +kernel
theorem witness_SolveEvaluatesTheRegisters_2 :
    ((toSolve 0x25 9 0).op = some 0x25 ∧ (toSolve 0x25 9 0).left = some 9
        ∧ (toSolve 0x25 9 0).right = some 0
        ∧ solverValue 0x25 (9 : Operand).toNat (0 : Operand).toNat = none)
      ∧ State.reset.busy = false ∧ State.reset.op = none := by decide +kernel
theorem witness_EncodeWritesTheResultBytes :
    (State.busy { State.reset with result := some 42, resultValid := true } = false
        ∧ State.resultValid { State.reset with result := some 42, resultValid := true } = true
        ∧ State.result { State.reset with result := some 42, resultValid := true } = some 42)
      ∧ State.reset.resultValid = false ∧ State.reset.result = none := by decide

/-- The greatest length that ENCRYPT takes. -/
def plain96 : Bytes := List.replicate 96 0x07

theorem witness_EncryptWritesCiphertextAndItsIv :
    (toEncrypt plain96).busy = false ∧ (toEncrypt plain96).cinLen = some 96
      ∧ (96 : BitVec 8).toNat ≤ 96
      ∧ (toEncrypt plain96).readBytes .cin 0 (96 : BitVec 8).toNat = some plain96
      ∧ (toEncrypt plain96).readBytes .key 0 16 = some K0 := by decide +kernel
theorem witness_EncryptWritesCiphertextAndItsIv_2 :
    (State.cinLen { ready with cinLen := some 97 } = some 97 ∧ 96 < (97 : BitVec 8).toNat)
      ∧ ready.cinLen = none
      ∧ State.cinLen { ready with cinLen := some 96 } = some 96
      ∧ State.readBytes { ready with cinLen := some 96 } .cin 0 96 = none := by decide +kernel
theorem witness_DecryptWritesPlaintextOrFails :
    (toDecrypt 16).busy = false ∧ (toDecrypt 16).ivRxValid = true ∧ (toDecrypt 16).cinLen = some 16
      ∧ (toDecrypt 16).readBytes .cin 0 (16 : BitVec 8).toNat = some C1
      ∧ (toDecrypt 16).readBytes .key 0 16 = some K0
      ∧ (toDecrypt 16).readBytes .ivRx 0 16 = some IVS
      ∧ unpad (cbcDec blockDec K0 IVS C1) = some chalMul ∧ chalMul ≠ [] := by decide +kernel
/-- A ciphertext of the greatest length that DECRYPT takes, of 127 letters `A`. -/
def cipher128 : Bytes := cbcEnc blockEnc K0 IVS (pad (List.replicate 127 0x41))

/-- `toDecrypt` with that ciphertext. -/
def toDecrypt128 : State :=
  { toDecrypt 128 with
    mem := holding [(.key, K0), (.ivRx, IVS), (.unameSrc, alice), (.cin, cipher128)] }

theorem witness_DecryptWritesPlaintextOrFails_128 :
    toDecrypt128.busy = false ∧ toDecrypt128.ivRxValid = true ∧ toDecrypt128.cinLen = some 128
      ∧ toDecrypt128.readBytes .cin 0 (128 : BitVec 8).toNat = some cipher128
      ∧ toDecrypt128.readBytes .key 0 16 = some K0 ∧ toDecrypt128.readBytes .ivRx 0 16 = some IVS
      ∧ unpad (cbcDec blockDec K0 IVS cipher128) = some (List.replicate 127 0x41) := by
  decide +kernel
theorem witness_DecryptWritesPlaintextOrFails_2 :
    unpad (cbcDec blockDec K0 IVS (toBE 16 0)) = none
      ∧ unpad (cbcDec blockDec K0 IVS (toBE 16 0x0a940bb5416ef045f1c3945853c6ea5a)) ≠ some chalMul
      ∧ unpad (cbcDec blockDec K0 IVS (toBE 16 0x0a940bb5416ef045f1c39458c653ea5a)) = some [] := by
  decide +kernel
theorem witness_DecryptWritesPlaintextOrFails_3 :
    ready.ivRxValid = false ∧ (toDecrypt 0).cinLen = some 0 ∧ (toDecrypt 17).cinLen = some 17
      ∧ (17 : BitVec 8).toNat % 16 ≠ 0 ∧ (toDecrypt 144).cinLen = some 144
      ∧ 128 < (144 : BitVec 8).toNat := by decide
theorem witness_DecryptWritesPlaintextOrFails_4 :
    State.cinLen { toDecrypt 16 with cinLen := none } = none
      ∧ (toDecrypt 32).ivRxValid = true ∧ (toDecrypt 32).cinLen = some 32
      ∧ (32 : BitVec 8).toNat % 16 = 0 ∧ (toDecrypt 32).readBytes .cin 0 32 = none
      ∧ State.readBytes { toDecrypt 16 with mem := holding [(.cin, C1)] } .key 0 16 = none
      ∧ State.readBytes { toDecrypt 16 with mem := holding [(.key, K0), (.cin, C1)] } .ivRx 0 16
          = none := by decide +kernel

/-- Exclusive or with the key is a cipher with the law of R146. -/
theorem xor_cipherLaw : CipherLaw (fun k x => xorBytes x k) (fun k y => xorBytes y k) :=
  ⟨fun _ _ hk hx => xorBytes_length_of_eq hx hk, fun _ _ hk hx => xorBytes_length_of_eq hx hk,
    fun _ _ hk hx => xorBytes_xorBytes _ _ (hx.trans hk.symm)⟩

theorem witness_CbcDecryptionUndoesEncryption :
    CipherLaw (fun k x => xorBytes x k) (fun k y => xorBytes y k)
      ∧ K0.length = 16 ∧ IVS.length = 16 ∧ (IVS ++ IVC).length % 16 = 0 :=
  ⟨xor_cipherLaw, by decide +kernel⟩
theorem witness_DecryptOfEncryptIsThePlaintext :
    CipherLaw (fun k x => xorBytes x k) (fun k y => xorBytes y k)
      ∧ K0.length = 16 ∧ IVS.length = 16 ∧ (List.replicate 96 (0x10 : Byte)).length ≤ 96 :=
  ⟨xor_cipherLaw, by decide +kernel⟩
theorem witness_PadAndUnpadFollowTheCount :
    (pad chalMul).length % 16 = 0 ∧ (pad chalMul).getLast? = some 7 ∧ 1 ≤ (7 : Byte).toNat
      ∧ (7 : Byte).toNat ≤ 16
      ∧ (pad chalMul).drop ((pad chalMul).length - (7 : Byte).toNat) = List.replicate 7 7
      ∧ (pad IVS).getLast? = some 16
      ∧ (pad IVS).drop ((pad IVS).length - (16 : Byte).toNat) = List.replicate 16 16 := by
  decide +kernel
theorem witness_PadAndUnpadFollowTheCount_2 :
    (toBE 16 0).getLast? = some 0 ∧ (0 : Byte).toNat < 1 ∧ (toBE 16 0x11).getLast? = some 0x11
      ∧ 16 < (0x11 : Byte).toNat ∧ (toBE 16 0x0203).getLast? = some 3
      ∧ (toBE 16 0x0203)[14]? ≠ some 3 ∧ (toBE 16 0x0203).length - (3 : Byte).toNat ≤ 14
      ∧ 14 < (toBE 16 0x0203).length := by decide +kernel
theorem witness_CiphertextChangeSpreadsToTwoBlocks :
    CipherLaw (fun k x => xorBytes x k) (fun k y => xorBytes y k)
      ∧ K0.length = 16 ∧ IVS.length = 16 ∧ (IVS ++ IVC).length % 16 = 0 ∧ C1.length = 16
      ∧ IVS.length = 16 ∧ C1 ≠ IVS ∧ IVC.length = 16 ∧ ([] : Bytes).length % 16 = 0 :=
  ⟨xor_cipherLaw, by decide +kernel⟩
theorem witness_WrongIvChangesOnlyTheFirstBlock :
    CipherLaw (fun k x => xorBytes x k) (fun k y => xorBytes y k)
      ∧ K0.length = 16 ∧ IVS.length = 16 ∧ IVC.length = 16 ∧ C1.length % 16 = 0 ∧ C1 ≠ [] :=
  ⟨xor_cipherLaw, by decide +kernel⟩
theorem witness_DecryptLengthLaw :
    CipherLaw (fun k x => xorBytes x k) (fun k y => xorBytes y k)
      ∧ K0.length = 16 ∧ IVS.length = 16 ∧ (List.replicate 129 (0 : Byte)).length % 16 ≠ 0
      ∧ 128 < (List.replicate 144 (0 : Byte)).length :=
  ⟨xor_cipherLaw, by decide +kernel⟩

theorem witness_BuildReqWritesTheRequestFrame :
    (ready.busy = false ∧ ready.unameSrcLen = some 5
        ∧ ready.readBytes .unameSrc 0 (min (5 : BitVec 8).toNat 15) = some alice)
      ∧ State.readBytes { State.reset with unameSrcLen := some 0 } .unameSrc 0
          (min (0 : BitVec 8).toNat 15) = some []
      ∧ State.reset.unameSrcLen = none
      ∧ ready.readBytes .unameSrc 0 (min (255 : BitVec 8).toNat 15) = none := by decide +kernel
theorem witness_BuildRespWritesTheResponseFrame :
    (toFrame.busy = false ∧ toFrame.ivTxValid = true ∧ toFrame.coutKind = .ciphertext
        ∧ toFrame.unameSrcLen = some 5
        ∧ toFrame.readBytes .unameSrc 0 (min (5 : BitVec 8).toNat 15) = some alice
        ∧ toFrame.readBytes .ivTx 0 16 = some IVC
        ∧ toFrame.readBytes .cout 0 toFrame.coutLen.toNat
            = some (toBE 16 0x545d46fac6e4c08ea9b8a75e07bda6df))
      ∧ ready.ivTxValid = false ∧ (withPlain chalMul).coutKind ≠ .ciphertext := by decide +kernel
theorem witness_BuildRespWritesTheResponseFrame_2 :
    State.unameSrcLen { toFrame with unameSrcLen := none } = none
      ∧ toFrame.readBytes .unameSrc 0 (min (6 : BitVec 8).toNat 15) = none
      ∧ State.readBytes { toFrame with mem := holding [(.unameSrc, alice)] } .ivTx 0 16 = none
      ∧ State.readBytes { toFrame with coutLen := 32 } .cout 0 32 = none := by decide +kernel
theorem witness_ParseChalChecksThenExtracts :
    ((withRx [0x33, 0x30, 0x35]).busy = false
        ∧ (withRx [0x33, 0x30, 0x35]).readBytes .rxbuf 0 3 = some [0x33, 0x30, 0x35])
      ∧ (withRx [0x31, 0x31, 0]).readBytes .rxbuf 0 3 = some [0x31, 0x31, 0]
      ∧ ready.readBytes .rxbuf 0 3 = none := by decide +kernel

/-- A Challenge frame with a payload of the greatest length that is accepted. -/
def chal96 : State := withRx (longOf [0x31, 0x31, 0x30] [0, 0, 0, 0x60] C1)

theorem witness_ParseChalChecksThenExtracts_2 :
    chal96.busy = false ∧ chal96.readBytes .rxbuf 0 3 = some [0x31, 0x31, 0x30]
      ∧ chal96.readBytes .rxbuf 35 4 = some [0, 0, 0, 0x60] ∧ (0x60 : Byte).toNat ≤ 96
      ∧ chal96.readBytes .rxbuf 19 16 = some IVS
      ∧ chal96.readBytes .rxbuf 39 (0x60 : Byte).toNat = some (C1 ++ List.replicate 80 0) := by
  decide +kernel
theorem witness_ParseChalChecksThenExtracts_3 :
    (withRx (longOf [0x31, 0x31, 0x30] [0, 0, 0, 0x61] C1)).readBytes .rxbuf 35 4
        = some [0, 0, 0, 0x61]
      ∧ 96 < (0 : Byte).toNat * 2 ^ 24 + (0 : Byte).toNat * 2 ^ 16 + (0 : Byte).toNat * 2 ^ 8
          + (0x61 : Byte).toNat := by decide +kernel
theorem witness_ParseChalChecksThenExtracts_4 :
    (withRx [0x31, 0x31, 0x30]).readBytes .rxbuf 0 3 = some [0x31, 0x31, 0x30]
      ∧ (withRx [0x31, 0x31, 0x30]).readBytes .rxbuf 35 4 = none
      ∧ (withRx (chalFrame.take 38)).readBytes .rxbuf 35 4 = none
      ∧ (withRx (chalFrame.take 39)).readBytes .rxbuf 35 4 = some [0, 0, 0, 0x10]
      ∧ (withRx (chalFrame.take 39)).readBytes .rxbuf 39 (0x10 : Byte).toNat = none := by
  decide +kernel

/-- A Challenge frame in `RXBUF` of which the host has written no IV. -/
def noIv : State :=
  (withRx ([0x31, 0x31, 0x30] ++ aliceField)).writeBytes .rxbuf 35 [0, 0, 0, 0]

theorem witness_ParseChalChecksThenExtracts_5 :
    noIv.readBytes .rxbuf 0 3 = some [0x31, 0x31, 0x30]
      ∧ noIv.readBytes .rxbuf 35 4 = some [0, 0, 0, 0] ∧ noIv.readBytes .rxbuf 19 16 = none := by
  decide +kernel
theorem witness_ParseStatGivesTheVerdict :
    ((withRx [0x32, 0x30, 0x35]).busy = false
        ∧ (withRx [0x32, 0x30, 0x35]).readBytes .rxbuf 0 3 = some [0x32, 0x30, 0x35])
      ∧ ready.readBytes .rxbuf 0 3 = none := by decide +kernel

theorem witness_BuiltFramesStandInTxbuf :
    aliceField.length = 16 ∧ IVS.length = 16 ∧ longPayload.length = 128 := by decide +kernel
theorem witness_ChallengeFrameIsCheckedThenExtracted :
    IVS.length = 16 ∧ longPayload.length = 128 ∧ (96 : BitVec 32).toNat ≤ 96
      ∧ 96 < (97 : BitVec 32).toNat := by decide +kernel
theorem witness_RaisingInASessionEntersError : started.busy = true := by decide
theorem witness_UnitCommandsLeaveTheSessionAlone :
    ready.busy = false ∧ 0x02 ≤ (0x02 : Byte).toNat ∧ (0x0A : Byte).toNat ≤ 0x0A := by decide
theorem witness_StartBeginsASession :
    ready.busy = false ∧ ready.pstate = .init ∧ ready.readBytes .key 0 16 = some K0
      ∧ ready.unameSrcLen = some 5
      ∧ ready.readBytes .unameSrc 0 (min (5 : BitVec 8).toNat 15) = some alice := by decide +kernel
theorem witness_StartBeginsASession_2 :
    started.busy = true ∧ ended.pstate ≠ .init ∧ State.reset.readBytes .key 0 16 = none
      ∧ State.reset.unameSrcLen = none
      ∧ ready.readBytes .unameSrc 0 (min (6 : BitVec 8).toNat 15) = none := by decide +kernel
theorem witness_ReservedCommandsOnlySetCmdErr :
    (0x00 : Byte).toNat = 0 ∧ 0x0C ≤ (0x0C : Byte).toNat := by decide
theorem witness_HostCannotDisturbASession :
    started.busy = true := by decide
theorem test_read_past_the_end_while_busy :
    after (hostAccess (.readBytes .rxbuf 160 8) (awaiting chalFrame))
      (fun s => s == { awaiting chalFrame with lastRead := some .refused }) = true := by
  decide +kernel
theorem witness_HostWritesReachTheirRegister :
    ready.busy = false ∧ HostReg.result ≠ .cmd ∧ HostReg.result ≠ .cinLen
      ∧ HostReg.result ≠ .unameSrcLen ∧ HostReg.result ≠ .op ∧ HostReg.result ≠ .left
      ∧ HostReg.result ≠ .right ∧ Space.rxbuf ≠ .ivTx ∧ Space.rxbuf ≠ .cout ∧ Space.rxbuf ≠ .txbuf
      ∧ 166 + [(0x55 : Byte)].length ≤ Space.size .rxbuf := by decide +kernel
/-- The bounds at both ends of `UNAME_SRC_LEN`'s clauses; above `UNAME_SRC_MAX` a byte exists exactly
where an implementation's `UNAME_SRC_MAX` is not 255. -/
theorem witness_HostWritesReachTheirRegister_2 :
    ((0 : BitVec 64).setWidth 8).toNat ≤ Config.unameSrcMax
      ∧ ((20 : BitVec 64).setWidth 8).toNat ≤ Config.unameSrcMax
      ∧ (Config.unameSrcMax ≠ 255 → Config.unameSrcMax < ((255 : BitVec 64).setWidth 8).toNat) :=
  ⟨Nat.zero_le _, unameSrcMax_bounds.1, fun h => Nat.lt_of_le_of_ne unameSrcMax_bounds.2 h⟩
theorem witness_HostWritesReachTheirRegister_3 :
    Space.ivRx ≠ .ivTx ∧ Space.ivRx ≠ .cout ∧ Space.ivRx ≠ .txbuf
      ∧ 0 + IVS.length ≤ Space.size .ivRx ∧ 1 + (IVS.take 15).length ≤ Space.size .ivRx
      ∧ after (hostAccess (.writeBytes .ivRx 0 IVS) ready)
          (fun s => s.ivRxValid && s.readBytes .ivRx 0 16 == some IVS) = true
      ∧ after (hostAccess (.writeBytes .ivRx 1 (IVS.take 15)) ready)
          (fun s => !s.ivRxValid) = true := by decide +kernel
theorem witness_KeyIsNeverReadable :
    (∀ a, ¬(Space.key.addr 0 ≤ a ∧ a < Space.key.addr 16) →
        (ready.writeBytes .key 0 IVS).mem.read a = ready.mem.read a)
      ∧ (ready.writeBytes .key 0 IVS).mem ≠ ready.mem :=
  ⟨fun a h => (ready.writeBytes_stored .key 0 IVS).2 a h, by decide +kernel⟩
theorem witness_ReadOfNoValueIsRefused :
    State.reset.op = none ∧ (toSolve 0x2a 6 7).op = some 0x2a ∧ State.reset.resultValid = false
      ∧ State.result { State.reset with result := some 42, resultValid := true } = some 42
      ∧ ready.readBytes .unameSrc 0 6 = none ∧ ready.readBytes .unameSrc 0 5 = some alice
      ∧ ready.readBytes .txbuf 160 8 = none ∧ Space.unameSrc ≠ .key := by decide +kernel

theorem witness_StepRunsTheCommandWritten :
    State.turns { ready with turns := [.host], hostQueue := [.write .cmd 0x1ff] } = [.host]
      ∧ State.hostQueue { ready with turns := [.host], hostQueue := [.write .cmd 0x1ff] }
          = [.write .cmd 0x1ff]
      ∧ decode .command [(0x1ff : BitVec 64).setWidth 8] = .instr (.reservedCmd 0xff) := by
  decide +kernel
theorem witness_StepRunsTheChallengeFrame :
    (awaiting chalFrame).turns = [.engine] ∧ (awaiting chalFrame).busy = true
      ∧ (awaiting chalFrame).txActive = false ∧ (awaiting chalFrame).pstate = .awaitChallenge
      ∧ (awaiting chalFrame).rxNeed = 167 ∧ (awaiting chalFrame).rxCnt = 166
      ∧ (awaiting chalFrame).rxStream = [.byte 0]
      ∧ (awaiting chalFrame).readBytes .rxbuf 0 166 = some (chalFrame.take 166)
      ∧ decode .challengePoint (chalFrame.take 166 ++ [0])
          = .instr (.challenge110 aliceField IVS 16 (C1 ++ List.replicate 112 0)) := by
  decide +kernel
theorem witness_StepRunsTheStatusFrame :
    (waiting [0x32, 0x30, 0x35]).turns = [.engine] ∧ (waiting [0x32, 0x30, 0x35]).busy = true
      ∧ (waiting [0x32, 0x30, 0x35]).txActive = false
      ∧ (waiting [0x32, 0x30, 0x35]).pstate = .responseSent
      ∧ (waiting [0x32, 0x30, 0x35]).rxNeed = 19 ∧ (waiting [0x32, 0x30, 0x35]).rxCnt = 18
      ∧ (waiting [0x32, 0x30, 0x35]).rxStream = [.byte 0]
      ∧ (waiting [0x32, 0x30, 0x35]).readBytes .rxbuf 0 18
          = some ([0x32, 0x30, 0x35] ++ aliceField.take 15)
      ∧ decode .statusPoint ([0x32, 0x30, 0x35] ++ aliceField.take 15 ++ [0])
          = .instr (.status205 aliceField) := by decide +kernel
theorem witness_StepRunsTheChallengeWord :
    (received chalMul).turns = [.engine] ∧ (received chalMul).busy = true
      ∧ (received chalMul).txActive = false ∧ (received chalMul).pstate = .challengeReceived
      ∧ (received chalMul).coutKind = .plaintext ∧ (received chalMul).coutLen = 9
      ∧ (received chalMul).readBytes .cout 0 9 = some chalMul
      ∧ decode .challengeWord chalMul = .instr (.mul 6 7) := by decide +kernel
theorem witness_ComputeStepBuildsTheResponse :
    EngineInv (received chalMul) ∧ (received chalMul).turns = [.engine]
      ∧ (received chalMul).busy = true ∧ (received chalMul).txActive = false
      ∧ (received chalMul).pstate = .challengeReceived ∧ (received chalMul).coutLen = 9
      ∧ (received chalMul).readBytes .cout 0 9 = some chalMul
      ∧ (received chalMul).readBytes .key 0 16 = some K0
      ∧ (received chalMul).userField = some aliceField
      ∧ solverValue (chalMul.headD 0) (be32 (slice chalMul 1 4)).toNat
          (be32 (slice chalMul 5 4)).toNat = some 42 :=
  ⟨inv_received_mul, by decide +kernel⟩
theorem witness_NoResponseAfterASolverFailure :
    EngineInv (received [0x2f, 0, 0, 0, 5, 0, 0, 0, 0])
      ∧ (received [0x2f, 0, 0, 0, 5, 0, 0, 0, 0]).readBytes .cout 0 9
          = some [0x2f, 0, 0, 0, 5, 0, 0, 0, 0]
      ∧ solverValue 0x2f (be32 (slice [0x2f, 0, 0, 0, 5, 0, 0, 0, 0] 1 4)).toNat
          (be32 (slice [0x2f, 0, 0, 0, 5, 0, 0, 0, 0] 5 4)).toNat = none :=
  ⟨inv_received _ (by decide +kernel) (by decide +kernel), by decide +kernel⟩
theorem witness_NoResponseAfterASolverFailure_2 :
    EngineInv (received (List.replicate 17 0x41))
      ∧ (received (List.replicate 17 0x41)).coutLen ≠ 9 :=
  ⟨inv_received _ (by decide +kernel) (by decide +kernel), by decide +kernel⟩
theorem witness_TxStepSendsOneByte :
    (started.turns = [.engine] ∧ started.txActive = true
        ∧ started.readBytes .txbuf started.txCnt.toNat 1 = some [0x31]
        ∧ started.txEvents = [.accept] ∧ started.txCnt + 1 ≠ started.txLen)
      ∧ State.txCnt { started with txCnt := 18 } + 1 = started.txLen
      ∧ started.readBytes .txbuf (18 : BitVec 8).toNat 1 = some [0] ∧ started.pstate = .init
      ∧ State.txEvents { started with txEvents := [.err] } = [.err] := by decide +kernel
theorem witness_TxStepSendsOneByte_2 :
    sending.turns = [.engine] ∧ sending.txActive = true
      ∧ sending.readBytes .txbuf sending.txCnt.toNat 1 = some [0]
      ∧ sending.txEvents = [.accept] ∧ sending.txCnt + 1 = sending.txLen
      ∧ sending.pstate = .challengeReceived := by decide +kernel
theorem witness_RxStepReceivesOneByte :
    ((awaiting chalFrame).turns = [.engine] ∧ (awaiting chalFrame).busy = true
        ∧ (awaiting chalFrame).txActive = false ∧ (awaiting chalFrame).pstate = .awaitChallenge
        ∧ (awaiting chalFrame).rxCnt < (awaiting chalFrame).rxNeed
        ∧ (awaiting chalFrame).rxStream = [.byte 0])
      ∧ State.rxCnt { awaiting chalFrame with rxCnt := 165 } + 1 ≠ (awaiting chalFrame).rxNeed
      ∧ (waiting [0x32, 0x30, 0x35]).pstate = .responseSent
      ∧ State.rxStream { awaiting chalFrame with rxStream := [.close] } = [.close]
      ∧ State.rxStream { awaiting chalFrame with rxStream := [.err] } = [.err] := by decide +kernel
theorem witness_EngineWaitsWithoutAnEvent :
    State.reset.turns = [] ∧ State.turns { started with txEvents := [] } = [.engine]
      ∧ eventReady { started with txEvents := [] } = false
      ∧ eventReady { awaiting chalFrame with rxStream := [] } = false
      ∧ eventReady { ended with turns := [.engine] } = false := by decide +kernel
theorem witness_ReadsShowReportsAndCounters :
    ended.errCause = .none ∧ State.errCause { ended with errCause := .badChallengeLen } = .badChallengeLen
      ∧ State.unitCause { ended with unitCause := .badSequence } = .badSequence := by decide +kernel

end Sys2Proof.Tests
end

/-! The reset state (spec/10_state.md R43): its memory lists no byte, so no buffer holds a value. -/

namespace Sys2Proof.Machine

/-- An address that is not listed holds no value (R14), and the empty memory lists none. -/
@[simp] theorem Memory.read_nil (a : Nat) : Memory.read [] a = none := rfl

@[simp] theorem State.reset_mem : State.reset.mem = [] := rfl

/-- R43 for the buffers, at every address, whether or not it is a buffer's own. -/
theorem State.reset_mem_read (a : Nat) : State.reset.mem.read a = none := by
  rw [State.reset_mem, Memory.read_nil]

/-- Settles O5: each register's value is the one written in `State.reset`, and the buffers are those
of the empty memory. -/
theorem resetLeavesTheSpecsValues : Obligations.ResetLeavesTheSpecsValues := by
  unfold Obligations.ResetLeavesTheSpecsValues
  have noByte (sp : Space) (i : Nat) : State.reset.mem.read (sp.addr i) = none :=
    State.reset_mem_read (sp.addr i)
  exact ⟨rfl, rfl, rfl, rfl, rfl, rfl, rfl, rfl, rfl, rfl, rfl, rfl, rfl, rfl, rfl, rfl, rfl, rfl,
    rfl, rfl, rfl, rfl, rfl, noByte⟩

end Sys2Proof.Machine

/-! Reserved command codes (spec/30_encoding.md R103, R112): a byte outside the eleven codes is refused. -/

namespace Sys2Proof.Machine

/-- The reserved bytes, as R112 lists them, are those that R103 gives no operation. -/
theorem not_mem_commandCodes_iff (b : Byte) :
    b ∉ commandCodes ↔ b.toNat = 0 ∨ 0x0C ≤ b.toNat := by
  simp only [commandCodes, List.mem_cons, List.not_mem_nil, or_false]
  bv_omega

theorem commandInstr_of_not_mem {b : Byte} (h : b ∉ commandCodes) :
    commandInstr b = .reservedCmd b := by
  simp only [commandCodes, List.mem_cons, List.not_mem_nil, or_false, not_or] at h
  simp only [commandInstr, h, if_false]

/-- R112, busy or not: no hypothesis on the state. -/
theorem exec_reservedCmd (b : Byte) (s : State) :
    exec (.reservedCmd b) s = .next (refuseCommand s) := rfl

/-- Settles O42: the bytes R112 lists are no command codes, so `commandInstr` takes none of its
eleven branches, and the instruction it answers is refused as a busy write is. -/
theorem reservedCommandsOnlySetCmdErr : Obligations.ReservedCommandsOnlySetCmdErr := by
  unfold Obligations.ReservedCommandsOnlySetCmdErr
  intro b s hb
  have notCode : b ∉ commandCodes := (not_mem_commandCodes_iff b).mpr hb
  exact ⟨commandInstr_of_not_mem notCode, exec_reservedCmd b s⟩

end Sys2Proof.Machine

/-! The username field byte by byte (spec/30_encoding.md R99, spec/41_message_framer.md R161): the copied
part of the name, then the zeros. -/

namespace Sys2Proof.Machine

/-- The copied part ends at byte 15 or with the name, whichever comes first. -/
theorem length_take_unameVisibleMax (u : Bytes) :
    (u.take Config.unameVisibleMax).length = min 15 u.length :=
  List.length_take

/-- A byte before the end of the copied part is the name's own. -/
theorem usernameField_getElem?_copied {u : Bytes} {i : Nat} (hi : i < 15) (hu : i < u.length) :
    (usernameField u)[i]? = u[i]? := by
  have inCopy : i < (u.take Config.unameVisibleMax).length := by
    rw [length_take_unameVisibleMax]; omega
  rw [usernameField, List.getElem?_append_left inCopy]
  exact List.getElem?_take_of_lt hi

/-- From the end of the copied part on, the field is zero: its last byte always, and every byte past
the end of a shorter name. -/
theorem usernameField_getElem?_padding {u : Bytes} {i : Nat} (hi : i < 16)
    (hu : 15 ≤ i ∨ u.length ≤ i) : (usernameField u)[i]? = some 0 := by
  have pastCopy : (u.take Config.unameVisibleMax).length ≤ i := by
    rw [length_take_unameVisibleMax]; omega
  have inZeros : i - min 15 u.length < 16 - min u.length 15 := by omega
  rw [usernameField, List.getElem?_append_right pastCopy, length_take_unameVisibleMax]
  exact List.getElem?_replicate_of_lt inZeros

/-- Settles O31: a byte below 15 and inside the name lies in the copied part, any other in the zeros. -/
theorem usernameFieldTruncatesAndPads : Obligations.UsernameFieldTruncatesAndPads := by
  unfold Obligations.UsernameFieldTruncatesAndPads
  intro u
  refine ⟨usernameField_length u, fun i hi => ?_⟩
  split_ifs with copied
  · obtain ⟨visible, inName⟩ := copied
    exact usernameField_getElem?_copied visible inName
  · have atPadding : 15 ≤ i ∨ u.length ≤ i := by omega
    exact usernameField_getElem?_padding hi atPadding

end Sys2Proof.Machine

/-! The challenge as an instruction (spec/42_challenge_solver.md R192 to R197): the 64-bit operations on
zero-extended operands as operations on natural numbers, what each challenge does to the state, and the
statements assembled from the two. -/

namespace Sys2Proof.Machine

/-! ### Zero-extended operands (R11, R97) -/

@[simp] theorem toNat_zext64 (v : Operand) : (zext64 v).toNat = v.toNat :=
  BitVec.toNat_setWidth_of_le (by decide)

/-- The carry out of 32 bits is kept, and there is none out of 64 (R192). -/
theorem toNat_zext64_add (l r : Operand) : (zext64 l + zext64 r).toNat = l.toNat + r.toNat := by
  have noCarry : l.toNat + r.toNat < 2 ^ 64 := by omega
  rw [BitVec.toNat_add, toNat_zext64, toNat_zext64, Nat.mod_eq_of_lt noCarry]

theorem toNat_zext64_sub_of_le {l r : Operand} (h : r.toNat ≤ l.toNat) :
    (zext64 l - zext64 r).toNat = l.toNat - r.toNat := by
  have le64 : zext64 r ≤ zext64 l := by
    rwa [BitVec.le_def, toNat_zext64, toNat_zext64]
  rw [BitVec.toNat_sub_of_le le64, toNat_zext64, toNat_zext64]

/-- A negative difference wraps once (R193). -/
theorem toNat_zext64_sub_of_lt {l r : Operand} (h : l.toNat < r.toNat) :
    (zext64 l - zext64 r).toNat = 2 ^ 64 + l.toNat - r.toNat := by
  rw [BitVec.toNat_sub, toNat_zext64, toNat_zext64]
  omega

/-- The product of two 32-bit operands fits in 64 bits (R194). -/
theorem toNat_zext64_mul (l r : Operand) : (zext64 l * zext64 r).toNat = l.toNat * r.toNat := by
  have fits : l.toNat * r.toNat < 2 ^ 64 :=
    calc l.toNat * r.toNat < 2 ^ 32 * 2 ^ 32 := Nat.mul_lt_mul'' l.isLt r.isLt
      _ = 2 ^ 64 := by decide
  rw [BitVec.toNat_mul, toNat_zext64, toNat_zext64, Nat.mod_eq_of_lt fits]

theorem toNat_zext64_div (l r : Operand) : (zext64 l / zext64 r).toNat = l.toNat / r.toNat := by
  rw [BitVec.toNat_udiv, toNat_zext64, toNat_zext64]

theorem toNat_zext64_mod (l r : Operand) : (zext64 l % zext64 r).toNat = l.toNat % r.toNat := by
  rw [BitVec.toNat_umod, toNat_zext64, toNat_zext64]

/-! ### What a challenge does to the state -/

/-- R273 and R277 as the statements write them out. -/
theorem raise_eq_raisedState (c : Cause) (s : State) : raise c s = raisedState c s := rfl

theorem exec_add (l r : Operand) (s : State) :
    exec (.add l r) s = .next (putResult (zext64 l + zext64 r) s) := rfl

theorem exec_sub (l r : Operand) (s : State) :
    exec (.sub l r) s = .next (putResult (zext64 l - zext64 r) s) := rfl

theorem exec_mul (l r : Operand) (s : State) :
    exec (.mul l r) s = .next (putResult (zext64 l * zext64 r) s) := rfl

theorem exec_div (l r : Operand) (s : State) : exec (.div l r) s = outcomeOf (divOp l r s) := rfl

theorem exec_mod (l r : Operand) (s : State) : exec (.mod l r) s = outcomeOf (modOp l r s) := rfl

theorem exec_unknownOperator (op : Byte) (l r : Operand) (s : State) :
    exec (.unknownOperator op l r) s = .next (raise .unknownOperator (dropResult s)) := rfl

theorem operand_ne_zero {r : Operand} (h : r.toNat ≠ 0) : r ≠ 0 := by
  rintro rfl
  exact h rfl

theorem exec_div_of_ne_zero {l r : Operand} (s : State) (h : r.toNat ≠ 0) :
    exec (.div l r) s = .next (putResult (zext64 l / zext64 r) s) := by
  rw [exec_div, divOp, if_neg (operand_ne_zero h), outcomeOf]

theorem exec_div_zero {l r : Operand} (s : State) (h : r.toNat = 0) :
    exec (.div l r) s = .next (raise .divByZero (dropResult s)) := by
  rw [exec_div, divOp, if_pos (BitVec.eq_of_toNat_eq h), outcomeOf]

theorem exec_mod_of_ne_zero {l r : Operand} (s : State) (h : r.toNat ≠ 0) :
    exec (.mod l r) s = .next (putResult (zext64 l % zext64 r) s) := by
  rw [exec_mod, modOp, if_neg (operand_ne_zero h), outcomeOf]

theorem exec_mod_zero {l r : Operand} (s : State) (h : r.toNat = 0) :
    exec (.mod l r) s = .next (raise .divByZero (dropResult s)) := by
  rw [exec_mod, modOp, if_pos (BitVec.eq_of_toNat_eq h), outcomeOf]

/-! ### The operator bytes (R102, R105) -/

theorem challengeInstr_add (l r : Operand) : challengeInstr 0x2B l r = .add l r := rfl

theorem challengeInstr_sub (l r : Operand) : challengeInstr 0x2D l r = .sub l r := rfl

theorem challengeInstr_mul (l r : Operand) : challengeInstr 0x2A l r = .mul l r := rfl

theorem challengeInstr_div (l r : Operand) : challengeInstr 0x2F l r = .div l r := rfl

theorem challengeInstr_mod (l r : Operand) : challengeInstr 0x25 l r = .mod l r := rfl

theorem challengeInstr_unknownOperator {op : Byte} (l r : Operand) (hmod : op ≠ 0x25)
    (hmul : op ≠ 0x2A) (hadd : op ≠ 0x2B) (hsub : op ≠ 0x2D) (hdiv : op ≠ 0x2F) :
    challengeInstr op l r = .unknownOperator op l r := by
  rw [challengeInstr, if_neg hadd, if_neg hsub, if_neg hmul, if_neg hdiv, if_neg hmod]

/-! ### The statements -/

/-- Settles O14: the 64-bit sum of the zero-extended operands does not wrap. -/
theorem addGivesTheExactSum : Obligations.AddGivesTheExactSum := by
  unfold Obligations.AddGivesTheExactSum
  intro l r s
  exact ⟨challengeInstr_add l r, _, toNat_zext64_add l r, exec_add l r s⟩

/-- Settles O15, by whether the difference is negative: then it lies within `2 ^ 32` of `2 ^ 64`, so
its upper half is all ones. -/
theorem subWrapsModulo64Bits : Obligations.SubWrapsModulo64Bits := by
  unfold Obligations.SubWrapsModulo64Bits
  intro l r s
  refine ⟨challengeInstr_sub l r, zext64 l - zext64 r, ?_, fun hlt => ?_, exec_sub l r s⟩
  · split_ifs with hle
    · exact toNat_zext64_sub_of_le hle
    · exact toNat_zext64_sub_of_lt (not_le.mp hle)
  · rw [toNat_zext64_sub_of_lt hlt]
    omega

/-- Settles O16: the 64-bit product of the zero-extended operands does not wrap. -/
theorem mulGivesTheExactProduct : Obligations.MulGivesTheExactProduct := by
  unfold Obligations.MulGivesTheExactProduct
  intro l r s
  exact ⟨challengeInstr_mul l r, _, toNat_zext64_mul l r, exec_mul l r s⟩

/-- Settles O17, by whether the right operand is zero. -/
theorem divGivesTheQuotientOrRaises : Obligations.DivGivesTheQuotientOrRaises := by
  unfold Obligations.DivGivesTheQuotientOrRaises
  intro l r s
  refine ⟨challengeInstr_div l r, fun hr => ?_, fun hr => ?_⟩
  · have quotient := toNat_zext64_div l r
    have atMostLeft := quotient.trans_le (Nat.div_le_self l.toNat r.toNat)
    exact ⟨_, quotient, atMostLeft, exec_div_of_ne_zero s hr⟩
  · rw [exec_div_zero s hr, raise_eq_raisedState, dropResult]

/-- Settles O18, by whether the right operand is zero. -/
theorem modGivesTheRemainderOrRaises : Obligations.ModGivesTheRemainderOrRaises := by
  unfold Obligations.ModGivesTheRemainderOrRaises
  intro l r s
  refine ⟨challengeInstr_mod l r, fun hr => ?_, fun hr => ?_⟩
  · have remainder := toNat_zext64_mod l r
    have belowRight := remainder.trans_lt (Nat.mod_lt l.toNat (Nat.pos_of_ne_zero hr))
    have division : l.toNat = r.toNat * (l.toNat / r.toNat) + (zext64 l % zext64 r).toNat := by
      rw [remainder, Nat.div_add_mod]
    exact ⟨_, belowRight, division, exec_mod_of_ne_zero s hr⟩
  · rw [exec_mod_zero s hr, raise_eq_raisedState, dropResult]

/-- Settles O19: the operator byte takes none of the five branches, and the instruction it selects
raises without a look at the operands. -/
theorem unknownOperatorRaises : Obligations.UnknownOperatorRaises := by
  unfold Obligations.UnknownOperatorRaises
  intro op l r s hmod hmul hadd hsub hdiv
  refine ⟨challengeInstr_unknownOperator l r hmod hmul hadd hsub hdiv, ?_⟩
  rw [exec_unknownOperator, raise_eq_raisedState, dropResult]

end Sys2Proof.Machine

/-! START (spec/43_protocol_sequencer.md R211): the user name as R37 and R161 read it, when the command is
accepted, and what the session begins with. -/

namespace Sys2Proof.Machine

/-! ### The user name that is read (R37, R161) -/

theorem State.sourceName_of_no_length {s : State} (h : s.unameSrcLen = none) :
    s.sourceName = none := by
  rw [State.sourceName, h]

theorem State.sourceName_of_length {s : State} {n : BitVec 8} (h : s.unameSrcLen = some n) :
    s.sourceName = s.readBytes .unameSrc 0 (min n.toNat 15) := by
  rw [State.sourceName, h, Config.unameVisibleMax]

theorem State.userField_eq_none_iff (s : State) :
    s.userField = none ↔ s.unameSrcLen = none
      ∨ ∃ n, s.unameSrcLen = some n ∧ s.readBytes .unameSrc 0 (min n.toNat 15) = none := by
  rw [State.userField, Option.map_eq_none_iff]
  cases hn : s.unameSrcLen with
  | none => simp [State.sourceName_of_no_length hn]
  | some n => simp [State.sourceName_of_length hn]

/-- A name that fits is copied whole (R161). -/
theorem usernameField_of_length_le {u : Bytes} (h : u.length ≤ 15) :
    usernameField u = u ++ List.replicate (16 - u.length) 0 := by
  rw [usernameField, Config.unameVisibleMax, Config.unameLen, List.take_of_length_le h,
    Nat.min_eq_left h]

/-- At most 15 bytes of the name are read, so none is cut off. -/
theorem State.userField_of_read {s : State} {n : BitVec 8} {u : Bytes}
    (hn : s.unameSrcLen = some n) (hu : s.readBytes .unameSrc 0 (min n.toNat 15) = some u) :
    s.userField = some (u ++ List.replicate (16 - u.length) 0) := by
  have fits : u.length ≤ 15 := (State.readBytes_length hu).trans_le (min_le_right n.toNat 15)
  rw [State.userField, State.sourceName_of_length hn, hu, Option.map_some,
    usernameField_of_length_le fits]

/-! ### Acceptance and refusal (R211) -/

theorem commandInstr_start : commandInstr 0x01 = .start := rfl

theorem startAccepted_of {s : State} {k : Bytes} (hbusy : s.busy = false)
    (hinit : s.pstate = .init) (hkey : s.readBytes .key 0 16 = some k) :
    startAccepted s = s.userField := by
  have keyWritten : s.keyBytes.isSome := Option.isSome_of_eq_some hkey
  exact if_pos ⟨hbusy, hinit, keyWritten⟩

theorem startAccepted_eq_none_iff (s : State) :
    startAccepted s = none ↔ s.busy = true ∨ s.pstate ≠ .init
      ∨ s.readBytes .key 0 16 = none ∨ s.userField = none := by
  have keyWritten : s.keyBytes.isSome ↔ s.readBytes .key 0 16 ≠ none := Option.isSome_iff_ne_none
  rw [startAccepted, ite_eq_right_iff, keyWritten, ← Bool.not_eq_true]
  tauto

theorem exec_start (s : State) : exec .start s = execStart s := rfl

theorem exec_start_of_accepted {s : State} {u : Bytes} (h : startAccepted s = some u) :
    exec .start s = .next (startSession u s) := by
  rw [exec_start, execStart, h]

theorem exec_start_of_refused {s : State} (h : startAccepted s = none) :
    exec .start s = .next (refuseCommand s) := by
  rw [exec_start, execStart, h]

/-! ### The state the session begins with (R162, R211) -/

/-- The Request frame is stored at the start of `TXBUF` (R162). -/
theorem startSession_stored (u : Bytes) (s : State) :
    Stored .txbuf 0 ([0x31, 0x30, 0x35] ++ u) s.mem (startSession u s).mem :=
  s.writeBytes_stored .txbuf 0 (shortFrameBytes code105 u)

theorem startSession_eq (u : Bytes) (s : State) :
    startSession u s = { s with
      mem := (startSession u s).mem, busy := true, txLen := 19, txCnt := 0, txActive := true,
      cmdErr := false } := rfl

/-- Settles O41, by whether `startAccepted` answers a username field: it does exactly when the key and
the name are written, idle in `Init`. -/
theorem startBeginsASession : Obligations.StartBeginsASession := by
  unfold Obligations.StartBeginsASession
  refine ⟨commandInstr_start, fun s => ⟨fun k n u hbusy hinit hkey hn hu => ?_, fun h => ?_⟩⟩
  · have accepted := (startAccepted_of hbusy hinit hkey).trans (State.userField_of_read hn hu)
    rw [List.append_assoc, exec_start_of_accepted accepted]
    exact ⟨_, startSession_stored _ s, congrArg Host.Outcome.next (startSession_eq _ s)⟩
  · rw [← State.userField_eq_none_iff] at h
    exact exec_start_of_refused ((startAccepted_eq_none_iff s).mpr h)

end Sys2Proof.Machine

/-! What a unit operation leaves as it was, from any state at all (spec/10_state.md R36, R37;
spec/60_exceptions.md R273): the session's registers, the world, the key and the user name. -/

namespace Sys2Proof.Machine

/-! ### The key and the user name -/

/-- The key, the user name and its length are the same in both states. -/
structure OwnerKept (s t : State) : Prop where
  key : ∀ i, i < 16 → t.mem.read (Space.key.addr i) = s.mem.read (Space.key.addr i)
  name : ∀ i, i < Config.unameSrcMax →
    t.mem.read (Space.unameSrc.addr i) = s.mem.read (Space.unameSrc.addr i)
  nameLength : t.unameSrcLen = s.unameSrcLen

theorem OwnerKept.trans {s t u : State} (h : OwnerKept s t) (h' : OwnerKept t u) :
    OwnerKept s u where
  key i hi := (h'.key i hi).trans (h.key i hi)
  name i hi := (h'.name i hi).trans (h.name i hi)
  nameLength := h'.nameLength.trans h.nameLength

theorem OwnerKept.of_mem {s t : State} (hm : t.mem = s.mem) (hl : t.unameSrcLen = s.unameSrcLen) :
    OwnerKept s t :=
  ⟨fun _ _ => by rw [hm], fun _ _ => by rw [hm], hl⟩

/-- Equal bytes of an array from its first index on are read alike. -/
theorem State.readBytes_congr_bytes {s t : State} {sp : Space} {n : Nat}
    (h : ∀ i, i < sp.size → t.mem.read (sp.addr i) = s.mem.read (sp.addr i)) :
    t.readBytes sp 0 n = s.readBytes sp 0 n := by
  unfold State.readBytes
  split
  · rename_i hn
    refine Memory.readRange_congr fun x h1 h2 => ?_
    obtain ⟨i, rfl⟩ := Nat.exists_eq_add_of_le h1
    have inArray : i < sp.size := by omega
    simpa only [Space.addr, Nat.add_zero] using h i inArray
  · rfl

theorem OwnerKept.keyBytes {s t : State} (h : OwnerKept s t) : t.keyBytes = s.keyBytes :=
  State.readBytes_congr_bytes (sp := .key) h.key

theorem OwnerKept.userField {s t : State} (h : OwnerKept s t) : t.userField = s.userField := by
  unfold State.userField State.sourceName
  rw [h.nameLength]
  cases s.unameSrcLen with
  | none => rfl
  | some n => simp only [State.readBytes_congr_bytes (sp := .unameSrc) h.name]

/-- Each array has a page of its own (R40; assumption log 8). -/
theorem Space.number_injective {sp sp' : Space} (h : sp.number = sp'.number) : sp = sp' := by
  cases sp <;> cases sp' <;> first | rfl | exact absurd h (by decide)

/-- A write inside one array's page leaves the bytes of every other array's page. -/
theorem read_writeBytes_otherSpace (s : State) {sp sp' : Space} {off i : Nat} {bs : Bytes}
    (hne : sp ≠ sp') (hb : off + bs.length ≤ 256) (hi : i < 256) :
    (s.writeBytes sp off bs).mem.read (sp'.addr i) = s.mem.read (sp'.addr i) := by
  have pages : sp.number ≠ sp'.number := mt Space.number_injective hne
  rw [writeBytes_mem, Memory.read_writeRange_other]
  simp only [Space.addr]
  omega

theorem ownerKept_writeBytes (s : State) {sp : Space} {off : Nat} {bs : Bytes} (hk : sp ≠ .key)
    (hu : sp ≠ .unameSrc) (hb : off + bs.length ≤ 256) : OwnerKept s (s.writeBytes sp off bs) where
  key _ hi := read_writeBytes_otherSpace s hk hb (by omega)
  name _ hi := read_writeBytes_otherSpace s hu hb (hi.trans_le (unameSrcMax_bounds.2.trans (by omega)))
  nameLength := rfl

/-! ### What one operation leaves -/

/-- The frame of a unit operation. -/
structure OpFrame (s t : State) : Prop where
  same : SameSession s t
  owner : OwnerKept s t

/-- An operation that has this frame from every state, where it ends and where it raises. -/
def OpFramed (op : State → OpResult) : Prop :=
  ∀ s, (∀ t, op s = .done t → OpFrame s t) ∧ ∀ c t, op s = .raised c t → OpFrame s t

theorem OpFrame.of_mem {s t : State} (hs : SameSession s t) (hm : t.mem = s.mem) : OpFrame s t :=
  ⟨hs, .of_mem hm hs.unameSrcLen⟩

theorem OpFrame.refl (s : State) : OpFrame s s := .of_mem (.refl s) rfl

theorem OpFrame.trans {s t u : State} (h : OpFrame s t) (h' : OpFrame t u) : OpFrame s u :=
  ⟨h.same.trans h'.same, h.owner.trans h'.owner⟩

theorem putResult_frame (v : Result) (s : State) : OpFrame s (putResult v s) :=
  .of_mem (by constructor <;> rfl) rfl

theorem dropResult_frame (s : State) : OpFrame s (dropResult s) :=
  .of_mem (by constructor <;> rfl) rfl

theorem encryptFailed_frame (s : State) : OpFrame s (encryptFailed s) :=
  .of_mem (by constructor <;> rfl) rfl

theorem decryptFailed_frame (s : State) : OpFrame s (decryptFailed s) :=
  .of_mem (by constructor <;> rfl) rfl

theorem putVerdict_frame (v : Verdict) (s : State) : OpFrame s (putVerdict v s) :=
  .of_mem (by constructor <;> rfl) rfl

theorem loadChallenge_frame (c : Bytes) (s : State) : OpFrame s (loadChallenge c s) :=
  .of_mem (by constructor <;> rfl) rfl

theorem writeBytes_frame (s : State) {sp : Space} {off : Nat} {bs : Bytes} (hk : sp ≠ .key)
    (hu : sp ≠ .unameSrc) (hb : off + bs.length ≤ 256) : OpFrame s (s.writeBytes sp off bs) :=
  ⟨by constructor <;> rfl, ownerKept_writeBytes s hk hu hb⟩

theorem putResultBytes_frame (v : Result) (s : State) : OpFrame s (putResultBytes v s) := by
  have written := writeBytes_frame s (sp := .cin) (off := 0) (bs := toBE64 v) (by decide)
    (by decide) (by rw [toBE64_length]; decide)
  exact ⟨{ written.same with }, { written.owner with }⟩

theorem putRequest_frame {u : Bytes} (s : State) (hu : u.length = 16) :
    OpFrame s (putRequest u s) := by
  have written := writeBytes_frame s (sp := .txbuf) (off := 0) (bs := shortFrameBytes code105 u)
    (by decide) (by decide) (by rw [shortFrameBytes_length rfl hu]; decide)
  exact ⟨{ written.same with }, { written.owner with }⟩

theorem putResponse_frame {u iv p : Bytes} (n : BitVec 32) (s : State) (hu : u.length = 16)
    (hiv : iv.length = 16) (hp : p.length = 128) : OpFrame s (putResponse u iv n p s) := by
  have written := writeBytes_frame s (sp := .txbuf) (off := 0)
    (bs := longFrameBytes code115 u iv n p) (by decide) (by decide)
    (by rw [longFrameBytes_length n rfl hu hiv hp]; decide)
  exact ⟨{ written.same with }, { written.owner with }⟩

theorem extractChallenge_frame {iv ct : Bytes} (s : State) (hiv : iv.length = 16)
    (hct : ct.length ≤ 128) : OpFrame s (extractChallenge iv ct s) := by
  have ivWritten := writeBytes_frame s (sp := .ivRx) (off := 0) (bs := iv) (by decide) (by decide)
    (by omega)
  have written := ivWritten.trans (writeBytes_frame _ (sp := .cin) (off := 0) (bs := ct)
    (by decide) (by decide) (by omega))
  exact ⟨{ written.same with }, { written.owner with }⟩

theorem putPlaintext_frame {u : Bytes} (s : State) (hu : u.length ≤ 128) :
    OpFrame s (putPlaintext u s) := by
  have written := writeBytes_frame s (sp := .cout) (off := 0) (bs := u) (by decide) (by decide)
    (by omega)
  exact ⟨{ written.same with }, { written.owner with }⟩

theorem putCiphertext_frame {iv ct : Bytes} (s : State) (hiv : iv.length = 16)
    (hct : ct.length ≤ 128) : OpFrame s (putCiphertext iv ct s) := by
  have ivWritten := writeBytes_frame s (sp := .ivTx) (off := 0) (bs := iv) (by decide) (by decide)
    (by omega)
  have written := ivWritten.trans (writeBytes_frame _ (sp := .cout) (off := 0) (bs := ct)
    (by decide) (by decide) (by omega))
  exact ⟨{ written.same with }, { written.owner with }⟩

/-! ### The nine operations -/

/-- The ciphertext of up to 96 bytes fills at most seven blocks (R140). -/
theorem ciphertext_length {k iv p : Bytes} (hk : k.length = 16) (hiv : iv.length = 16) :
    (cbcEnc blockEnc k iv (pad p)).length = 16 * (p.length / 16 + 1) :=
  cbcEnc_length (fun x hx => blockEnc_length k x hk hx) hiv (pad_length p)

theorem responsePayload_length {ct : Bytes} (h : ct.length ≤ 128) :
    (responsePayload ct).length = 128 := by
  rw [responsePayload, List.length_append, List.length_replicate, Config.payloadMax]
  omega

theorem decodeOp_framed : OpFramed decodeOp := by
  refine fun s => ⟨fun t ht => ?_, fun c t ht => ?_⟩
  · obtain ⟨_, _, c, _, rfl⟩ := decodeOp_done ht
    exact loadChallenge_frame c s
  · obtain ⟨_, _, _, rfl⟩ := decodeOp_raised ht
    exact .refl t

theorem evaluate_framed (op : Byte) (l r : Operand) : OpFramed (evaluate op l r) := by
  intro s
  rcases evaluate_cases op l r s with ⟨v, e⟩ | e | e <;> rw [e]
  · exact ⟨by rintro t ⟨⟩; exact putResult_frame v s, by rintro c t ⟨⟩⟩
  · exact ⟨by rintro t ⟨⟩, by rintro c t ⟨⟩; exact dropResult_frame s⟩
  · exact ⟨by rintro t ⟨⟩, by rintro c t ⟨⟩; exact dropResult_frame s⟩

theorem solveOp_framed : OpFramed solveOp := by
  intro s
  unfold solveOp
  split
  · exact evaluate_framed _ _ _ s
  · exact ⟨by rintro t ⟨⟩, by rintro c t ⟨⟩⟩

theorem encodeOp_framed : OpFramed encodeOp := by
  refine fun s => ⟨fun t ht => ?_, fun c t ht => absurd ht encodeOp_raised⟩
  obtain ⟨_, v, _, rfl⟩ := encodeOp_done ht
  exact putResultBytes_frame v s

theorem encryptOp_framed : OpFramed encryptOp := by
  refine fun s => ⟨fun t ht => ?_, fun c t ht => ?_⟩
  · obtain ⟨n, p, k, _, hn, hp, hk, rfl⟩ := encryptWith_done ht
    have plainLength := State.readBytes_length hp
    have cipherLength := ciphertext_length (p := p) (State.readBytes_length hk) (nextDraw_length s)
    exact putCiphertext_frame s (nextDraw_length s) (by omega)
  · obtain ⟨_, _, _, _, rfl⟩ := encryptWith_raised ht
    exact encryptFailed_frame s

theorem decryptOp_framed : OpFramed decryptOp := by
  refine fun s => ⟨fun t ht => ?_, fun c t ht => ?_⟩
  · obtain ⟨_, n, c, k, iv, _, _, _, hk, hiv, hne, rfl⟩ := decryptOp_done ht
    have shorter := cbcDecrypt_length_lt (c := c)
      (fun x hx => blockDec_length k x (State.readBytes_length hk) hx)
      (State.readBytes_length hiv) hne
    exact putPlaintext_frame s (by omega)
  · obtain ⟨_, rfl⟩ := decryptOp_raised ht
    exact decryptFailed_frame s

theorem buildReqOp_framed : OpFramed buildReqOp := by
  refine fun s => ⟨fun t ht => ?_, fun c t ht => absurd ht buildReqOp_raised⟩
  obtain ⟨u, hu, rfl⟩ := buildReqOp_done ht
  exact putRequest_frame s (userField_some hu)

theorem buildRespOp_framed : OpFramed buildRespOp := by
  refine fun s => ⟨fun t ht => ?_, fun c t ht => absurd ht buildRespOp_raised⟩
  obtain ⟨_, _, u, iv, ct, hu, hiv, hct, rfl⟩ := buildRespOp_done ht
  have inArray : 0 + s.coutLen.toNat ≤ 128 := (State.readBytes_some hct).1
  have ctLength := State.readBytes_length hct
  exact putResponse_frame _ s (userField_some hu) (State.readBytes_length hiv)
    (responsePayload_length (by omega))

theorem parseChalOp_framed : OpFramed parseChalOp := by
  intro s
  rcases parseChalOp_cases s with e | ⟨c, e, _⟩ | ⟨iv, ct, hiv, hct, e⟩ <;> rw [e]
  · exact ⟨by rintro t ⟨⟩, by rintro c t ⟨⟩⟩
  · exact ⟨by rintro t ⟨⟩, by rintro c t ⟨⟩; exact .refl s⟩
  · exact ⟨by rintro t ⟨⟩; exact extractChallenge_frame s hiv (by omega), by rintro c t ⟨⟩⟩

theorem parseStatOp_framed : OpFramed parseStatOp := by
  intro s
  rcases parseStatOp_cases s with e | ⟨v, e, _⟩ | ⟨c, e, _⟩ <;> rw [e]
  · exact ⟨by rintro t ⟨⟩, by rintro c t ⟨⟩⟩
  · exact ⟨by rintro t ⟨⟩; exact putVerdict_frame v s, by rintro c t ⟨⟩⟩
  · exact ⟨by rintro t ⟨⟩, by rintro c t ⟨⟩; exact putVerdict_frame .none s⟩

/-- The nine unit commands of R103, each with the operation it runs. -/
def unitOps : List (Byte × (State → OpResult)) :=
  [(0x02, buildReqOp), (0x03, parseChalOp), (0x04, decryptOp), (0x05, decodeOp), (0x06, solveOp),
    (0x07, encodeOp), (0x08, encryptOp), (0x09, buildRespOp), (0x0A, parseStatOp)]

theorem exec_unitOps : ∀ p ∈ unitOps, ∀ s, exec (commandInstr p.1) s = .next (unitCommand p.2 s) := by
  simp only [unitOps, List.forall_mem_cons, List.not_mem_nil, false_implies, implies_true, and_true]
  exact ⟨fun _ => rfl, fun _ => rfl, fun _ => rfl, fun _ => rfl, fun _ => rfl, fun _ => rfl,
    fun _ => rfl, fun _ => rfl, fun _ => rfl⟩

theorem unitOps_framed : ∀ p ∈ unitOps, OpFramed p.2 := by
  simp only [unitOps, List.forall_mem_cons, List.not_mem_nil, false_implies, implies_true, and_true]
  exact ⟨buildReqOp_framed, parseChalOp_framed, decryptOp_framed, decodeOp_framed, solveOp_framed,
    encodeOp_framed, encryptOp_framed, buildRespOp_framed, parseStatOp_framed⟩

/-- The codes `0x02` to `0x0A` are those of the unit commands (R103). -/
theorem exists_unitOp {b : Byte} (h2 : 0x02 ≤ b.toNat) (hA : b.toNat ≤ 0x0A) :
    ∃ op, (b, op) ∈ unitOps := by
  have code : b = 0x02 ∨ b = 0x03 ∨ b = 0x04 ∨ b = 0x05 ∨ b = 0x06 ∨ b = 0x07 ∨ b = 0x08
      ∨ b = 0x09 ∨ b = 0x0A := by bv_omega
  rcases code with rfl | rfl | rfl | rfl | rfl | rfl | rfl | rfl | rfl <;>
    exact ⟨_, by simp [unitOps]; rfl⟩

/-! ### Unit commands -/

/-- The session's position, its report, the transfers and the streams are the same in both states. -/
structure SameRun (s t : State) : Prop where
  pstate : t.pstate = s.pstate
  errReason : t.errReason = s.errReason
  errCause : t.errCause = s.errCause
  busy : t.busy = s.busy
  txActive : t.txActive = s.txActive
  txCnt : t.txCnt = s.txCnt
  rxCnt : t.rxCnt = s.rxCnt
  rxNeed : t.rxNeed = s.rxNeed
  txStream : t.txStream = s.txStream
  rxStream : t.rxStream = s.rxStream
  txEvents : t.txEvents = s.txEvents

/-- What a unit command leaves as it was, whatever its outcome. -/
structure CommandFrame (s t : State) : Prop where
  run : SameRun s t
  owner : OwnerKept s t
  hostQueue : t.hostQueue = s.hostQueue
  turns : t.turns = s.turns
  lastRead : t.lastRead = s.lastRead

theorem SameRun.trans {s t u : State} (h : SameRun s t) (h' : SameRun t u) : SameRun s u where
  pstate := h'.pstate.trans h.pstate
  errReason := h'.errReason.trans h.errReason
  errCause := h'.errCause.trans h.errCause
  busy := h'.busy.trans h.busy
  txActive := h'.txActive.trans h.txActive
  txCnt := h'.txCnt.trans h.txCnt
  rxCnt := h'.rxCnt.trans h.rxCnt
  rxNeed := h'.rxNeed.trans h.rxNeed
  txStream := h'.txStream.trans h.txStream
  rxStream := h'.rxStream.trans h.rxStream
  txEvents := h'.txEvents.trans h.txEvents

theorem CommandFrame.trans {s t u : State} (h : CommandFrame s t) (h' : CommandFrame t u) :
    CommandFrame s u where
  run := h.run.trans h'.run
  owner := h.owner.trans h'.owner
  hostQueue := h'.hostQueue.trans h.hostQueue
  turns := h'.turns.trans h.turns
  lastRead := h'.lastRead.trans h.lastRead

theorem OpFrame.commandFrame {s t : State} (h : OpFrame s t) : CommandFrame s t :=
  ⟨{ h.same with }, h.owner, h.same.hostQueue, h.same.turns, h.same.lastRead⟩

theorem clearCmdErr_frame (s : State) : CommandFrame s (clearCmdErr s) :=
  ⟨by constructor <;> rfl, .of_mem rfl rfl, rfl, rfl, rfl⟩

theorem setUnitCause_frame (c : Cause) (s : State) : CommandFrame s (setUnitCause c s) :=
  ⟨by constructor <;> rfl, .of_mem rfl rfl, rfl, rfl, rfl⟩

/-- An idle unit command changes no more than its operation, `CMD_ERR` and `UNIT_CAUSE`. -/
theorem unitCommand_frame {op : State → OpResult} (hop : OpFramed op) {s : State}
    (hb : s.busy = false) : CommandFrame s (unitCommand op s) := by
  obtain ⟨onDone, onRaise⟩ := hop (clearCmdErr s)
  rcases unitCommand_cases op s with ⟨busy, _⟩ | ⟨_, t, ht, e⟩ | ⟨_, c, t, ht, e⟩ | ⟨_, _, e⟩
  · rw [hb] at busy; cases busy
  · rw [e]
    exact ((clearCmdErr_frame s).trans (onDone t ht).commandFrame).trans (setUnitCause_frame _ t)
  · have idle : t.busy = false := (onRaise c t ht).same.busy.trans hb
    rw [e, raise_idle c idle]
    exact ((clearCmdErr_frame s).trans (onRaise c t ht).commandFrame).trans (setUnitCause_frame c t)
  · rw [e]
    exact setUnitCause_frame _ s

/-- Settles O40: the code names one of the nine unit commands, and each has the frame of its
operation. -/
theorem unitCommandsLeaveTheSessionAlone : Obligations.UnitCommandsLeaveTheSessionAlone := by
  unfold Obligations.UnitCommandsLeaveTheSessionAlone
  intro b s idle h2 hA
  obtain ⟨op, mem⟩ := exists_unitOp h2 hA
  have frame := unitCommand_frame (unitOps_framed _ mem) idle
  refine ⟨_, exec_unitOps _ mem s, ?_⟩
  obtain ⟨run, owner, hostQueue, turns, lastRead⟩ := frame
  exact ⟨run.pstate, run.errReason, run.errCause, run.busy.trans idle, run.txActive, run.txCnt,
    run.rxCnt, run.rxNeed, run.txStream, run.rxStream, run.txEvents, hostQueue, turns, lastRead,
    owner.nameLength, owner.name, owner.key⟩

end Sys2Proof.Machine

/-! The engine's own steps under the invariant (spec/43_protocol_sequencer.md R212 to R219, R225): every
move of the engine waits, raises a cause of the transition table, ends the session with a verdict, or
takes the session one position further. -/

namespace Sys2Proof.Machine

/-! ### The invariant by parts -/

/-- The part of `EngineInv` that does not depend on where a session stands. -/
structure CoreInv (s : State) : Prop where
  data : DataInv s
  nameLength : ∀ n, s.unameSrcLen = some n → n.toNat ≤ Config.unameSrcMax
  txLen : s.txLen = 0 ∨ s.txLen = 19 ∨ s.txLen = 167
  rxNeed : s.rxNeed = 0 ∨ s.rxNeed = 19 ∨ s.rxNeed = 167
  rxCnt : s.rxCnt ≤ s.rxNeed
  txCnt : s.txCnt ≤ 167

theorem EngineInv.core {s : State} (h : EngineInv s) : CoreInv s := by
  obtain ⟨txLen, rxNeed, rxCnt, txCnt, _⟩ := h.counters
  exact ⟨h.data, h.nameLength, txLen, rxNeed, rxCnt, txCnt⟩

/-- A unit operation keeps the core. -/
theorem CoreInv.of_op {s t : State} (h : CoreInv s) (hk : OpKeeps s t) : CoreInv t where
  data := hk.data
  nameLength := hk.same.unameSrcLen ▸ h.nameLength
  txLen := by
    rcases hk.txLen with e | e | e
    · exact e ▸ h.txLen
    · exact .inr (.inl e)
    · exact .inr (.inr e)
  rxNeed := hk.same.rxNeed ▸ h.rxNeed
  rxCnt := hk.same.rxNeed ▸ hk.same.rxCnt ▸ h.rxCnt
  txCnt := hk.same.txCnt ▸ h.txCnt

/-- No session runs after the entry to `Error`, and the report is the cause's (R277). -/
theorem EngineInv.enterError {u : State} {c : Cause} (h : CoreInv u) (hc : c ≠ .none)
    (hs : c ≠ .badSequence) : EngineInv (enterError c u) where
  memory := h.data.memory
  result := h.data.result
  ivRx := h.data.ivRx
  ivTx := h.data.ivTx
  ciphertext := h.data.ciphertext
  plaintext := h.data.plaintext
  report := ⟨iff_of_true rfl hc, rfl, hs⟩
  nameLength := h.nameLength
  counters := ⟨h.txLen, h.rxNeed, h.rxCnt, h.txCnt, fun e => by cases e⟩
  idle _ := ⟨rfl, .inr rfl⟩
  session e := by cases e

/-- No session runs after a verdict, and there is no report (R219). -/
theorem EngineInv.endSession {u : State} {p : PState} (h : CoreInv u)
    (hp : p = .success ∨ p = .failure) (hr : u.errReason = .none) (hc : u.errCause = .none) :
    EngineInv (endSession p u) where
  memory := h.data.memory
  result := h.data.result
  ivRx := h.data.ivRx
  ivTx := h.data.ivTx
  ciphertext := h.data.ciphertext
  plaintext := h.data.plaintext
  report := by
    rw [endSession_pstate, endSession_errCause, endSession_errReason, hr, hc]
    rcases hp with rfl | rfl <;> decide
  nameLength := h.nameLength
  counters := ⟨h.txLen, h.rxNeed, h.rxCnt, h.txCnt, fun e => by rcases hp with rfl | rfl <;> cases e⟩
  idle _ := ⟨rfl, .inr (by rcases hp with rfl | rfl <;> rfl)⟩
  session e := by cases e

/-- A point of a session is no terminal state. -/
theorem SessionAt.not_terminal {s : State} (h : SessionAt s) : s.pstate.terminal = false := by
  unfold SessionAt at h
  split at h <;> first | contradiction | simp only [PState.terminal, *]

/-- What a running session needs to meet the invariant. -/
theorem EngineInv.running {t : State} (h : CoreInv t) (hb : t.busy = true) (hat : SessionAt t)
    (hr : t.errReason = .none) (hc : t.errCause = .none) (htx : t.txCnt ≤ t.txLen)
    (hk : t.keyBytes.isSome = true) (hu : t.userField.isSome = true) : EngineInv t where
  memory := h.data.memory
  result := h.data.result
  ivRx := h.data.ivRx
  ivTx := h.data.ivTx
  ciphertext := h.data.ciphertext
  plaintext := h.data.plaintext
  report := by
    have running := hat.not_terminal
    rw [hr, hc]
    refine ⟨iff_of_false (fun e => ?_) (by decide), rfl, by decide⟩
    rw [e] at running
    cases running
  nameLength := h.nameLength
  counters := ⟨h.txLen, h.rxNeed, h.rxCnt, h.txCnt, fun _ => htx⟩
  idle e := by rw [hb] at e; cases e
  session _ := ⟨hk, hu, hat⟩

theorem EngineInv.running_at {s : State} (h : EngineInv s) (hb : s.busy = true) : SessionAt s :=
  (h.session hb).2.2

/-- There is no report outside `Error`. -/
theorem EngineInv.no_report {s : State} (h : EngineInv s) (hp : s.pstate ≠ .error) :
    s.errCause = .none ∧ s.errReason = .none := by
  obtain ⟨inError, reason, _⟩ := h.report
  have noCause : s.errCause = .none := not_not.mp fun e => hp (inError.mpr e)
  exact ⟨noCause, reason.trans (congrArg reasonOf noCause)⟩

theorem EngineInv.running_pstate_ne_error {s : State} (h : EngineInv s) (hb : s.busy = true) :
    s.pstate ≠ .error := fun e => by
  have running := (h.running_at hb).not_terminal
  rw [e] at running
  cases running

theorem EngineInv.running_counted {s : State} (h : EngineInv s) (hb : s.busy = true) :
    s.txCnt ≤ s.txLen := by
  obtain ⟨_, _, _, _, counted⟩ := h.counters
  exact counted (h.running_at hb).not_terminal

/-! ### What a move of the engine keeps -/

/-- The engine's core holds, and the session's owner, its report and `UNIT_CAUSE` are as before. -/
structure SessionKept (s t : State) : Prop where
  core : CoreInv t
  owner : OwnerKept s t
  busy : t.busy = s.busy
  errReason : t.errReason = s.errReason
  errCause : t.errCause = s.errCause
  unitCause : t.unitCause = s.unitCause

theorem SessionKept.refl {s : State} (h : CoreInv s) : SessionKept s s :=
  ⟨h, .of_mem rfl rfl, rfl, rfl, rfl, rfl⟩

theorem SessionKept.trans {s t u : State} (h : SessionKept s t) (h' : SessionKept t u) :
    SessionKept s u where
  core := h'.core
  owner := h.owner.trans h'.owner
  busy := h'.busy.trans h.busy
  errReason := h'.errReason.trans h.errReason
  errCause := h'.errCause.trans h.errCause
  unitCause := h'.unitCause.trans h.unitCause

/-- A unit operation in a session keeps all of it. -/
theorem SessionKept.op {s t u : State} (h : SessionKept s t) (hk : DataInv t → OpKeeps t u)
    (hf : OpFrame t u) : SessionKept s u :=
  h.trans
    { core := h.core.of_op (hk h.core.data)
      owner := hf.owner
      busy := hf.same.busy
      errReason := hf.same.errReason
      errCause := hf.same.errCause
      unitCause := hf.same.unitCause }

theorem SessionKept.takeTxEvent {s : State} (h : CoreInv s) : SessionKept s (takeTxEvent s) where
  core := { h with data := { h.data with } }
  owner := .of_mem rfl rfl
  busy := rfl
  errReason := rfl
  errCause := rfl
  unitCause := rfl

theorem SessionKept.takeRxEvent {s : State} (h : CoreInv s) : SessionKept s (takeRxEvent s) where
  core := { h with data := { h.data with } }
  owner := .of_mem rfl rfl
  busy := rfl
  errReason := rfl
  errCause := rfl
  unitCause := rfl

theorem SessionKept.byteAccepted {s t : State} (h : SessionKept s t) (b : Bytes)
    (hlt : t.txCnt < 167) : SessionKept s (byteAccepted b t) :=
  h.trans
    { core := { h.core with
        data := { h.core.data with }
        txCnt := by rw [byteAccepted_txCnt]; bv_omega }
      owner := .of_mem rfl rfl
      busy := rfl
      errReason := rfl
      errCause := rfl
      unitCause := rfl }

theorem SessionKept.startReceiving {s t : State} (h : SessionKept s t) (p : PState) {n : BitVec 8}
    (hn : n = 19 ∨ n = 167) : SessionKept s (startReceiving p n (stopSending t)) :=
  h.trans
    { core := { h.core with
        data := { h.core.data with }
        rxNeed := .inr hn
        rxCnt := by rw [startReceiving_rxCnt, startReceiving_rxNeed]; bv_omega }
      owner := .of_mem rfl rfl
      busy := rfl
      errReason := rfl
      errCause := rfl
      unitCause := rfl }

theorem SessionKept.setPState {s t : State} (h : SessionKept s t) (p : PState) :
    SessionKept s (setPState p t) :=
  h.trans
    { core := { h.core with data := { h.core.data with } }
      owner := .of_mem rfl rfl
      busy := rfl
      errReason := rfl
      errCause := rfl
      unitCause := rfl }

theorem SessionKept.startSending {s t : State} (h : SessionKept s t) :
    SessionKept s (startSending t) :=
  h.trans
    { core := { h.core with data := { h.core.data with }, txCnt := by rw [startSending_txCnt]; decide }
      owner := .of_mem rfl rfl
      busy := rfl
      errReason := rfl
      errCause := rfl
      unitCause := rfl }

/-- The received byte goes into `RXBUF`, below the number of bytes needed (R214). -/
theorem SessionKept.putRxByte {s t : State} (h : SessionKept s t) (b : Byte)
    (hlt : t.rxCnt < t.rxNeed) : SessionKept s (putRxByte b t) := by
  have inArray : t.rxCnt.toNat + [b].length ≤ Space.rxbuf.size := by
    change t.rxCnt.toNat + 1 ≤ 167
    rcases h.core.rxNeed with e | e | e <;> rw [e] at hlt <;> bv_omega
  have written := dataInv_writeBytes h.core.data inArray
  exact h.trans
    { core := { h.core with
        data := { written with }
        rxCnt := by rw [putRxByte_rxCnt, putRxByte_rxNeed]; bv_omega }
      owner := { ownerKept_writeBytes t (sp := .rxbuf) (by decide) (by decide)
        (inArray.trans (Space.rxbuf.size_le.trans (by decide))) with }
      busy := rfl
      errReason := rfl
      errCause := rfl
      unitCause := rfl }

/-- One move of the engine. -/
inductive EngineMove (s : State) : State → Prop
  /-- the event it needs is not there, or nothing is enabled (R212, R222) -/
  | waits (notReady : eventReady s = false) : EngineMove s s
  /-- the session ends in `Error` (R220, R227) -/
  | raises {u : State} {c : Cause} (busy : s.busy = true) (cause : c ∈ endCauses s.pstate)
      (kept : SessionKept s u) : EngineMove s (enterError c u)
  /-- the session ends with the server's verdict (R218) -/
  | ends {u : State} {p : PState} (busy : s.busy = true) (here : s.pstate = .responseSent)
      (verdict : p = .success ∨ p = .failure) (kept : SessionKept s u) :
      EngineMove s (endSession p u)
  /-- the session goes on (R213 to R217) -/
  | advances {t : State} (busy : s.busy = true) (kept : SessionKept s t) (point : SessionAt t)
      (counted : t.txCnt ≤ t.txLen)
      (row : t.pstate = s.pstate ∨ t.pstate ∈ nextStates s.pstate)
      (position : sessionPosition t = sessionPosition s + 1) : EngineMove s t

/-- No cause of the transition table is `NONE` or `BAD_SEQUENCE` (R227). -/
theorem endCauses_reported {p : PState} {c : Cause} (h : c ∈ endCauses p) :
    c ≠ .none ∧ c ≠ .badSequence := by
  constructor <;> rintro rfl <;> cases p <;> simp [endCauses] at h

/-- A move of the engine keeps the invariant. -/
theorem EngineMove.inv {s t : State} (h : EngineInv s) (hm : EngineMove s t) : EngineInv t := by
  cases hm with
  | waits _ => exact h
  | raises _ cause kept =>
    obtain ⟨isCause, notSequence⟩ := endCauses_reported cause
    exact .enterError kept.core isCause notSequence
  | ends busy _ verdict kept =>
    obtain ⟨noCause, noReason⟩ := h.no_report (h.running_pstate_ne_error busy)
    exact .endSession kept.core verdict (kept.errReason.trans noReason)
      (kept.errCause.trans noCause)
  | advances busy kept point counted _ _ =>
    obtain ⟨noCause, noReason⟩ := h.no_report (h.running_pstate_ne_error busy)
    obtain ⟨key, user, _⟩ := h.session busy
    exact .running kept.core (kept.busy.trans busy) point (kept.errReason.trans noReason)
      (kept.errCause.trans noCause) counted (kept.owner.keyBytes ▸ key)
      (kept.owner.userField ▸ user)

/-! ### Which step is taken -/

theorem engineStep_of_not_ready {s : State} (h : eventReady s = false) : engineStep s = .next s := by
  unfold eventReady at h
  unfold engineStep
  split_ifs at h ⊢
  · have noEvent : s.txEvents = [] := by simpa using h
    rw [noEvent]
  · have noEvent : s.rxStream = [] := by simpa using h
    rw [noEvent]
  · simp_all
  · rfl

/-- With its event at hand the engine takes the one step that is enabled (R212). -/
theorem engineStep_of_ready {s : State} (h : eventReady s = true) :
    (∃ e es, s.txActive = true ∧ s.txEvents = e :: es ∧ engineStep s = txStep e (takeTxEvent s))
      ∨ (∃ e es, s.rxEnabled = true ∧ s.rxStream = e :: es
          ∧ engineStep s = rxStep e (takeRxEvent s))
      ∨ (s.txActive = false ∧ s.pstate = .challengeReceived ∧ engineStep s = computeStep s) := by
  unfold eventReady at h
  unfold engineStep
  by_cases sending : s.txActive = true
  · rw [if_pos sending] at h ⊢
    cases events : s.txEvents with
    | nil => rw [events] at h; cases h
    | cons e es => exact .inl ⟨e, es, sending, rfl, rfl⟩
  rw [if_neg sending] at h ⊢
  by_cases receiving : s.rxEnabled = true
  · rw [if_pos receiving] at h ⊢
    cases events : s.rxStream with
    | nil => rw [events] at h; cases h
    | cons e es => exact .inr (.inl ⟨e, es, receiving, rfl, rfl⟩)
  rw [if_neg receiving] at h ⊢
  simp only [State.computeEnabled, Bool.and_eq_true, beq_iff_eq, Bool.not_eq_true'] at h
  obtain ⟨here, notSending⟩ := h
  exact .inr (.inr ⟨notSending, here, if_pos (by simp [State.computeEnabled, here, notSending])⟩)

/-- Without a session no step of the engine is enabled. -/
theorem EngineInv.idle_not_ready {s : State} (h : EngineInv s) (hb : s.busy = false) :
    eventReady s = false := by
  obtain ⟨notSending, place⟩ := h.idle hb
  have notReceiving : s.rxEnabled = false := by simp [State.rxEnabled, hb]
  have notComputing : s.pstate ≠ .challengeReceived := by
    rintro e
    rcases place with ⟨e', _⟩ | e' <;> rw [e] at e' <;> cases e'
  simp [eventReady, notSending, notReceiving, State.computeEnabled, notComputing]

/-! ### The points of a session -/

theorem sessionPosition_of_init {s : State} (h : s.pstate = .init) :
    sessionPosition s = s.txCnt.toNat := by
  unfold sessionPosition; rw [h]

theorem sessionPosition_of_awaitChallenge {s : State} (h : s.pstate = .awaitChallenge) :
    sessionPosition s = 19 + s.rxCnt.toNat := by
  unfold sessionPosition; rw [h]

theorem sessionPosition_of_computing {s : State} (h : s.pstate = .challengeReceived)
    (ha : s.txActive = false) : sessionPosition s = 186 := by
  simp [sessionPosition, h, ha]

theorem sessionPosition_of_responding {s : State} (h : s.pstate = .challengeReceived)
    (ha : s.txActive = true) : sessionPosition s = 187 + s.txCnt.toNat := by
  simp [sessionPosition, h, ha]

theorem sessionPosition_of_responseSent {s : State} (h : s.pstate = .responseSent) :
    sessionPosition s = 354 + s.rxCnt.toNat := by
  unfold sessionPosition; rw [h]

theorem sessionAt_init {s : State} (h : s.pstate = .init) : SessionAt s ↔
    s.txActive = true ∧ s.txLen = 19 ∧ s.txCnt < 19 ∧ (s.readBytes .txbuf 0 19).isSome := by
  unfold SessionAt; rw [h]

theorem sessionAt_awaitChallenge {s : State} (h : s.pstate = .awaitChallenge) : SessionAt s ↔
    s.txActive = false ∧ s.rxNeed = 167 ∧ s.rxCnt < 167
      ∧ (s.readBytes .rxbuf 0 s.rxCnt.toNat).isSome := by
  unfold SessionAt; rw [h]

theorem sessionAt_challengeReceived {s : State} (h : s.pstate = .challengeReceived) :
    SessionAt s ↔
      (s.txActive = true ∧ s.txLen = 167 ∧ s.txCnt < 167 ∧ (s.readBytes .txbuf 0 167).isSome)
        ∨ (s.txActive = false ∧ s.coutKind = .plaintext) := by
  unfold SessionAt; rw [h]

theorem sessionAt_responseSent {s : State} (h : s.pstate = .responseSent) : SessionAt s ↔
    s.txActive = false ∧ s.rxNeed = 19 ∧ s.rxCnt < 19
      ∧ (s.readBytes .rxbuf 0 s.rxCnt.toNat).isSome := by
  unfold SessionAt; rw [h]

/-- A session that sends is at the Request or at the Response, with the frame to send written. -/
theorem SessionAt.sending {s : State} (h : SessionAt s) (ha : s.txActive = true) :
    (s.pstate = .init ∧ s.txLen = 19 ∨ s.pstate = .challengeReceived ∧ s.txLen = 167)
      ∧ s.txCnt < s.txLen ∧ (s.readBytes .txbuf 0 s.txLen.toNat).isSome = true := by
  unfold SessionAt at h
  split at h <;> rename_i here
  · obtain ⟨_, len, cnt, written⟩ := h
    exact ⟨.inl ⟨here, len⟩, len ▸ cnt, len ▸ written⟩
  · rw [ha] at h; cases h.1
  · rcases h with ⟨_, len, cnt, written⟩ | ⟨notSending, _⟩
    · exact ⟨.inr ⟨here, len⟩, len ▸ cnt, len ▸ written⟩
    · rw [ha] at notSending; cases notSending
  · rw [ha] at h; cases h.1
  all_goals contradiction

/-- A session that receives is at one of the receive points, with the bytes so far written. -/
theorem SessionAt.receiving {s : State} (h : SessionAt s)
    (hp : s.pstate = .awaitChallenge ∨ s.pstate = .responseSent) :
    (s.pstate = .awaitChallenge ∧ s.rxNeed = 167 ∨ s.pstate = .responseSent ∧ s.rxNeed = 19)
      ∧ s.txActive = false ∧ s.rxCnt < s.rxNeed
      ∧ (s.readBytes .rxbuf 0 s.rxCnt.toNat).isSome = true := by
  rcases hp with here | here
  · obtain ⟨notSending, need, cnt, written⟩ := (sessionAt_awaitChallenge here).mp h
    exact ⟨.inl ⟨here, need⟩, notSending, need ▸ cnt, written⟩
  · obtain ⟨notSending, need, cnt, written⟩ := (sessionAt_responseSent here).mp h
    exact ⟨.inr ⟨here, need⟩, notSending, need ▸ cnt, written⟩

/-! ### The TX step -/

/-- A part of a readable range is readable. -/
theorem State.readBytes_isSome_of_part {s : State} {sp : Space} {off n off' n' : Nat}
    (h : (s.readBytes sp off n).isSome = true) (hoff : off ≤ off') (hn : off' + n' ≤ off + n) :
    (s.readBytes sp off' n').isSome = true := by
  rw [State.readBytes_isSome] at h ⊢
  obtain ⟨inArray, written⟩ := h
  refine ⟨by omega, fun i hi => ?_⟩
  have byte := written (off' - off + i) (by omega)
  rwa [show sp.addr off + (off' - off + i) = sp.addr off' + i by simp only [Space.addr]; omega]
    at byte

theorem State.readBytes_none_isSome (s : State) (sp : Space) :
    (s.readBytes sp 0 0).isSome = true := by
  rw [State.readBytes_isSome]
  exact ⟨Nat.zero_le _, fun i hi => absurd hi (Nat.not_lt_zero i)⟩

theorem frameSent_of_init {s : State} (h : s.pstate = .init) :
    frameSent s = startReceiving .awaitChallenge 167 (stopSending s) := by
  unfold frameSent; rw [h]

theorem frameSent_of_challengeReceived {s : State} (h : s.pstate = .challengeReceived) :
    frameSent s = startReceiving .responseSent 19 (stopSending s) := by
  unfold frameSent; rw [h]

/-- A byte before the last leaves the session sending the same frame. -/
theorem byteAccepted_advances {s : State} (h : EngineInv s) (hb : s.busy = true)
    (ha : s.txActive = true) (b : Bytes) (hlast : s.txCnt + 1 ≠ s.txLen) :
    EngineMove s (byteAccepted b (takeTxEvent s)) := by
  obtain ⟨here, below, written⟩ := (h.running_at hb).sending ha
  have counted : s.txCnt + 1 ≤ s.txLen := by bv_omega
  rcases here with ⟨here, len⟩ | ⟨here, len⟩ <;> rw [len] at below written hlast
  · have here' : (byteAccepted b (takeTxEvent s)).pstate = .init := here
    have below' : s.txCnt + 1 < 19 := by bv_omega
    refine .advances hb ((SessionKept.takeTxEvent h.core).byteAccepted b ?_)
      ((sessionAt_init here').mpr ⟨ha, len, below', written⟩) counted (.inl rfl) ?_
    · rw [takeTxEvent_txCnt]; bv_omega
    · rw [sessionPosition_of_init here, sessionPosition_of_init here', byteAccepted_txCnt,
        takeTxEvent_txCnt]
      bv_omega
  · have here' : (byteAccepted b (takeTxEvent s)).pstate = .challengeReceived := here
    have below' : s.txCnt + 1 < 167 := by bv_omega
    refine .advances hb ((SessionKept.takeTxEvent h.core).byteAccepted b below)
      ((sessionAt_challengeReceived here').mpr (.inl ⟨ha, len, below', written⟩)) counted
      (.inl rfl) ?_
    rw [sessionPosition_of_responding here ha, sessionPosition_of_responding here' ha,
      byteAccepted_txCnt, takeTxEvent_txCnt]
    bv_omega

/-- The last byte of the Request or of the Response takes the session to its receive point (R215, R217). -/
theorem frameSent_advances {s : State} (h : EngineInv s) (hb : s.busy = true)
    (ha : s.txActive = true) (b : Bytes) (hlast : s.txCnt + 1 = s.txLen) :
    EngineMove s (frameSent (byteAccepted b (takeTxEvent s))) := by
  obtain ⟨here, below, _⟩ := (h.running_at hb).sending ha
  have counted : s.txCnt + 1 ≤ s.txLen := hlast ▸ BitVec.le_refl _
  have nothingReceived (t : State) := t.readBytes_none_isSome .rxbuf
  rcases here with ⟨here, len⟩ | ⟨here, len⟩ <;> rw [len] at below hlast
  · have zeroBelow : (0 : BitVec 8) < 167 := by decide
    have here' : (byteAccepted b (takeTxEvent s)).pstate = .init := here
    rw [frameSent_of_init here']
    refine .advances hb (.startReceiving ((SessionKept.takeTxEvent h.core).byteAccepted b ?_) _
      (.inr rfl)) ((sessionAt_awaitChallenge rfl).mpr ⟨rfl, rfl, zeroBelow, nothingReceived _⟩)
      counted (.inr ?_) ?_
    · rw [takeTxEvent_txCnt]; bv_omega
    · rw [here]; simp [nextStates]
    · rw [sessionPosition_of_init here, sessionPosition_of_awaitChallenge rfl,
        startReceiving_rxCnt]
      bv_omega
  · have zeroBelow : (0 : BitVec 8) < 19 := by decide
    have here' : (byteAccepted b (takeTxEvent s)).pstate = .challengeReceived := here
    rw [frameSent_of_challengeReceived here']
    refine .advances hb (.startReceiving ((SessionKept.takeTxEvent h.core).byteAccepted b below) _
      (.inl rfl)) ((sessionAt_responseSent rfl).mpr ⟨rfl, rfl, zeroBelow, nothingReceived _⟩)
      counted (.inr ?_) ?_
    · rw [here]; simp [nextStates]
    · rw [sessionPosition_of_responding here ha, sessionPosition_of_responseSent rfl,
        startReceiving_rxCnt]
      bv_omega

/-- R213 under the invariant. -/
theorem txStep_move {s : State} (h : EngineInv s) (hb : s.busy = true) (ha : s.txActive = true)
    (e : TxEvent) : ∃ t, txStep e (takeTxEvent s) = .next t ∧ EngineMove s t := by
  obtain ⟨here, below, written⟩ := (h.running_at hb).sending ha
  have offered : (s.readBytes .txbuf s.txCnt.toNat 1).isSome = true :=
    State.readBytes_isSome_of_part written (Nat.zero_le _) (by bv_omega)
  rcases txStep_cases e (takeTxEvent s) with ⟨lacks, _⟩ | ⟨_, step⟩ | ⟨b, _, _, last⟩
  · change s.readBytes .txbuf s.txCnt.toNat 1 = none at lacks
    rw [lacks] at offered
    cases offered
  · refine ⟨_, step, .raises hb ?_ (.takeTxEvent h.core)⟩
    rcases here with ⟨e, _⟩ | ⟨e, _⟩ <;> simp [e, endCauses]
  · rcases last with ⟨hlast, step⟩ | ⟨hlast, step⟩
    · exact ⟨_, step, frameSent_advances h hb ha b hlast⟩
    · exact ⟨_, step, byteAccepted_advances h hb ha b hlast⟩

/-! ### The RX step -/

/-- Two neighbouring readable ranges are read as one. -/
theorem Memory.readRange_append {m : Memory} {a n k : Nat} {bs cs : Bytes}
    (h1 : m.readRange a n = some bs) (h2 : m.readRange (a + n) k = some cs) :
    m.readRange a (n + k) = some (bs ++ cs) := by
  induction n generalizing a bs with
  | zero =>
    cases h1
    simpa using h2
  | succ n ih =>
    rw [Nat.succ_add]
    simp only [Memory.readRange] at h1 ⊢
    split at h1
    · rename_i b rest hb hrest
      cases h1
      rw [hb, ih hrest (by rwa [Nat.add_assoc, Nat.add_comm 1])]
      rfl
    · cases h1

/-- A byte written behind a readable range extends it. -/
theorem State.readBytes_writeBytes_snoc {s : State} {sp : Space} {n : Nat} {bs : Bytes} (b : Byte)
    (h : s.readBytes sp 0 n = some bs) (hn : n + 1 ≤ sp.size) :
    (s.writeBytes sp n [b]).readBytes sp 0 (n + 1) = some (bs ++ [b]) := by
  have before := (s.readBytes_writeBytes_apart sp n [b] 0 n (.inl (by omega))).trans h
  have written := s.readBytes_writeBytes_same sp n [b] hn
  rw [State.readBytes_eq (by omega)]
  refine Memory.readRange_append (State.readBytes_some before).2 ?_
  rw [show sp.addr 0 + n = sp.addr n by simp only [Space.addr]; omega]
  exact (State.readBytes_some written).2

theorem putRxByte_readBytes {s : State} {bs : Bytes} (b : Byte)
    (h : s.readBytes .rxbuf 0 s.rxCnt.toNat = some bs) (hn : s.rxCnt.toNat < 167) :
    (putRxByte b s).readBytes .rxbuf 0 (s.rxCnt.toNat + 1) = some (bs ++ [b]) :=
  State.readBytes_writeBytes_snoc b h hn

/-- A byte before the last leaves the session at its receive point (R214). -/
theorem putRxByte_advances {s : State} (h : EngineInv s) (hb : s.busy = true)
    (hp : s.pstate = .awaitChallenge ∨ s.pstate = .responseSent) (b : Byte)
    (hlast : s.rxCnt + 1 ≠ s.rxNeed) : EngineMove s (putRxByte b (takeRxEvent s)) := by
  obtain ⟨here, notSending, below, written⟩ := (h.running_at hb).receiving hp
  have kept := (SessionKept.takeRxEvent h.core).putRxByte b below
  have counted := h.running_counted hb
  have extended : ((putRxByte b (takeRxEvent s)).readBytes .rxbuf 0 (s.rxCnt + 1).toNat).isSome := by
    obtain ⟨bs, received⟩ := Option.isSome_iff_exists.mp written
    have below167 : s.rxCnt.toNat < 167 := by
      rcases here with ⟨_, need⟩ | ⟨_, need⟩ <;> rw [need] at below <;> bv_omega
    rw [show (s.rxCnt + 1).toNat = s.rxCnt.toNat + 1 by bv_omega]
    exact Option.isSome_of_eq_some (putRxByte_readBytes (s := takeRxEvent s) b received below167)
  rcases here with ⟨here, need⟩ | ⟨here, need⟩ <;> rw [need] at below hlast
  · have here' : (putRxByte b (takeRxEvent s)).pstate = .awaitChallenge := here
    have below' : s.rxCnt + 1 < 167 := by bv_omega
    refine .advances hb kept ((sessionAt_awaitChallenge here').mpr
      ⟨notSending, need, below', extended⟩) counted (.inl rfl) ?_
    rw [sessionPosition_of_awaitChallenge here, sessionPosition_of_awaitChallenge here',
      putRxByte_rxCnt, takeRxEvent_rxCnt]
    bv_omega
  · have here' : (putRxByte b (takeRxEvent s)).pstate = .responseSent := here
    have below' : s.rxCnt + 1 < 19 := by bv_omega
    refine .advances hb kept ((sessionAt_responseSent here').mpr
      ⟨notSending, need, below', extended⟩) counted (.inl rfl) ?_
    rw [sessionPosition_of_responseSent here, sessionPosition_of_responseSent here',
      putRxByte_rxCnt, takeRxEvent_rxCnt]
    bv_omega

/-- What DECRYPT reads after an extraction (R167). -/
theorem extractChallenge_readBytes_ivRx {iv ct : Bytes} (s : State) (hiv : iv.length = 16)
    (hct : ct.length ≤ 128) : (extractChallenge iv ct s).readBytes .ivRx 0 16 = some iv := by
  have written := s.readBytes_writeBytes_same .ivRx 0 iv (by rw [hiv]; decide)
  rw [hiv] at written
  exact (State.readBytes_writeBytes_other _ 0 ct 0 16 (by decide) (by omega)).trans written

theorem extractChallenge_readBytes_cin {iv ct : Bytes} (s : State) (hct : ct.length ≤ 128) :
    (extractChallenge iv ct s).readBytes .cin 0 ct.length = some ct :=
  State.readBytes_writeBytes_same _ .cin 0 ct (by rw [Nat.zero_add]; exact hct)

/-- DECRYPT after an extraction has what it reads (R225). -/
theorem decryptOp_extractChallenge {iv ct : Bytes} {s : State} (hiv : iv.length = 16)
    (hct : ct.length ≤ 128) (hk : s.keyBytes.isSome = true) :
    decryptOp (extractChallenge iv ct s) ≠ .lacking := by
  intro lacks
  have key := (extractChallenge_frame s hiv hct).owner.keyBytes
  have length : (BitVec.ofNat 8 ct.length).toNat = ct.length := by
    rw [BitVec.toNat_ofNat]; omega
  obtain ⟨_, noLength | ⟨n, hn, _, none | none | none⟩⟩ := decryptOp_lacking lacks
  · cases noLength
  · cases hn
    rw [length, extractChallenge_readBytes_cin s hct] at none
    cases none
  · rw [← key, none] at hk
    cases hk
  · rw [extractChallenge_readBytes_ivRx s hiv hct] at none
    cases none

theorem decryptOp_done_putPlaintext {s t : State} (h : decryptOp s = .done t) :
    ∃ p, t = putPlaintext p s := by
  obtain ⟨_, _, c, k, iv, _, _, _, _, _, _, e⟩ := decryptOp_done h
  exact ⟨cbcDecrypt blockDec c k iv, e⟩

/-- T2 after an accepted Challenge frame (R216). -/
theorem afterChallenge_move {s u : State} {iv ct : Bytes} (h : EngineInv s) (hb : s.busy = true)
    (here : s.pstate = .awaitChallenge) (hcnt : s.rxCnt = 166) (kept : SessionKept s u)
    (hiv : iv.length = 16) (hct : ct.length ≤ 96) (counted : u.txCnt ≤ u.txLen)
    (ha : u.txActive = false) :
    ∃ t, afterChallenge (extractChallenge iv ct u) = .next t ∧ EngineMove s t := by
  have hct : ct.length ≤ 128 := by omega
  have hk : u.keyBytes.isSome = true := kept.owner.keyBytes ▸ (h.session hb).1
  have extracted := kept.op (fun d => extractChallenge_keeps d hiv hct)
    (extractChallenge_frame u hiv hct)
  rcases afterChallenge_cases (extractChallenge iv ct u) with ⟨lacks, _⟩ | ⟨ht, e⟩ | ⟨t, ht, e⟩
  · exact absurd lacks (decryptOp_extractChallenge hiv hct hk)
  · have failed := extracted.op (fun d => (decryptOp_keeps d).2 _ _ ht)
      ((decryptOp_framed _).2 _ _ ht)
    exact ⟨_, e, .raises hb (by rw [here]; simp [endCauses]) failed⟩
  · have decrypted := extracted.op (fun d => (decryptOp_keeps d).1 _ ht)
      ((decryptOp_framed _).1 _ ht)
    obtain ⟨p, rfl⟩ := decryptOp_done_putPlaintext ht
    refine ⟨_, e, .advances hb (decrypted.setPState _) ?_ ?_ (.inr ?_) ?_⟩
    · rw [sessionAt_challengeReceived (setPState_pstate _ _)]
      exact .inr ⟨by simpa using ha, by simp⟩
    · simpa using counted
    · rw [here]; simp [nextStates]
    · rw [sessionPosition_of_awaitChallenge here, hcnt,
        sessionPosition_of_computing (setPState_pstate _ _) (by simpa using ha)]
      rfl

/-- With its last byte stored the frame is read whole (R214). -/
theorem completeFrame_read {s : State} (h : EngineInv s) (hb : s.busy = true)
    (hp : s.pstate = .awaitChallenge ∨ s.pstate = .responseSent) (b : Byte)
    (hlast : s.rxCnt + 1 = s.rxNeed) :
    SessionKept s (putRxByte b (takeRxEvent s)) ∧ ∃ f, f.length = s.rxNeed.toNat
      ∧ (putRxByte b (takeRxEvent s)).readBytes .rxbuf 0 s.rxNeed.toNat = some f := by
  obtain ⟨here, _, below, written⟩ := (h.running_at hb).receiving hp
  obtain ⟨bs, received⟩ := Option.isSome_iff_exists.mp written
  have bounds : s.rxCnt.toNat < 167 ∧ s.rxNeed.toNat = s.rxCnt.toNat + 1 := by
    rcases here with ⟨_, need⟩ | ⟨_, need⟩ <;> rw [need] at below hlast ⊢ <;> bv_omega
  obtain ⟨below167, next⟩ := bounds
  have read := putRxByte_readBytes (s := takeRxEvent s) b received below167
  rw [takeRxEvent_rxCnt, ← next] at read
  exact ⟨(SessionKept.takeRxEvent h.core).putRxByte b below, _, State.readBytes_length read, read⟩

theorem frameReceived_at_challenge {s : State} {f : Bytes} (here : s.pstate = .awaitChallenge)
    (read : s.readBytes .rxbuf 0 167 = some f) :
    frameReceived s = runChallengeFrame (challengePointInstr f) s := by
  have read : s.readBytes .rxbuf 0 Config.longFrame = some f := read
  unfold frameReceived
  simp only [here, read, decode_challengePoint (State.readBytes_length read)]

theorem frameReceived_at_status {s : State} {f : Bytes} (here : s.pstate = .responseSent)
    (read : s.readBytes .rxbuf 0 19 = some f) :
    frameReceived s = runStatusFrame (statusPointInstr f) s := by
  have read : s.readBytes .rxbuf 0 Config.shortFrame = some f := read
  unfold frameReceived
  simp only [here, read, decode_statusPoint (State.readBytes_length read)]

/-- What PARSE_CHAL raises is in the table at the challenge point (R227). -/
theorem challengeCauses_mem : ∀ c ∈ [Cause.serverReported, .unexpectedCode, .badLength],
    c ∈ endCauses .awaitChallenge := by decide

/-- What PARSE_STAT raises is in the table at the status point (R227). -/
theorem statusCauses_mem : ∀ c ∈ [Cause.serverReported, .unexpectedStatus],
    c ∈ endCauses .responseSent := by decide

/-- The last byte of the Challenge frame (R214, R216). -/
theorem challengeFrame_move {s : State} (h : EngineInv s) (hb : s.busy = true)
    (here : s.pstate = .awaitChallenge) (b : Byte) (hlast : s.rxCnt + 1 = s.rxNeed) :
    ∃ t, frameReceived (putRxByte b (takeRxEvent s)) = .next t ∧ EngineMove s t := by
  obtain ⟨notSending, need, _, _⟩ := (sessionAt_awaitChallenge here).mp (h.running_at hb)
  obtain ⟨kept, f, length, read⟩ := completeFrame_read h hb (.inl here) b hlast
  rw [need] at length read hlast
  have cnt : s.rxCnt = 166 := by bv_omega
  have here' : (putRxByte b (takeRxEvent s)).pstate = .awaitChallenge := here
  have notError : (putRxByte b (takeRxEvent s)).pstate ≠ .error := by rw [here']; decide
  rw [frameReceived_at_challenge here' read]
  rcases runChallengeFrame_cases f (s := putRxByte b (takeRxEvent s)) hb notError with
    ⟨c, cause, e⟩ | ⟨ct, hct, e⟩
  · exact ⟨_, e, .raises hb (here ▸ challengeCauses_mem c cause) kept⟩
  · have ivLength : (frameIv f).length = 16 := slice_length (by rw [length]; decide)
    rw [e]
    exact afterChallenge_move h hb here cnt kept ivLength hct (h.running_counted hb) notSending

/-- The last byte of the Status frame (R214, R218). -/
theorem statusFrame_move {s : State} (h : EngineInv s) (hb : s.busy = true)
    (here : s.pstate = .responseSent) (b : Byte) (hlast : s.rxCnt + 1 = s.rxNeed) :
    ∃ t, frameReceived (putRxByte b (takeRxEvent s)) = .next t ∧ EngineMove s t := by
  obtain ⟨_, need, _, _⟩ := (sessionAt_responseSent here).mp (h.running_at hb)
  obtain ⟨kept, f, _, read⟩ := completeFrame_read h hb (.inr here) b hlast
  rw [need] at read
  have here' : (putRxByte b (takeRxEvent s)).pstate = .responseSent := here
  have verdictKept (v : Verdict) := kept.op (fun d => putVerdict_keeps d v) (putVerdict_frame v _)
  rw [frameReceived_at_status here' read]
  rcases runStatusFrame_cases f (s := putRxByte b (takeRxEvent s)) hb with ⟨c, cause, e⟩ | e | e
  · exact ⟨_, e, .raises hb (here ▸ statusCauses_mem c cause) (verdictKept .none)⟩
  · exact ⟨_, e, .ends hb here (.inl rfl) (verdictKept .success)⟩
  · exact ⟨_, e, .ends hb here (.inr rfl) (verdictKept .failure)⟩

/-- R214 under the invariant. -/
theorem rxStep_move {s : State} (h : EngineInv s) (hr : s.rxEnabled = true) (e : RxEvent) :
    ∃ t, rxStep e (takeRxEvent s) = .next t ∧ EngineMove s t := by
  obtain ⟨hb, _, hp, below⟩ := (rxEnabled_iff s).mp hr
  have endsIn (c : Cause) (hc : c ∈ [Cause.transportClosed, .transportError]) :
      EngineMove s (enterError c (takeRxEvent s)) := by
    refine .raises hb ?_ (.takeRxEvent h.core)
    simp only [List.mem_cons, List.not_mem_nil, or_false] at hc
    rcases hp with here | here <;> rw [here] <;> rcases hc with rfl | rfl <;> simp [endCauses]
  cases e with
  | close => exact ⟨_, rfl, endsIn _ (by simp)⟩
  | err => exact ⟨_, rfl, endsIn _ (by simp)⟩
  | byte b =>
    by_cases hlast : s.rxCnt + 1 = s.rxNeed
    · have dispatched : rxStep (.byte b) (takeRxEvent s)
          = frameReceived (putRxByte b (takeRxEvent s)) := if_pos hlast
      rw [dispatched]
      rcases hp with here | here
      · exact challengeFrame_move h hb here b hlast
      · exact statusFrame_move h hb here b hlast
    · exact ⟨_, if_neg hlast, putRxByte_advances h hb hp b hlast⟩

end Sys2Proof.Machine

/-! The compute step (spec/43_protocol_sequencer.md R217): the solver's value as a natural number, the
operations of T3 one after another, and the move they make. -/

namespace Sys2Proof.Machine

/-! ### SOLVE and the values of the spec (R192 to R198) -/

/-- Where the spec gives a value, SOLVE leaves that value (R198). -/
theorem evaluate_of_solverValue {op : Byte} {l r : Operand} {n : Nat} (s : State)
    (h : solverValue op l.toNat r.toNat = some n) :
    ∃ v : Result, v.toNat = n ∧ evaluate op l r s = .done (putResult v s) := by
  unfold solverValue at h
  unfold evaluate
  split_ifs at h ⊢ with add sub le mul div zero mod zero <;> cases h
  · exact ⟨_, toNat_zext64_add l r, rfl⟩
  · exact ⟨_, toNat_zext64_sub_of_le le, rfl⟩
  · exact ⟨_, toNat_zext64_sub_of_lt (not_le.mp le), rfl⟩
  · exact ⟨_, toNat_zext64_mul l r, rfl⟩
  · exact ⟨_, toNat_zext64_div l r, if_neg (operand_ne_zero zero)⟩
  · exact ⟨_, toNat_zext64_mod l r, if_neg (operand_ne_zero zero)⟩

/-- Where the spec gives none, SOLVE raises the spec's cause and leaves no result (R198). -/
theorem evaluate_of_no_solverValue {op : Byte} {l r : Operand} (s : State)
    (h : solverValue op l.toNat r.toNat = none) :
    evaluate op l r s = .raised (solverCause op) (dropResult s) := by
  unfold solverValue at h
  split_ifs at h with add sub mul div zero mod zero
  · have zero : r = 0 := BitVec.eq_of_toNat_eq zero
    subst div
    exact if_pos zero
  · have zero : r = 0 := BitVec.eq_of_toNat_eq zero
    subst mod
    exact if_pos zero
  · rw [evaluate, if_neg add, if_neg sub, if_neg mul, if_neg div, if_neg mod, solverCause,
      if_neg (not_or.mpr ⟨div, mod⟩), unknownOp]

/-! ### The operations of T3 after SOLVE -/

/-- The ciphertext of the result's eight bytes under the next draw (R113, R217). -/
def resultCiphertext (k : Bytes) (v : Result) (s : State) : Bytes :=
  cbcEnc blockEnc k s.nextDraw (pad (toBE64 v))

/-- ENCODE and ENCRYPT done: the result's ciphertext stands in `COUT` beside its IV (R217). -/
def encryptedResult (k : Bytes) (v : Result) (s : State) : State :=
  putCiphertext s.nextDraw (resultCiphertext k v s) (putResultBytes v s)

/-- BUILD_RESP done, and the Response is to be sent (R217). -/
def responseBuilt (k u : Bytes) (v : Result) (s : State) : State :=
  startSending (putResponse u s.nextDraw 16 (responsePayload (resultCiphertext k v s))
    (encryptedResult k v s))

/-- Eight bytes and their padding fill one block. -/
theorem resultCiphertext_length {k : Bytes} (v : Result) (s : State) (hk : k.length = 16) :
    (resultCiphertext k v s).length = 16 := by
  rw [resultCiphertext, ciphertext_length hk (nextDraw_length s), toBE64_length]

theorem putResultBytes_readBytes (v : Result) (s : State) :
    (putResultBytes v s).readBytes .cin 0 8 = some (toBE64 v) := by
  have written := s.readBytes_writeBytes_same .cin 0 (toBE64 v) (by rw [toBE64_length]; decide)
  rwa [toBE64_length] at written

theorem encryptOp_putResultBytes {k : Bytes} (v : Result) {s : State} (hk : s.keyBytes = some k) :
    encryptOp (putResultBytes v s) = .done (encryptedResult k v s) := by
  have key : (putResultBytes v s).keyBytes = some k :=
    (putResultBytes_frame v s).owner.keyBytes.trans hk
  exact encryptWith_of_read (n := 8) rfl (by decide) (putResultBytes_readBytes v s) key

theorem putCiphertext_readBytes_ivTx {iv ct : Bytes} (s : State) (hiv : iv.length = 16)
    (hct : ct.length ≤ 128) : (putCiphertext iv ct s).readBytes .ivTx 0 16 = some iv := by
  have written := s.readBytes_writeBytes_same .ivTx 0 iv (by rw [hiv]; decide)
  rw [hiv] at written
  exact (State.readBytes_writeBytes_other _ 0 ct 0 16 (by decide) (by omega)).trans written

theorem putCiphertext_readBytes_cout {iv ct : Bytes} (s : State) (hct : ct.length ≤ 128) :
    (putCiphertext iv ct s).readBytes .cout 0 ct.length = some ct :=
  State.readBytes_writeBytes_same _ .cout 0 ct (by rw [Nat.zero_add]; exact hct)

/-- The frame of ENCODE and ENCRYPT. -/
theorem encryptedResult_frame {k : Bytes} (v : Result) (s : State) (hk : k.length = 16) :
    OpFrame s (encryptedResult k v s) :=
  (putResultBytes_frame v s).trans (putCiphertext_frame _ (nextDraw_length s)
    (by rw [resultCiphertext_length v s hk]; decide))

theorem buildRespOp_encryptedResult {k u : Bytes} (v : Result) {s : State} (hk : k.length = 16)
    (hu : s.userField = some u) : buildRespOp (encryptedResult k v s)
      = .done (putResponse u s.nextDraw 16 (responsePayload (resultCiphertext k v s))
          (encryptedResult k v s)) := by
  have length := resultCiphertext_length v s hk
  have coutLen : (encryptedResult k v s).coutLen = 16 := by
    rw [encryptedResult, putCiphertext_coutLen, length]; rfl
  have user : (encryptedResult k v s).userField = some u :=
    (encryptedResult_frame v s hk).owner.userField.trans hu
  have iv := putCiphertext_readBytes_ivTx (putResultBytes v s) (nextDraw_length s)
    (ct := resultCiphertext k v s) (by omega)
  have ct := putCiphertext_readBytes_cout (iv := s.nextDraw) (putResultBytes v s)
    (ct := resultCiphertext k v s) (by omega)
  rw [length] at ct
  have built := buildRespOp_of_read (s := encryptedResult k v s) rfl rfl user iv
    (by rw [coutLen]; exact ct)
  rw [built, coutLen]
  rfl

/-- With a result, a key and a user name T3 goes through to the Response (R217 steps 3 to 6). -/
theorem afterSolve_of_result {k u : Bytes} {v : Result} {s : State} (hv : s.resultValid = true)
    (hr : s.result = some v) (hk : s.keyBytes = some k) (hu : s.userField = some u) :
    afterSolve s = .next (responseBuilt k u v s) :=
  afterSolve_of_ops (encodeOp_of_result hv hr) (encryptOp_putResultBytes v hk)
    (buildRespOp_encryptedResult v (State.readBytes_length hk) hu)

/-! ### The compute step as a move -/

theorem responseBuilt_keeps {s t : State} {k u : Bytes} (v : Result) (h : SessionKept s t)
    (hk : k.length = 16) (hu : u.length = 16) : SessionKept s (responseBuilt k u v t) := by
  have length := resultCiphertext_length v t hk
  have encoded := h.op (fun d => putResultBytes_keeps d v) (putResultBytes_frame v t)
  have encrypted := encoded.op
    (fun d => putCiphertext_keeps d (n := 0) (nextDraw_length t) length (by decide))
    (putCiphertext_frame _ (nextDraw_length t) (by omega))
  have payload := responsePayload_length (ct := resultCiphertext k v t) (by omega)
  exact (encrypted.op (fun d => putResponse_keeps d 16 hu (nextDraw_length t) payload)
    (putResponse_frame 16 _ hu (nextDraw_length t) payload)).startSending

/-- The Response stands in `TXBUF` as it encodes (R163). -/
theorem responseBuilt_readBytes {k u : Bytes} (v : Result) (s : State) (hk : k.length = 16)
    (hu : u.length = 16) : (responseBuilt k u v s).readBytes .txbuf 0 167
      = some (longFrameBytes code115 u s.nextDraw 16
          (responsePayload (resultCiphertext k v s))) := by
  have length := longFrameBytes_length (c := code115) 16 rfl hu (nextDraw_length s)
    (responsePayload_length (ct := resultCiphertext k v s)
      (by rw [resultCiphertext_length v s hk]; decide))
  have written := (encryptedResult k v s).readBytes_writeBytes_same .txbuf 0
    (longFrameBytes code115 u s.nextDraw 16 (responsePayload (resultCiphertext k v s)))
    (by rw [length]; decide)
  rw [length] at written
  refine (State.readBytes_congr ?_ _ _ _).trans written
  rw [responseBuilt, startSending_mem, putResponse_mem, writeBytes_mem]

theorem responseBuilt_txActive (k u : Bytes) (v : Result) (s : State) :
    (responseBuilt k u v s).txActive = true := rfl

theorem responseBuilt_txLen (k u : Bytes) (v : Result) (s : State) :
    (responseBuilt k u v s).txLen = 167 := rfl

theorem responseBuilt_txCnt (k u : Bytes) (v : Result) (s : State) :
    (responseBuilt k u v s).txCnt = 0 := rfl

theorem responseBuilt_pstate (k u : Bytes) (v : Result) (s : State) :
    (responseBuilt k u v s).pstate = s.pstate := by
  simp [responseBuilt, encryptedResult]

/-- What SOLVE raises is in the table at the compute step (R227). -/
theorem solverCauses_mem : ∀ c ∈ [Cause.divByZero, .unknownOperator],
    c ∈ endCauses .challengeReceived := by decide

/-- A session that is about to compute has the plaintext it decodes (R216, R225). -/
theorem SessionAt.computing_plaintext {s : State} (h : SessionAt s)
    (here : s.pstate = .challengeReceived) (ha : s.txActive = false) : s.coutKind = .plaintext := by
  rcases (sessionAt_challengeReceived here).mp h with ⟨sending, _⟩ | ⟨_, plain⟩
  · rw [ha] at sending; cases sending
  · exact plain

/-- R217 under the invariant. -/
theorem computeStep_move {s : State} (h : EngineInv s) (hb : s.busy = true)
    (here : s.pstate = .challengeReceived) (ha : s.txActive = false) :
    ∃ t, computeStep s = .next t ∧ EngineMove s t := by
  obtain ⟨key, user, point⟩ := h.session hb
  obtain ⟨k, hk⟩ := Option.isSome_iff_exists.mp key
  obtain ⟨u, hu⟩ := Option.isSome_iff_exists.mp user
  have plain := point.computing_plaintext here ha
  rcases computeStep_cases hb with ⟨lacks, _⟩ | ⟨_, e⟩ | ⟨c, _, ⟨cause, hc, e⟩ | ⟨v, e⟩⟩
  · obtain ⟨_, _, written⟩ := h.plaintext plain
    rcases decodeOp_lacking lacks with notPlain | ⟨len, none⟩
    · exact absurd plain notPlain
    · rw [len] at written
      have written : (s.readBytes .cout 0 9).isSome = true := written
      rw [none] at written
      cases written
  · exact ⟨_, e, .raises hb (by rw [here]; simp [endCauses]) (.refl h.core)⟩
  · have loaded := (SessionKept.refl h.core).op (fun d => loadChallenge_keeps d c)
      (loadChallenge_frame c s)
    exact ⟨_, e, .raises hb (here ▸ solverCauses_mem cause hc)
      (loaded.op (fun d => dropResult_keeps d) (dropResult_frame _))⟩
  · have loaded := (SessionKept.refl h.core).op (fun d => loadChallenge_keeps d c)
      (loadChallenge_frame c s)
    have solved := loaded.op (fun d => putResult_keeps d v) (putResult_frame v _)
    have hk' := solved.owner.keyBytes.trans hk
    have hu' := solved.owner.userField.trans hu
    have built := responseBuilt_keeps v solved (State.readBytes_length hk) (userField_some hu)
    have read := responseBuilt_readBytes v (putResult v (loadChallenge c s))
      (State.readBytes_length hk) (userField_some hu)
    have step := e.trans (afterSolve_of_result rfl rfl hk' hu')
    refine ⟨_, step, ?_⟩
    have sending := responseBuilt_txActive k u v (putResult v (loadChallenge c s))
    have len := responseBuilt_txLen k u v (putResult v (loadChallenge c s))
    have cnt := responseBuilt_txCnt k u v (putResult v (loadChallenge c s))
    have here' := (responseBuilt_pstate k u v (putResult v (loadChallenge c s))).trans here
    generalize responseBuilt k u v (putResult v (loadChallenge c s)) = t at *
    refine .advances hb built ((sessionAt_challengeReceived here').mpr
      (.inl ⟨sending, len, ?_, Option.isSome_of_eq_some read⟩)) ?_ (.inl (here'.trans here.symm)) ?_
    · rw [cnt]; decide
    · rw [cnt, len]; decide
    · rw [sessionPosition_of_computing here ha, sessionPosition_of_responding here' sending, cnt]
      rfl

/-- Under the invariant every turn of the engine is one of its moves (R212, R225). -/
theorem engineStep_move {s : State} (h : EngineInv s) :
    ∃ t, engineStep s = .next t ∧ EngineMove s t := by
  cases ready : eventReady s with
  | false => exact ⟨s, engineStep_of_not_ready ready, .waits ready⟩
  | true =>
    have hb : s.busy = true := by
      by_contra idle
      rw [h.idle_not_ready (Bool.eq_false_iff.mpr idle)] at ready
      cases ready
    rcases engineStep_of_ready ready with
      ⟨e, _, sending, _, step⟩ | ⟨e, _, receiving, _, step⟩ | ⟨notSending, here, step⟩ <;>
      rw [step]
    · exact txStep_move h hb sending e
    · exact rxStep_move h receiving e
    · exact computeStep_move h hb here notSending

end Sys2Proof.Machine

/-! The host's turn and the reset input under the invariant (spec/10_state.md R45;
spec/43_protocol_sequencer.md R211, R224), and the statements about every step of every agent. -/

namespace Sys2Proof.Machine

/-! ### What the host can do -/

/-- While idle, what keeps the core and the session's registers keeps the invariant. -/
theorem EngineInv.of_idle {s t : State} (h : EngineInv s) (hb : s.busy = false) (core : CoreInv t)
    (run : SameRun s t) : EngineInv t where
  memory := core.data.memory
  result := core.data.result
  ivRx := core.data.ivRx
  ivTx := core.data.ivTx
  ciphertext := core.data.ciphertext
  plaintext := core.data.plaintext
  report := by rw [run.pstate, run.errCause, run.errReason]; exact h.report
  nameLength := core.nameLength
  counters := by
    refine ⟨core.txLen, core.rxNeed, core.rxCnt, core.txCnt, fun running => ?_⟩
    rw [run.pstate] at running
    obtain ⟨_, ⟨_, nothingSent⟩ | terminal⟩ := h.idle hb
    · rw [run.txCnt, nothingSent]; bv_omega
    · rw [running] at terminal; cases terminal
  idle _ := by rw [run.txActive, run.pstate, run.txCnt]; exact h.idle hb
  session e := by rw [run.busy, hb] at e; cases e

theorem EngineInv.nextTurn {s : State} (h : EngineInv s) : EngineInv s.nextTurn := { h with }

theorem EngineInv.takeHostAction {s : State} (h : EngineInv s) : EngineInv (takeHostAction s) :=
  { h with }

theorem EngineInv.refuseCommand {s : State} (h : EngineInv s) : EngineInv (refuseCommand s) :=
  { h with }

theorem EngineInv.noteRead {s : State} (h : EngineInv s) (d : HostData) :
    EngineInv (noteRead d s) := { h with }

theorem CoreInv.clearCmdErr {s : State} (h : CoreInv s) : CoreInv (clearCmdErr s) :=
  { h with data := { h.data with } }

theorem CoreInv.setUnitCause {s : State} (h : CoreInv s) (c : Cause) : CoreInv (setUnitCause c s) :=
  { h with data := { h.data with } }

/-- A unit command while idle keeps the core and the session's registers. -/
theorem unitCommand_core {op : State → OpResult} (hop : OpSound op) {s : State} (h : CoreInv s)
    (hb : s.busy = false) : CoreInv (unitCommand op s) ∧ SameRun s (unitCommand op s) := by
  obtain ⟨onDone, onRaise⟩ := hop _ h.clearCmdErr.data
  rcases unitCommand_cases op s with ⟨busy, _⟩ | ⟨_, t, ht, e⟩ | ⟨_, c, t, ht, e⟩ | ⟨_, _, e⟩
  · rw [hb] at busy; cases busy
  · have kept := onDone t ht
    rw [e]
    exact ⟨(h.clearCmdErr.of_op kept).setUnitCause .none, { kept.same with }⟩
  · have kept := onRaise c t ht
    rw [e, raise_idle c (kept.same.busy.trans hb)]
    exact ⟨(h.clearCmdErr.of_op kept).setUnitCause c, { kept.same with }⟩
  · rw [e]
    exact ⟨h.setUnitCause _, by constructor <;> rfl⟩

theorem putReg_core {s : State} (h : CoreInv s) (r : HostReg) (v : BitVec 64) :
    CoreInv (putReg r v s) := by
  have data : DataInv (putReg r v s) := by
    have kept := h.data
    cases r <;> exact { kept with }
  cases r
  case unameSrcLen =>
    refine { h with data := data, nameLength := fun n hn => ?_ }
    change nameLengthAfter s.unameSrcLen (v.setWidth 8) = some n at hn
    rcases nameLengthAfter_cases s.unameSrcLen (v.setWidth 8) with e | ⟨w, inRange, e⟩ <;>
      rw [e] at hn
    · exact h.nameLength n hn
    · cases hn
      exact inRange
  all_goals exact { h with data := data }

theorem putReg_sameRun (s : State) (r : HostReg) (v : BitVec 64) : SameRun s (putReg r v s) := by
  cases r <;> constructor <;> rfl

theorem putBytes_core {s : State} (h : CoreInv s) {sp : Space} {off : Nat} {bs : Bytes}
    (hb : off + bs.length ≤ sp.size) : CoreInv (putBytes sp off bs s) := by
  have written := dataInv_writeBytes h.data hb
  have ivWritten (valid : (putBytes sp off bs s).ivRxValid = true) :
      ((s.writeBytes sp off bs).readBytes .ivRx 0 16).isSome = true := by
    simp only [putBytes_ivRxValid, Bool.or_eq_true, Bool.and_eq_true, beq_iff_eq] at valid
    rcases valid with valid | ⟨⟨rfl, rfl⟩, whole⟩
    · exact written.ivRx valid
    · have read := s.readBytes_writeBytes_same .ivRx 0 bs hb
      rw [whole] at read
      exact Option.isSome_of_eq_some read
  exact { h with data := { written with ivRx := ivWritten } }

/-- One move of the host. -/
inductive HostMove (s : State) : State → Prop
  /-- RESET is accepted (R224) -/
  | resets {v : BitVec 64} (idle : s.busy = false)
      (head : s.hostQueue.head? = some (.write .cmd v)) (code : v.setWidth 8 = 0x0B) :
      HostMove s (hardReset (takeHostAction s))
  /-- START is accepted (R211) -/
  | starts {u : Bytes} (accepted : startAccepted (takeHostAction s) = some u) :
      HostMove s (startSession u (takeHostAction s))
  /-- the session is as it was, and while it runs its key and user name are too (R45) -/
  | stays {t : State} (inv : EngineInv t) (run : SameRun s t)
      (owner : s.busy = true → OwnerKept s t) : HostMove s t

/-- A refused access, or a read. -/
theorem HostMove.refused {s : State} (h : EngineInv s) :
    HostMove s (refuseCommand (takeHostAction s)) :=
  .stays h.takeHostAction.refuseCommand (by constructor <;> rfl) fun _ => .of_mem rfl rfl

theorem HostMove.reads {s : State} (h : EngineInv s) (d : HostData) :
    HostMove s (noteRead d (takeHostAction s)) :=
  .stays (h.takeHostAction.noteRead d) (by constructor <;> rfl) fun _ => .of_mem rfl rfl

/-- An access that is made only while idle. -/
theorem HostMove.of_idle {s t : State} (h : EngineInv s) (hb : s.busy = false) (core : CoreInv t)
    (run : SameRun s t) : HostMove s t :=
  .stays (h.of_idle hb core run) run fun busy => by rw [hb] at busy; cases busy

theorem hostCommand_move {s : State} (h : EngineInv s) {v : BitVec 64}
    (head : s.hostQueue.head? = some (.write .cmd v)) :
    ∃ t, hostAccess (.write .cmd v) (takeHostAction s) = .next t ∧ HostMove s t := by
  change ∃ t, exec (commandInstr (v.setWidth 8)) (takeHostAction s) = .next t ∧ HostMove s t
  rcases exec_commandInstr_cases (v.setWidth 8) (takeHostAction s) with
    e | ⟨code, idle, e⟩ | ⟨u, accepted, e⟩ | ⟨op, hop, e⟩
  · exact ⟨_, e, .refused h⟩
  · exact ⟨_, e, .resets idle head code⟩
  · exact ⟨_, e, .starts accepted⟩
  · refine ⟨_, e, ?_⟩
    cases hb : s.busy with
    | true => rw [unitCommand_busy (s := takeHostAction s) hb]; exact .refused h
    | false =>
      obtain ⟨core, run⟩ := unitCommand_core hop h.takeHostAction.core hb
      exact .of_idle h hb core { run with }

theorem hostWrite_move {s : State} (h : EngineInv s) (r : HostReg) (v : BitVec 64) :
    HostMove s (hostWrite r v (takeHostAction s)) := by
  unfold hostWrite
  split
  · exact .refused h
  · rename_i idle
    exact .of_idle h (Bool.eq_false_iff.mpr idle) (putReg_core h.takeHostAction.core r v)
      { putReg_sameRun (takeHostAction s) r v with }

theorem hostWriteBytes_move {s : State} (h : EngineInv s) (sp : Space) (off : Nat) (data : Bytes) :
    (∃ t, hostWriteBytes sp off data (takeHostAction s) = .next t ∧ HostMove s t)
      ∨ (s.busy = false ∧ hostWriteBytes sp off data (takeHostAction s) = .fault .noSuchByte) := by
  unfold hostWriteBytes
  split_ifs with busy writable inArray
  · exact .inl ⟨_, rfl, .refused h⟩
  · exact .inl ⟨_, rfl, .of_idle h (Bool.eq_false_iff.mpr busy)
      (putBytes_core h.takeHostAction.core inArray) (by constructor <;> rfl)⟩
  · exact .inr ⟨Bool.eq_false_iff.mpr busy, rfl⟩
  · exact .inl ⟨_, rfl, .stays h.takeHostAction (by constructor <;> rfl) fun _ => .of_mem rfl rfl⟩

/-- Under the invariant every turn of the host is one of its moves, or faults while idle. -/
theorem hostStep_move {s : State} (h : EngineInv s) :
    (∃ t, hostStep s = .next t ∧ HostMove s t)
      ∨ (s.busy = false ∧ hostStep s = .fault .noSuchByte) := by
  unfold hostStep
  cases queue : s.hostQueue with
  | nil => exact .inl ⟨s, rfl, .stays h (by constructor <;> rfl) fun _ => .of_mem rfl rfl⟩
  | cons a q =>
    have head : s.hostQueue.head? = some a := by rw [queue]; rfl
    cases a with
    | write r v =>
      by_cases command : r = .cmd
      · subst command
        exact .inl (hostCommand_move h head)
      · have access : hostAccess (.write r v) (takeHostAction s)
            = .next (hostWrite r v (takeHostAction s)) := by
          cases r <;> first | rfl | exact absurd rfl command
        exact .inl ⟨_, access, hostWrite_move h r v⟩
    | read r => exact .inl ⟨_, rfl, .reads h _⟩
    | writeBytes sp off data => exact hostWriteBytes_move h sp off data
    | readBytes sp off n => exact .inl ⟨_, rfl, .reads h _⟩

/-! ### Reset and START keep the invariant -/

/-- The invariant does not speak of the world, so it holds after any reset as at reset (R43). -/
theorem hardReset_inv (s : State) : EngineInv (hardReset s) where
  memory := ⟨rfl, rfl⟩
  result := rfl
  ivRx e := by cases e
  ivTx e := by cases e
  ciphertext e := by cases e
  plaintext e := by cases e
  report := ⟨by simp, rfl, by simp⟩
  nameLength n e := by cases e
  counters := by simp
  idle _ := by simp
  session e := by cases e

/-- An accepted START keeps the invariant (R211). -/
theorem startSession_inv {s : State} {u : Bytes} (h : EngineInv s)
    (accepted : startAccepted s = some u) : EngineInv (startSession u s) := by
  obtain ⟨_, here, key, user⟩ := startAccepted_some accepted
  have hu := userField_some user
  have hc := h.core.clearCmdErr
  have core := hc.of_op (putRequest_keeps hc.data hu)
  have frame := (clearCmdErr_frame s).trans (putRequest_frame (clearCmdErr s) hu).commandFrame
  obtain ⟨noCause, noReason⟩ := h.no_report (by rw [here]; decide)
  have framed : (startSession u s).readBytes .txbuf 0 19 = some (shortFrameBytes code105 u) := by
    have length := shortFrameBytes_length (c := code105) rfl hu
    have written := s.readBytes_writeBytes_same .txbuf 0 (shortFrameBytes code105 u)
      (by rw [length]; decide)
    rw [length] at written
    exact written
  have here' : (startSession u s).pstate = .init := here
  have owner : OwnerKept s (startSession u s) := { frame.owner with }
  refine .running { core with data := { core.data with }, txCnt := ?_ } rfl
    ((sessionAt_init here').mpr ⟨rfl, rfl, ?_, Option.isSome_of_eq_some framed⟩) noReason noCause ?_
    (owner.keyBytes ▸ key) (owner.userField ▸ Option.isSome_of_eq_some user)
  all_goals simp

theorem HostMove.inv {s t : State} (h : EngineInv s) (hm : HostMove s t) : EngineInv t := by
  cases hm with
  | resets _ _ _ => exact hardReset_inv _
  | starts accepted => exact startSession_inv h.takeHostAction accepted
  | stays inv _ _ => exact inv

/-! ### One step of any agent -/

/-- What a step to a next state is, by whose turn it was (R212). -/
inductive StepMove (s : State) : State → Prop
  | rests (none : s.turns = []) : StepMove s s
  | host {t : State} {ts : List Turn} (turn : s.turns = .host :: ts) (move : HostMove s.nextTurn t) :
      StepMove s t
  | engine {t : State} {ts : List Turn} (turn : s.turns = .engine :: ts)
      (move : EngineMove s.nextTurn t) : StepMove s t
  | resetInput {ts : List Turn} (turn : s.turns = .resetInput :: ts) :
      StepMove s (hardReset s.nextTurn)

/-- Under the invariant a step is one agent's move, or the host's fault while idle. -/
theorem step_move {s : State} (h : EngineInv s) :
    (∃ t, step s = .next t ∧ StepMove s t)
      ∨ (s.busy = false ∧ s.turns.head? = some .host ∧ step s = .fault .noSuchByte) := by
  rcases step_cases s with ⟨none, e⟩ | ⟨ts, turn, e⟩ | ⟨ts, turn, e⟩ | ⟨ts, turn, e⟩
  · exact .inl ⟨s, e, .rests none⟩
  · rcases hostStep_move h.nextTurn with ⟨t, e', move⟩ | ⟨idle, e'⟩
    · exact .inl ⟨t, e.trans e', .host turn move⟩
    · exact .inr ⟨idle, by rw [turn]; rfl, e.trans e'⟩
  · obtain ⟨t, e', move⟩ := engineStep_move h.nextTurn
    exact .inl ⟨t, e.trans e', .engine turn move⟩
  · exact .inl ⟨_, e, .resetInput turn⟩

theorem stepMove_of_next {s t : State} (h : EngineInv s) (e : step s = .next t) : StepMove s t := by
  rcases step_move h with ⟨t', e', move⟩ | ⟨_, _, e'⟩ <;> rw [e] at e' <;> cases e'
  exact move

/-- Settles O7: the reset state is what the reset input leaves, in an empty world. -/
theorem resetMeetsTheEngineInvariant : Obligations.ResetMeetsTheEngineInvariant :=
  hardReset_inv State.reset

/-- Settles O8, by whose turn it is: each agent's moves keep the invariant. -/
theorem stepKeepsTheEngineInvariant : Obligations.StepKeepsTheEngineInvariant := by
  unfold Obligations.StepKeepsTheEngineInvariant
  intro s t h e
  cases stepMove_of_next h e with
  | rests _ => exact h
  | host _ move => exact move.inv h.nextTurn
  | engine _ move => exact move.inv h.nextTurn
  | resetInput _ => exact hardReset_inv _

/-- Every move of the engine keeps `UNIT_CAUSE` (R30). -/
theorem EngineMove.unitCause {s t : State} (h : EngineMove s t) : t.unitCause = s.unitCause := by
  cases h with
  | waits _ => rfl
  | raises _ _ kept => exact kept.unitCause
  | ends _ _ _ kept => exact kept.unitCause
  | advances _ kept _ _ _ _ => exact kept.unitCause

/-- An engine's turn is its move in the state with that turn taken. -/
theorem step_of_engine_turn {s : State} {ts : List Turn} (turn : s.turns = .engine :: ts) :
    step s = engineStep s.nextTurn := by
  unfold step
  rw [turn]

/-- Settles O9: every agent's turn is one of its moves, and the host's fault is its only stop. -/
theorem sessionStepsNeverLackAValue : Obligations.SessionStepsNeverLackAValue := by
  unfold Obligations.SessionStepsNeverLackAValue
  intro s h
  refine ⟨?_, fun ts turn => ?_⟩
  · rcases step_move h with ⟨t, e, _⟩ | fault
    · exact .inl ⟨t, e⟩
    · exact .inr fault
  · obtain ⟨t, e, move⟩ := engineStep_move h.nextTurn
    exact ⟨t, (step_of_engine_turn turn).trans e, move.unitCause⟩

/-- The rows of the transition table that the engine's moves take (R227). -/
theorem EngineMove.row {s t : State} (h : EngineInv s) (hm : EngineMove s t) :
    (t.pstate = s.pstate ∧ t.errReason = s.errReason ∧ t.errCause = s.errCause)
      ∨ (t.pstate ∈ nextStates s.pstate ∧ t.errReason = .none ∧ t.errCause = .none)
      ∨ (t.pstate = .error ∧ t.errCause ∈ endCauses s.pstate
          ∧ t.errReason = reasonOf t.errCause) := by
  cases hm with
  | waits _ => exact .inl ⟨rfl, rfl, rfl⟩
  | raises _ cause _ => exact .inr (.inr ⟨rfl, cause, rfl⟩)
  | ends busy here verdict kept =>
    obtain ⟨noCause, noReason⟩ := h.no_report (h.running_pstate_ne_error busy)
    refine .inr (.inl ⟨?_, kept.errReason.trans noReason, kept.errCause.trans noCause⟩)
    rw [here]
    rcases verdict with rfl | rfl <;> simp [nextStates]
  | advances busy kept _ _ row _ =>
    obtain ⟨noCause, noReason⟩ := h.no_report (h.running_pstate_ne_error busy)
    rcases row with same | next
    · exact .inl ⟨same, kept.errReason, kept.errCause⟩
    · exact .inr (.inl ⟨next, kept.errReason.trans noReason, kept.errCause.trans noCause⟩)

/-- Settles O10: the engine's moves take the table's rows, and the host's leave `PSTATE` or reset it. -/
theorem pstateMovesOnlyByTheTable : Obligations.PstateMovesOnlyByTheTable := by
  unfold Obligations.PstateMovesOnlyByTheTable
  intro s t h e
  cases stepMove_of_next h e with
  | rests _ => exact .inl ⟨rfl, rfl, rfl⟩
  | host turn move =>
    cases move with
    | resets idle head code =>
      exact .inr (.inr (.inr ⟨rfl, rfl, rfl, .inr ⟨by rw [turn]; rfl, idle, _, head, code⟩⟩))
    | starts _ => exact .inl (by simp)
    | stays _ run _ => exact .inl ⟨run.pstate, run.errReason, run.errCause⟩
  | engine _ move =>
    have rows := move.row h.nextTurn
    rw [nextTurn_pstate, nextTurn_errReason, nextTurn_errCause] at rows
    rcases rows with same | next | ended
    · exact .inl same
    · exact .inr (.inl next)
    · exact .inr (.inr (.inl ended))
  | resetInput turn => exact .inr (.inr (.inr ⟨rfl, rfl, rfl, .inl (by rw [turn]; rfl)⟩))

/-- Without a session the engine waits. -/
theorem EngineMove.of_idle {s t : State} (hb : s.busy = false) (hm : EngineMove s t) : t = s := by
  cases hm with
  | waits _ => rfl
  | raises busy _ _ => rw [hb] at busy; cases busy
  | ends busy _ _ _ => rw [hb] at busy; cases busy
  | advances busy _ _ _ _ _ => rw [hb] at busy; cases busy

/-- A terminal state is idle (R219). -/
theorem EngineInv.idle_of_terminal {s : State} (h : EngineInv s)
    (terminal : s.pstate.terminal = true) : s.busy = false := by
  by_contra busy
  have running := (h.running_at (by simpa using busy)).not_terminal
  rw [terminal] at running
  cases running

/-- Settles O11: a terminal state is idle, so the engine waits and no START is accepted. -/
theorem terminalStatesHoldWithoutReset : Obligations.TerminalStatesHoldWithoutReset := by
  unfold Obligations.TerminalStatesHoldWithoutReset
  intro s t h terminal e noResetInput noReset
  have idle := h.idle_of_terminal terminal
  obtain ⟨notSending, _⟩ := h.idle idle
  cases stepMove_of_next h e with
  | rests _ => exact ⟨rfl, rfl, rfl, idle, notSending, rfl, rfl, rfl⟩
  | host _ move =>
    cases move with
    | resets _ head code => exact absurd code (noReset _ head)
    | starts accepted =>
      obtain ⟨_, here, _⟩ := startAccepted_some accepted
      have here : s.pstate = .init := here
      rw [here] at terminal
      cases terminal
    | stays _ run _ =>
      exact ⟨run.pstate, run.errReason, run.errCause, run.busy.trans idle,
        run.txActive.trans notSending, run.txStream, run.rxStream, run.txEvents⟩
  | engine _ move =>
    cases move.of_idle (s := s.nextTurn) idle
    exact ⟨rfl, rfl, rfl, idle, notSending, rfl, rfl, rfl⟩
  | resetInput turn => exact absurd (by rw [turn]; rfl) noResetInput

/-- A session's position is one of 373 (R215 to R218). -/
theorem SessionAt.position_lt {s : State} (h : SessionAt s) : sessionPosition s < 373 := by
  unfold SessionAt at h
  split at h <;> rename_i here
  · obtain ⟨_, _, cnt, _⟩ := h
    rw [sessionPosition_of_init here]; bv_omega
  · obtain ⟨_, _, cnt, _⟩ := h
    rw [sessionPosition_of_awaitChallenge here]; bv_omega
  · rcases h with ⟨sending, _, cnt, _⟩ | ⟨notSending, _⟩
    · rw [sessionPosition_of_responding here sending]; bv_omega
    · rw [sessionPosition_of_computing here notSending]; decide
  · obtain ⟨_, _, cnt, _⟩ := h
    rw [sessionPosition_of_responseSent here]; bv_omega
  all_goals contradiction

/-- Settles O12: with its event at hand the engine does not wait, and each other move ends the session
or counts one position. -/
theorem sessionAdvancesOrEnds : Obligations.SessionAdvancesOrEnds := by
  unfold Obligations.SessionAdvancesOrEnds
  intro s h busy ready ts turn
  obtain ⟨t, e, move⟩ := engineStep_move h.nextTurn
  refine ⟨t, (step_of_engine_turn turn).trans e, ?_⟩
  cases move with
  | waits notReady =>
    have notReady : eventReady s = false := notReady
    rw [ready] at notReady
    cases notReady
  | raises _ _ _ => exact .inr ⟨rfl, rfl⟩
  | ends _ _ verdict _ => exact .inr ⟨rfl, by rcases verdict with rfl | rfl <;> rfl⟩
  | advances _ kept point _ _ position =>
    exact .inl ⟨kept.busy.trans busy, position, point.position_lt⟩

/-- Every move of the engine keeps the key and the user name. -/
theorem EngineMove.owner {s t : State} (h : EngineMove s t) : OwnerKept s t := by
  cases h with
  | waits _ => exact .of_mem rfl rfl
  | raises _ _ kept => exact { kept.owner with }
  | ends _ _ _ kept => exact { kept.owner with }
  | advances _ kept _ _ _ _ => exact kept.owner

/-- Settles O13: the engine's moves do not write the owner's arrays, and the host's are refused. -/
theorem sessionKeepsKeyAndUserName : Obligations.SessionKeepsKeyAndUserName := by
  unfold Obligations.SessionKeepsKeyAndUserName
  intro s t h busy noResetInput e
  have kept : OwnerKept s t := by
    cases stepMove_of_next h e with
    | rests _ => exact .of_mem rfl rfl
    | host _ move =>
      cases move with
      | resets idle _ _ =>
        have idle : s.busy = false := idle
        rw [busy] at idle
        cases idle
      | starts accepted =>
        obtain ⟨idle, _⟩ := startAccepted_some accepted
        have idle : s.busy = false := idle
        rw [busy] at idle
        cases idle
      | stays _ _ owner => exact { owner busy with }
    | engine _ move => exact { move.owner with }
    | resetInput turn => exact absurd (by rw [turn]; rfl) noResetInput
  exact ⟨kept.key, kept.name, kept.nameLength⟩

end Sys2Proof.Machine

/-! Decoding and encoding (spec/30_encoding.md R90 to R112): the fields of a frame that is put together, a
frame put together from its fields, and the instruction of each port both ways. -/

namespace Sys2Proof

/-! ### The fields of a frame -/

/-- The part of a byte string that stands between two others is its slice. -/
theorem slice_of_append {bs a b c : Bytes} {off n : Nat} (h : bs = a ++ b ++ c)
    (ha : a.length = off) (hb : b.length = n) : slice bs off n = b := by
  subst h ha hb
  exact slice_middle a b c

/-- Both formats begin with the code and the user name (R91, R92). -/
theorem frameCode_append {c : Bytes} (rest : Bytes) (hc : c.length = 3) :
    frameCode (c ++ rest) = c :=
  slice_of_append (a := []) rfl rfl hc

theorem frameUsername_append {c u : Bytes} (rest : Bytes) (hc : c.length = 3)
    (hu : u.length = 16) : frameUsername (c ++ u ++ rest) = u :=
  slice_of_append rfl hc hu

theorem frameCode_shortFrameBytes {c : Bytes} (u : Bytes) (hc : c.length = 3) :
    frameCode (shortFrameBytes c u) = c := frameCode_append u hc

theorem frameUsername_shortFrameBytes {c u : Bytes} (hc : c.length = 3) (hu : u.length = 16) :
    frameUsername (shortFrameBytes c u) = u := by
  have fields := frameUsername_append [] hc hu
  rwa [List.append_nil] at fields

/-- The five fields of a long frame are where R92 places them. -/
theorem fields_longFrameBytes {c u iv p : Bytes} (n : BitVec 32) (hc : c.length = 3)
    (hu : u.length = 16) (hiv : iv.length = 16) (hp : p.length = 128) :
    frameCode (longFrameBytes c u iv n p) = c ∧ frameUsername (longFrameBytes c u iv n p) = u
      ∧ frameIv (longFrameBytes c u iv n p) = iv ∧ framePayloadLen (longFrameBytes c u iv n p) = n
      ∧ framePayload (longFrameBytes c u iv n p) = p := by
  have len := toBE32_length n
  have lenField : slice (longFrameBytes c u iv n p) 35 4 = toBE32 n :=
    slice_of_append rfl (by simp [hc, hu, hiv]) len
  refine ⟨slice_of_append (a := []) (c := u ++ iv ++ toBE32 n ++ p) ?_ rfl hc,
    slice_of_append (a := c) (c := iv ++ toBE32 n ++ p) ?_ hc hu,
    slice_of_append (a := c ++ u) (c := toBE32 n ++ p) ?_ (by simp [hc, hu]) hiv,
    by rw [framePayloadLen, lenField, be32_toBE32],
    slice_of_append (a := c ++ u ++ iv ++ toBE32 n) (c := []) ?_ (by simp [hc, hu, hiv, len]) hp⟩
  all_goals simp [longFrameBytes]

/-- A short frame is its fields put together (R91). -/
theorem shortFrameBytes_fields {f : Bytes} (h : f.length = 19) :
    shortFrameBytes (frameCode f) (frameUsername f) = f :=
  (slice_append f 0 3 16).trans (slice_all h)

/-- A long frame is its fields put together (R92). -/
theorem longFrameBytes_fields {f : Bytes} (h : f.length = 167) :
    longFrameBytes (frameCode f) (frameUsername f) (frameIv f) (framePayloadLen f)
      (framePayload f) = f := by
  have len : toBE32 (framePayloadLen f) = slice f 35 4 :=
    toBE32_be32 (slice_length (by omega))
  rw [longFrameBytes, len, frameCode, frameUsername, frameIv, framePayload]
  calc slice f 0 3 ++ slice f 3 16 ++ slice f 19 16 ++ slice f 35 4 ++ slice f 39 128
      = slice f 0 167 := by
        rw [slice_append f 0 3 16, slice_append f 0 19 16, slice_append f 0 35 4,
          slice_append f 0 39 128]
    _ = f := slice_all h

/-- A challenge word is its operator and its two operands put together (R93). -/
theorem challengeWord_fields {w : Bytes} (h : w.length = 9) :
    challengeWord (w.headD 0) (be32 (slice w 1 4)) (be32 (slice w 5 4)) = w := by
  cases w with
  | nil => cases h
  | cons op operands =>
    have length : operands.length = 8 := by simpa using h
    rw [challengeWord, toBE32_be32 (slice_length (by omega)),
      toBE32_be32 (slice_length (by omega)), slice_append (op :: operands) 1 4 4]
    exact congrArg (op :: ·) (slice_all length)

theorem operands_challengeWord (op : Byte) (l r : Operand) :
    (challengeWord op l r).headD 0 = op ∧ be32 (slice (challengeWord op l r) 1 4) = l
      ∧ be32 (slice (challengeWord op l r) 5 4) = r := by
  have left : slice (challengeWord op l r) 1 4 = toBE32 l :=
    slice_of_append (a := [op]) (c := toBE32 r) (by simp [challengeWord]) rfl (toBE32_length l)
  have right : slice (challengeWord op l r) 5 4 = toBE32 r :=
    slice_of_append (a := op :: toBE32 l) (c := []) (by simp [challengeWord])
      (by simp [toBE32_length]) (toBE32_length r)
  exact ⟨rfl, by rw [left, be32_toBE32], by rw [right, be32_toBE32]⟩

/-! ### Decoding what is encoded -/

theorem decode_challengeWord_of_length {w : Bytes} (h : w.length = 9) :
    decode .challengeWord w
      = .instr (challengeInstr (w.headD 0) (be32 (slice w 1 4)) (be32 (slice w 5 4))) := if_pos h

theorem decode_challengeWord (op : Byte) (l r : Operand) :
    decode .challengeWord (challengeWord op l r) = .instr (challengeInstr op l r) := by
  obtain ⟨operator, left, right⟩ := operands_challengeWord op l r
  rw [decode_challengeWord_of_length (challengeWord_length op l r), operator, left, right]

theorem shortFields_iff (u : Bytes) : shortFields u = true ↔ u.length = 16 := by
  rw [shortFields, beq_iff_eq]; rfl

theorem longFields_iff (u iv p : Bytes) :
    longFields u iv p = true ↔ u.length = 16 ∧ iv.length = 16 ∧ p.length = 128 := by
  rw [longFields, Bool.and_eq_true, Bool.and_eq_true, beq_iff_eq, beq_iff_eq, beq_iff_eq, and_assoc]
  rfl

theorem wellFormed_unknownOperator_iff (op : Byte) (l r : Operand) :
    WellFormed (.unknownOperator op l r) = true
      ↔ op ≠ 0x25 ∧ op ≠ 0x2A ∧ op ≠ 0x2B ∧ op ≠ 0x2D ∧ op ≠ 0x2F := by
  simp only [WellFormed, operators, Bool.not_eq_true', List.contains_eq_mem,
    decide_eq_false_iff_not, List.mem_cons, List.not_mem_nil, or_false, not_or, ne_eq]

/-- At the status point a frame of these fields is read by its code alone (R104). -/
theorem decode_statusPoint_shortFrameBytes {c u : Bytes} (hc : c.length = 3) (hu : u.length = 16) :
    decode .statusPoint (shortFrameBytes c u) = .instr
      (if c = code305 then .error305AtStatus u
       else if c = code205 then .status205 u
       else if c = code210 then .status210 u
       else .unexpectedCodeAtStatus c u) := by
  rw [Machine.decode_statusPoint (shortFrameBytes_length hc hu), statusPointInstr,
    frameCode_shortFrameBytes u hc, frameUsername_shortFrameBytes hc hu]

/-- At the challenge point a frame of these fields is read by its code alone (R104). -/
theorem decode_challengePoint_longFrameBytes {c u iv p : Bytes} (n : BitVec 32)
    (hc : c.length = 3) (h : longFields u iv p = true) :
    decode .challengePoint (longFrameBytes c u iv n p) = .instr
      (if c = code305 then .error305AtChallenge u iv n p
       else if c = code110 then .challenge110 u iv n p
       else .unexpectedCodeAtChallenge c u iv n p) := by
  obtain ⟨hu, hiv, hp⟩ := (longFields_iff u iv p).mp h
  obtain ⟨code, user, iv', len, payload⟩ := fields_longFrameBytes n hc hu hiv hp
  rw [Machine.decode_challengePoint (longFrameBytes_length n hc hu hiv hp), challengePointInstr, code, user, iv',
    len, payload]

theorem decode_request105 {u : Bytes} (hu : u.length = 16) :
    decode .outbound (shortFrameBytes code105 u) = .instr (.request105 u) := by
  have code := frameCode_shortFrameBytes (c := code105) u rfl
  rw [decode, if_pos ⟨code, shortFrameBytes_length rfl hu⟩,
    frameUsername_shortFrameBytes (c := code105) rfl hu]

theorem decode_response115 {u iv p : Bytes} (n : BitVec 32) (h : longFields u iv p = true) :
    decode .outbound (longFrameBytes code115 u iv n p) = .instr (.response115 u iv n p) := by
  obtain ⟨hu, hiv, hp⟩ := (longFields_iff u iv p).mp h
  obtain ⟨code, user, iv', len, payload⟩ := fields_longFrameBytes (c := code115) n rfl hu hiv hp
  have notRequest : ¬(frameCode (longFrameBytes code115 u iv n p) = code105
      ∧ (longFrameBytes code115 u iv n p).length = Config.shortFrame) := by
    rw [code]
    exact fun both => absurd both.1 (by decide)
  rw [decode, if_neg notRequest, if_pos ⟨code, longFrameBytes_length n rfl hu hiv hp⟩, user, iv', len,
    payload]

/-- Settles O1, by the instruction: each format's fields are read back where they were put. -/
theorem decodeOfEncodeIsTheInstruction : Obligations.DecodeOfEncodeIsTheInstruction := by
  unfold Obligations.DecodeOfEncodeIsTheInstruction
  intro i wf
  cases i with
  | add l r => exact decode_challengeWord 0x2B l r
  | sub l r => exact decode_challengeWord 0x2D l r
  | mul l r => exact decode_challengeWord 0x2A l r
  | div l r => exact decode_challengeWord 0x2F l r
  | mod l r => exact decode_challengeWord 0x25 l r
  | unknownOperator op l r =>
    obtain ⟨hmod, hmul, hadd, hsub, hdiv⟩ := (wellFormed_unknownOperator_iff op l r).mp wf
    exact (decode_challengeWord op l r).trans (congrArg _
      (Machine.challengeInstr_unknownOperator l r hmod hmul hadd hsub hdiv))
  | request105 u => exact decode_request105 ((shortFields_iff u).mp wf)
  | challenge110 u iv n p => exact decode_challengePoint_longFrameBytes n rfl wf
  | response115 u iv n p => exact decode_response115 n wf
  | status205 u =>
    exact decode_statusPoint_shortFrameBytes (c := code205) rfl ((shortFields_iff u).mp wf)
  | status210 u =>
    exact decode_statusPoint_shortFrameBytes (c := code210) rfl ((shortFields_iff u).mp wf)
  | error305AtChallenge u iv n p => exact decode_challengePoint_longFrameBytes n rfl wf
  | error305AtStatus u =>
    exact decode_statusPoint_shortFrameBytes (c := code305) rfl ((shortFields_iff u).mp wf)
  | unexpectedCodeAtChallenge c u iv n p =>
    simp only [WellFormed, Bool.and_eq_true, beq_iff_eq, bne_iff_ne] at wf
    obtain ⟨⟨⟨fields, hc⟩, not110⟩, not305⟩ := wf
    refine (decode_challengePoint_longFrameBytes n hc fields).trans ?_
    rw [if_neg not305, if_neg not110]
  | unexpectedCodeAtStatus c u =>
    simp only [WellFormed, Bool.and_eq_true, beq_iff_eq, bne_iff_ne] at wf
    obtain ⟨⟨⟨⟨hu, hc⟩, not205⟩, not210⟩, not305⟩ := wf
    refine (decode_statusPoint_shortFrameBytes hc ((shortFields_iff u).mp hu)).trans ?_
    rw [if_neg not305, if_neg not205, if_neg not210]
  | reservedCmd c =>
    simp only [WellFormed, Bool.not_eq_true', List.contains_eq_mem, decide_eq_false_iff_not] at wf
    exact congrArg Decoded.instr (Machine.commandInstr_of_not_mem wf)
  | start | buildReq | parseChal | decrypt | decode | solve | encode | encrypt | buildResp
  | parseStat | reset => rfl

/-! ### Encoding what is decoded -/

/-- What a byte written to `CMD` selects is a well-formed command with that byte (R103, R112). -/
theorem commandInstr_encodes (b : Byte) : portOf (commandInstr b) = .command
    ∧ WellFormed (commandInstr b) = true ∧ encode (commandInstr b) = [b] := by
  by_cases code : b ∈ commandCodes
  · simp only [commandCodes, List.mem_cons, List.not_mem_nil, or_false] at code
    rcases code with rfl | rfl | rfl | rfl | rfl | rfl | rfl | rfl | rfl | rfl | rfl <;>
      exact ⟨rfl, rfl, rfl⟩
  · rw [Machine.commandInstr_of_not_mem code]
    exact ⟨rfl, by simpa [WellFormed] using code, rfl⟩

/-- What an operator selects is a well-formed challenge of that operator and these operands (R102,
R105). -/
theorem challengeInstr_encodes (op : Byte) (l r : Operand) :
    portOf (challengeInstr op l r) = .challengeWord ∧ WellFormed (challengeInstr op l r) = true
      ∧ encode (challengeInstr op l r) = challengeWord op l r := by
  unfold challengeInstr
  split_ifs with add sub mul div mod
  · exact ⟨rfl, rfl, by rw [add, encode]⟩
  · exact ⟨rfl, rfl, by rw [sub, encode]⟩
  · exact ⟨rfl, rfl, by rw [mul, encode]⟩
  · exact ⟨rfl, rfl, by rw [div, encode]⟩
  · exact ⟨rfl, rfl, by rw [mod, encode]⟩
  · exact ⟨rfl, (wellFormed_unknownOperator_iff op l r).mpr ⟨mod, mul, add, sub, div⟩, rfl⟩

/-- A frame met at the challenge point is a well-formed instruction that encodes to it (R92, R104). -/
theorem challengePointInstr_encodes {f : Bytes} (h : f.length = 167) :
    portOf (challengePointInstr f) = .challengePoint ∧ WellFormed (challengePointInstr f) = true
      ∧ encode (challengePointInstr f) = f := by
  have fields : longFields (frameUsername f) (frameIv f) (framePayload f) = true := by
    rw [longFields_iff]
    exact ⟨slice_length (by omega), slice_length (by omega), slice_length (by omega)⟩
  have codeLength : (frameCode f).length = 3 := slice_length (by omega)
  have whole := longFrameBytes_fields h
  unfold challengePointInstr
  dsimp only
  split_ifs with is305 is110
  · exact ⟨rfl, fields, by rw [encode, ← is305, whole]⟩
  · exact ⟨rfl, fields, by rw [encode, ← is110, whole]⟩
  · exact ⟨rfl, by simp [WellFormed, fields, codeLength, is305, is110, Config.codeLen], whole⟩

/-- A frame met at the status point is a well-formed instruction that encodes to it (R91, R104). -/
theorem statusPointInstr_encodes {f : Bytes} (h : f.length = 19) :
    portOf (statusPointInstr f) = .statusPoint ∧ WellFormed (statusPointInstr f) = true
      ∧ encode (statusPointInstr f) = f := by
  have fields : shortFields (frameUsername f) = true :=
    (shortFields_iff _).mpr (slice_length (by omega))
  have codeLength : (frameCode f).length = 3 := slice_length (by omega)
  have whole := shortFrameBytes_fields h
  unfold statusPointInstr
  dsimp only
  split_ifs with is305 is205 is210
  · exact ⟨rfl, fields, by rw [encode, ← is305, whole]⟩
  · exact ⟨rfl, fields, by rw [encode, ← is205, whole]⟩
  · exact ⟨rfl, fields, by rw [encode, ← is210, whole]⟩
  · exact ⟨rfl, by simp [WellFormed, fields, codeLength, is305, is205, is210, Config.codeLen], whole⟩

/-- Settles O2, by the port: the instruction read keeps each field, so it encodes to the bytes read. -/
theorem decodedBytesAreTheEncoding : Obligations.DecodedBytesAreTheEncoding := by
  unfold Obligations.DecodedBytesAreTheEncoding
  intro p bs i read
  cases p with
  | command =>
    simp only [decode] at read
    split at read <;> cases read
    exact commandInstr_encodes _
  | challengeWord =>
    simp only [decode] at read
    split_ifs at read with length
    cases read
    obtain ⟨port, wf, bytes⟩ := challengeInstr_encodes (bs.headD 0) (be32 (slice bs 1 4))
      (be32 (slice bs 5 4))
    exact ⟨port, wf, bytes.trans (challengeWord_fields length)⟩
  | challengePoint =>
    simp only [decode] at read
    split_ifs at read with length
    cases read
    exact challengePointInstr_encodes length
  | statusPoint =>
    simp only [decode] at read
    split_ifs at read with length
    cases read
    exact statusPointInstr_encodes length
  | outbound =>
    simp only [decode] at read
    split_ifs at read with request response <;> cases read
    · obtain ⟨code, length⟩ := request
      have length : bs.length = 19 := length
      refine ⟨rfl, (shortFields_iff _).mpr (slice_length (by omega)), ?_⟩
      rw [encode, ← code, shortFrameBytes_fields length]
    · obtain ⟨code, length⟩ := response
      have length : bs.length = 167 := length
      refine ⟨rfl, (longFields_iff _ _ _).mpr
        ⟨slice_length (by omega), slice_length (by omega), slice_length (by omega)⟩, ?_⟩
      rw [encode, ← code, longFrameBytes_fields length]

/-! ### Lengths and known words -/

/-- A decoder that reads every string of one length and no other. -/
theorem exists_instr_iff {p : Prop} [Decidable p] (i : Instr) (e : DecodeError) :
    (∃ j, (if p then Decoded.instr i else .rejected e) = .instr j) ↔ p := by
  split <;> simp [*]

/-- Settles O3: at each port the decoder looks at the number of bytes before it reads any. -/
theorem onlyTheLengthDecidesDecoding : Obligations.OnlyTheLengthDecidesDecoding := by
  unfold Obligations.OnlyTheLengthDecidesDecoding
  refine fun bs => ⟨⟨?_, fun one => ?_⟩, exists_instr_iff _ _, exists_instr_iff _ _,
    exists_instr_iff _ _⟩
  · rintro ⟨i, read⟩
    simp only [decode] at read
    split at read <;> cases read
    rfl
  · obtain ⟨b, rfl⟩ := List.length_eq_one_iff.mp one
    exact ⟨commandInstr b, rfl⟩

/-- Settles O4: each word is the encoding of a well-formed instruction, which decodes from it (O1). -/
theorem knownWordsDecode : Obligations.KnownWordsDecode := by
  unfold Obligations.KnownWordsDecode
  have decoded := decodeOfEncodeIsTheInstruction
  have length : toBE32 65552 = [0, 1, 0, 0x10] := by decide
  have challenge := decoded (.challenge110 (List.replicate 16 0x41) (List.replicate 16 0x55) 65552
    (List.replicate 128 0x77)) ((longFields_iff _ _ _).mpr (by simp))
  rw [encode, longFrameBytes, length] at challenge
  exact ⟨decoded (.add 10 32) rfl, decoded (.div 256 0x12345678) rfl,
    decoded (.unknownOperator 0x5E 1 0) (by decide), decoded .parseStat rfl,
    decoded (.reservedCmd 0x0C) (by decide),
    decoded (.status210 (0x61 :: List.replicate 15 0)) (by decide), challenge⟩

end Sys2Proof

/-! Padding and the CBC chain for every block cipher with the law of R146 (spec/40_crypto_engine.md R131 to
R141): the chain is unfolded one block at a time. -/

namespace Sys2Proof.Machine

/-! ### Padding (R131, R132) -/

/-- The number of padding bytes (R131). -/
theorem padCount_bounds (n : Nat) : 1 ≤ 16 - n % 16 ∧ 16 - n % 16 ≤ 16 := by omega

/-- The last `k` bytes all are `v`: the test of `Unpad`, index by index. -/
theorem all_drop_beq_iff (m : Bytes) (k : Nat) (v : Byte) :
    (m.drop (m.length - k)).all (fun b => b == v) = true
      ↔ ∀ i, m.length - k ≤ i → i < m.length → m[i]? = some v := by
  simp only [List.all_eq_true, beq_iff_eq]
  constructor
  · intro h i hlow hi
    rw [List.getElem?_eq_getElem hi]
    refine congrArg some (h _ (List.mem_iff_getElem.mpr ⟨i - (m.length - k), ?_, ?_⟩))
    · rw [List.length_drop]; omega
    · rw [List.getElem_drop]
      congr 1
      omega
  · intro h b hb
    obtain ⟨j, hj, rfl⟩ := List.mem_iff_getElem.mp hb
    rw [List.length_drop] at hj
    have byte := h (m.length - k + j) (by omega) (by omega)
    rw [List.getElem?_eq_getElem (by omega)] at byte
    rw [List.getElem_drop]
    exact Option.some.inj byte

/-- `Unpad` looks at the last byte first (R132). -/
theorem unpad_of_getLast? {m : Bytes} {v : Byte} (h : m.getLast? = some v) :
    unpad m = if v.toNat < 1 ∨ 16 < v.toNat then none
      else if (m.drop (m.length - v.toNat)).all (fun b => b == v) then
        some (m.take (m.length - v.toNat))
      else none := by
  have last : m.getLastD 0 = v := by rw [List.getLastD_eq_getLast?, h]; rfl
  simp only [unpad, last]

theorem unpad_of_padding {m : Bytes} {v : Byte} (h : m.getLast? = some v) (h1 : 1 ≤ v.toNat)
    (h16 : v.toNat ≤ 16) (hall : ∀ i, m.length - v.toNat ≤ i → i < m.length → m[i]? = some v) :
    unpad m = some (m.take (m.length - v.toNat)) := by
  rw [unpad_of_getLast? h, if_neg (by omega), if_pos ((all_drop_beq_iff m v.toNat v).mpr hall)]

theorem unpad_invalid {m : Bytes} {v : Byte} (h : m.getLast? = some v)
    (hbad : v.toNat < 1 ∨ 16 < v.toNat
      ∨ ∃ i, m.length - v.toNat ≤ i ∧ i < m.length ∧ m[i]? ≠ some v) : unpad m = none := by
  rw [unpad_of_getLast? h]
  by_cases count : v.toNat < 1 ∨ 16 < v.toNat
  · exact if_pos count
  · rw [if_neg count, if_neg]
    rw [all_drop_beq_iff]
    rcases hbad with low | high | ⟨i, hlow, hi, differs⟩
    · exact absurd (.inl low) count
    · exact absurd (.inr high) count
    · exact fun hall => differs (hall i hlow hi)

/-- `Unpad` takes off what `Pad` added. -/
theorem unpad_pad (p : Bytes) : unpad (pad p) = some p := by
  obtain ⟨h1, h16⟩ := padCount_bounds p.length
  have count : (BitVec.ofNat 8 (16 - p.length % 16)).toNat = 16 - p.length % 16 := by
    rw [BitVec.toNat_ofNat]; omega
  have length : (pad p).length - (16 - p.length % 16) = p.length := by
    rw [pad, List.length_append, List.length_replicate]; omega
  have last : (pad p).getLast? = some (BitVec.ofNat 8 (16 - p.length % 16)) := by
    rw [pad, List.getLast?_append, List.getLast?_replicate, if_neg (by omega), Option.some_or]
  have unpadded := unpad_of_padding last (by omega) (by omega) fun i hlow hi => by
    rw [count, length] at hlow
    rw [pad, List.length_append, List.length_replicate] at hi
    rw [pad, List.getElem?_append_right hlow]
    exact List.getElem?_replicate_of_lt (by omega)
  rw [unpadded, count, length, pad, List.take_left]

/-- Settles O25. -/
theorem unpadOfPadIsTheMessage : Obligations.UnpadOfPadIsTheMessage :=
  fun p => ⟨unpad_pad p, pad_length p⟩

/-- Settles O57: padding from its definition, unpadding by what its last byte says. -/
theorem padAndUnpadFollowTheCount : Obligations.PadAndUnpadFollowTheCount := by
  unfold Obligations.PadAndUnpadFollowTheCount
  refine ⟨fun p => ?_, fun m v _ last => ⟨unpad_of_padding last, unpad_invalid last⟩⟩
  obtain ⟨h1, h16⟩ := padCount_bounds p.length
  exact ⟨_, rfl, h1, h16, rfl, pad_length p, unpad_pad p⟩

/-! ### Exclusive or of byte strings -/

theorem xor_xor_same_left (a x y : Byte) : a ^^^ x ^^^ (a ^^^ y) = x ^^^ y := by
  rw [BitVec.xor_comm a x, BitVec.xor_assoc, ← BitVec.xor_assoc a a y, BitVec.xor_self,
    BitVec.zero_xor]

/-- What two strings are mixed with alike drops out of their difference. -/
theorem xorBytes_xorBytes_left {a x y : Bytes} (hx : x.length = a.length)
    (hy : y.length = a.length) : xorBytes (xorBytes a x) (xorBytes a y) = xorBytes x y := by
  refine List.ext_getElem (by simp [xorBytes, hx, hy]) fun i _ _ => ?_
  simp only [xorBytes, List.getElem_zipWith]
  exact xor_xor_same_left _ _ _

theorem xorBytes_right_injective {a b x : Bytes} (ha : a.length = x.length)
    (hb : b.length = x.length) (h : xorBytes a x = xorBytes b x) : a = b := by
  rw [← xorBytes_xorBytes a x ha, h, xorBytes_xorBytes b x hb]

/-! ### The chain, one block at a time (R133, R134) -/

theorem blocksOf_append {b : Bytes} (hb : b.length = 16) (n : Nat) (m : Bytes) :
    blocksOf (n + 1) (b ++ m) = b :: blocksOf n m := by
  rw [blocksOf, ← hb, List.take_left, List.drop_left]

theorem cbcDec_nil (dec : Bytes → Bytes → Bytes) (k iv : Bytes) : cbcDec dec k iv [] = [] := rfl

theorem cbcEnc_nil (enc : Bytes → Bytes → Bytes) (k iv : Bytes) : cbcEnc enc k iv [] = [] := rfl

theorem cbcDec_block (dec : Bytes → Bytes → Bytes) (k iv : Bytes) {y : Bytes} (hy : y.length = 16)
    (rest : Bytes) :
    cbcDec dec k iv (y ++ rest) = xorBytes (dec k y) iv ++ cbcDec dec k y rest := by
  have count : (y ++ rest).length / 16 = rest.length / 16 + 1 := by
    rw [List.length_append, hy]; omega
  rw [cbcDec, count, blocksOf_append hy, cbcDecBlocks, cbcDec]

theorem cbcEnc_block (enc : Bytes → Bytes → Bytes) (k iv : Bytes) {x : Bytes} (hx : x.length = 16)
    (rest : Bytes) : cbcEnc enc k iv (x ++ rest)
      = enc k (xorBytes x iv) ++ cbcEnc enc k (enc k (xorBytes x iv)) rest := by
  have count : (x ++ rest).length / 16 = rest.length / 16 + 1 := by
    rw [List.length_append, hx]; omega
  rw [cbcEnc, count, blocksOf_append hx, cbcEncBlocks, cbcEnc]

/-- A message of whole blocks is empty or begins with a block, and whole blocks follow. -/
theorem wholeBlocks_cases {m : Bytes} {n : Nat} (h : m.length = 16 * (n + 1)) :
    ∃ b rest, m = b ++ rest ∧ b.length = 16 ∧ rest.length = 16 * n :=
  ⟨m.take 16, m.drop 16, (List.take_append_drop 16 m).symm, by rw [List.length_take]; omega,
    by rw [List.length_drop]; omega⟩

section
variable {enc dec : Bytes → Bytes → Bytes} {k : Bytes}

/-- Decryption undoes encryption, by the number of blocks: each block's chain value is the ciphertext
block before it on both sides. -/
theorem cbcDec_cbcEnc (law : CipherLaw enc dec) (hk : k.length = 16) (n : Nat) {iv m : Bytes}
    (hiv : iv.length = 16) (hm : m.length = 16 * n) :
    cbcDec dec k iv (cbcEnc enc k iv m) = m := by
  induction n generalizing iv m with
  | zero => rw [List.length_eq_zero_iff.mp hm, cbcEnc_nil, cbcDec_nil]
  | succ n ih =>
    obtain ⟨x, rest, rfl, hx, hrest⟩ := wholeBlocks_cases hm
    have mixed := xorBytes_length_of_eq hx hiv
    have block := law.encLength k _ hk mixed
    rw [cbcEnc_block enc k iv hx, cbcDec_block dec k iv block, law.inverse k _ hk mixed,
      xorBytes_xorBytes x iv (hx.trans hiv.symm), ih block hrest]

/-- What stands before enters the chain through one block alone. -/
theorem cbcDec_append (n : Nat) {iv before : Bytes} (hiv : iv.length = 16)
    (hb : before.length = 16 * n) : ∃ c : Bytes, c.length = 16
      ∧ ∀ rest, cbcDec dec k iv (before ++ rest) = cbcDec dec k iv before ++ cbcDec dec k c rest := by
  induction n generalizing iv before with
  | zero =>
    rw [List.length_eq_zero_iff.mp hb]
    exact ⟨iv, hiv, fun rest => rfl⟩
  | succ n ih =>
    obtain ⟨y, tail, rfl, hy, htail⟩ := wholeBlocks_cases hb
    obtain ⟨c, hc, chain⟩ := ih hy htail
    refine ⟨c, hc, fun rest => ?_⟩
    rw [List.append_assoc, cbcDec_block dec k iv hy, chain, cbcDec_block dec k iv hy,
      List.append_assoc]

end

/-- Settles O26. -/
theorem cbcDecryptionUndoesEncryption : Obligations.CbcDecryptionUndoesEncryption := by
  unfold Obligations.CbcDecryptionUndoesEncryption
  intro enc dec law k iv m hk hiv hm
  exact cbcDec_cbcEnc law hk (m.length / 16) hiv (by omega)

/-- Settles O27: the ciphertext has a length that `Decrypt` accepts, the chain gives the padded
plaintext back, and `Unpad` the plaintext. -/
theorem decryptOfEncryptIsThePlaintext : Obligations.DecryptOfEncryptIsThePlaintext := by
  unfold Obligations.DecryptOfEncryptIsThePlaintext
  intro enc dec law k iv p hk hiv hp
  have length : (cbcEnc enc k iv (pad p)).length = 16 * (p.length / 16 + 1) :=
    cbcEnc_length (fun x hx => law.encLength k x hk hx) hiv (pad_length p)
  have accepted : validCtLen (cbcEnc enc k iv (pad p)).length = true := by
    rw [validCtLen_iff, length]; omega
  rw [cbcEncrypt, cbcDecrypt, if_pos accepted, cbcDec_cbcEnc law hk _ hiv (pad_length p),
    unpad_pad, Option.getD_some]

/-- Settles O28: the IV enters the first block alone. -/
theorem wrongIvChangesOnlyTheFirstBlock : Obligations.WrongIvChangesOnlyTheFirstBlock := by
  unfold Obligations.WrongIvChangesOnlyTheFirstBlock
  intro enc dec law k iv iv' c hk hiv hiv' hc hne
  have positive := List.length_pos_of_ne_nil hne
  obtain ⟨y, rest, rfl, hy, _⟩ := wholeBlocks_cases (m := c) (n := c.length / 16 - 1) (by omega)
  have block := law.decLength k y hk hy
  have first := xorBytes_length_of_eq block hiv
  have first' := xorBytes_length_of_eq block hiv'
  rw [cbcDec_block dec k iv hy, cbcDec_block dec k iv' hy, List.drop_left' first,
    List.drop_left' first', List.take_left' first, List.take_left' first']
  exact ⟨rfl, xorBytes_xorBytes_left (hiv.trans block.symm) (hiv'.trans block.symm)⟩

/-- Settles O29: where `Unpad` succeeds it takes off 1 to 16 of the message's bytes. -/
theorem decryptLengthLaw : Obligations.DecryptLengthLaw := by
  unfold Obligations.DecryptLengthLaw
  intro enc dec law k iv c hk hiv
  by_cases accepted : validCtLen c.length = true
  · obtain ⟨positive, whole, atMost⟩ := (validCtLen_iff _).mp accepted
    refine ⟨?_, fun wrong => by omega⟩
    have length := cbcDec_length (fun x hx => law.decLength k x hk hx) hiv
      (show c.length = 16 * (c.length / 16) by omega)
    rw [cbcDecrypt, if_pos accepted]
    cases unpadded : unpad (cbcDec dec k iv c) with
    | none => exact .inl rfl
    | some u =>
      obtain ⟨v, h1, h16, rfl⟩ := unpad_some unpadded
      rw [Option.getD_some, ← List.length_eq_zero_iff, List.length_take]
      omega
  · have sentinel : cbcDecrypt dec c k iv = [] := if_neg accepted
    exact ⟨.inl sentinel, fun _ => sentinel⟩

/-! ### A changed ciphertext block (R134) -/

/-- Encryption under one key, as a map of 16-byte blocks. -/
def encOnBlocks {enc dec : Bytes → Bytes → Bytes} (law : CipherLaw enc dec) {k : Bytes}
    (hk : k.length = 16) (b : List.Vector Byte 16) : List.Vector Byte 16 :=
  ⟨enc k b.1, law.encLength k b.1 hk b.2⟩

theorem encOnBlocks_injective {enc dec : Bytes → Bytes → Bytes} (law : CipherLaw enc dec)
    {k : Bytes} (hk : k.length = 16) : Function.Injective (encOnBlocks law hk) := by
  intro a b hab
  have same : enc k a.1 = enc k b.1 := congrArg Subtype.val hab
  refine Subtype.ext ?_
  rw [← law.inverse k a.1 hk a.2, same, law.inverse k b.1 hk b.2]

/-- There are finitely many blocks, so every block is the encryption of one. -/
theorem CipherLaw.exists_enc_eq {enc dec : Bytes → Bytes → Bytes} (law : CipherLaw enc dec)
    {k x : Bytes} (hk : k.length = 16) (hx : x.length = 16) :
    ∃ a, a.length = 16 ∧ enc k a = x := by
  obtain ⟨a, ha⟩ := Finite.surjective_of_injective (encOnBlocks_injective law hk) ⟨x, hx⟩
  exact ⟨a.1, a.2, congrArg Subtype.val ha⟩

theorem CipherLaw.dec_injective {enc dec : Bytes → Bytes → Bytes} (law : CipherLaw enc dec)
    {k x y : Bytes} (hk : k.length = 16) (hx : x.length = 16) (hy : y.length = 16)
    (h : dec k x = dec k y) : x = y := by
  obtain ⟨a, ha, rfl⟩ := law.exists_enc_eq hk hx
  obtain ⟨b, hb, rfl⟩ := law.exists_enc_eq hk hy
  rw [law.inverse k a hk ha, law.inverse k b hk hb] at h
  rw [h]

/-- Settles O58: the changed block is decrypted in its own place and mixed into the next one. -/
theorem ciphertextChangeSpreadsToTwoBlocks : Obligations.CiphertextChangeSpreadsToTwoBlocks := by
  unfold Obligations.CiphertextChangeSpreadsToTwoBlocks
  intro enc dec law k iv before x y next rest hk hiv hbefore hx hy hne hnext _
  obtain ⟨c, hc, chain⟩ := cbcDec_append (dec := dec) (k := k) (before.length / 16) hiv
    (show before.length = 16 * (before.length / 16) by omega)
  have changed (z : Bytes) (hz : z.length = 16) : cbcDec dec k iv (before ++ z ++ next ++ rest)
      = cbcDec dec k iv before ++ xorBytes (dec k z) c ++ xorBytes (dec k next) z
        ++ cbcDec dec k next rest := by
    simp only [List.append_assoc]
    rw [chain, cbcDec_block dec k c hz, cbcDec_block dec k z hnext]
  have atEnd (z : Bytes) (hz : z.length = 16) :
      cbcDec dec k iv (before ++ z) = cbcDec dec k iv before ++ xorBytes (dec k z) c := by
    have block := cbcDec_block dec k c hz []
    rw [cbcDec_nil, List.append_nil, List.append_nil] at block
    rw [chain, block]
  have xLength := law.decLength k x hk hx
  have yLength := law.decLength k y hk hy
  have nextLength := law.decLength k next hk hnext
  refine ⟨_, _, _, _, _, _, changed x hx, changed y hy, atEnd x hx, atEnd y hy, ?_,
    xorBytes_length_of_eq xLength hc, xorBytes_length_of_eq yLength hc,
    xorBytes_length_of_eq nextLength hx, xorBytes_length_of_eq nextLength hy, fun same => ?_,
    xorBytes_xorBytes_left (hx.trans nextLength.symm) (hy.trans nextLength.symm)⟩
  · have length := cbcDec_length (fun z hz => law.decLength k z hk hz) hiv
      (show before.length = 16 * (before.length / 16) by omega)
    omega
  · exact hne (law.dec_injective hk hx hy
      (xorBytes_right_injective (xLength.trans hc.symm) (yLength.trans hc.symm) same))

end Sys2Proof.Machine

/-! AES-128 decryption undoes encryption (spec/44_aes128_primitive.md R250 to R257): each of the round's three
maps has its inverse, and the decryption rounds meet the round keys in the opposite order. -/

namespace Sys2Proof.Machine

/-! ### SubBytes and ShiftRows (R252, R253, R255) -/

/-- The two tables are each other's inverse at each of the 256 bytes. -/
theorem invSbox_sbox : ∀ a : Byte, invSbox (sbox a) = a := by decide +kernel

theorem invSubBytes_subBytes (s : Bytes) : invSubBytes (subBytes s) = s := by
  have pointwise : invSbox ∘ sbox = id := funext invSbox_sbox
  rw [invSubBytes, subBytes, List.map_map, pointwise, List.map_id]

/-- A block is written out by its sixteen bytes. -/
theorem exists_bytes_of_length {s : Bytes} (h : s.length = 16) :
    ∃ a0 a1 a2 a3 a4 a5 a6 a7 a8 a9 a10 a11 a12 a13 a14 a15 : Byte,
      s = [a0, a1, a2, a3, a4, a5, a6, a7, a8, a9, a10, a11, a12, a13, a14, a15] := by
  match s, h with
  | [a0, a1, a2, a3, a4, a5, a6, a7, a8, a9, a10, a11, a12, a13, a14, a15], _ =>
    exact ⟨a0, a1, a2, a3, a4, a5, a6, a7, a8, a9, a10, a11, a12, a13, a14, a15, rfl⟩

theorem invShiftRows_shiftRows {s : Bytes} (h : s.length = 16) : invShiftRows (shiftRows s) = s := by
  obtain ⟨a0, a1, a2, a3, a4, a5, a6, a7, a8, a9, a10, a11, a12, a13, a14, a15, rfl⟩ :=
    exists_bytes_of_length h
  rfl

/-! ### MixColumns (R251, R255) -/

/-- `xtime` is a shift, and the exclusive or with a constant that depends on the top bit alone. -/
theorem xtime_eq (a : Byte) : xtime a = a <<< 1 ^^^ (if a.msb then 0x1B else 0) := by
  have top : a < 0x80 ↔ a.msb = false := by
    rw [BitVec.msb_eq_decide, decide_eq_false_iff_not, BitVec.lt_def, Nat.not_le]
    rfl
  unfold xtime
  cases h : a.msb with
  | false => rw [if_pos (top.mpr h), if_neg (by decide)]; exact BitVec.xor_zero.symm
  | true => rw [if_neg (by rw [top, h]; decide), if_pos rfl]

theorem xtime_xor (a b : Byte) : xtime (a ^^^ b) = xtime a ^^^ xtime b := by
  have carry : ∀ p q : Bool, (if (p ^^ q) = true then (0x1B : Byte) else 0)
      = (if p = true then 0x1B else 0) ^^^ (if q = true then 0x1B else 0) := by decide
  rw [xtime_eq, xtime_eq, xtime_eq, BitVec.msb_xor, BitVec.shiftLeft_xor_distrib, carry]
  ac_rfl

/-- The product is additive in its first factor (R251). -/
theorem gmulFrom_xor (n : Nat) (a b k : Byte) :
    gmulFrom n (a ^^^ b) k = gmulFrom n a k ^^^ gmulFrom n b k := by
  induction n generalizing a b k with
  | zero => exact (BitVec.xor_self (x := (0 : Byte))).symm
  | succ n ih =>
    simp only [gmulFrom, xtime_xor, ih]
    split
    · ac_rfl
    · ac_rfl

theorem gmul_xor (a b k : Byte) : gmul (a ^^^ b) k = gmul a k ^^^ gmul b k :=
  gmulFrom_xor 8 a b k

/-- The coefficients of a row of `InvMixColumns` times a column of `MixColumns`: 1 on the diagonal. -/
theorem mixRow_diagonal : ∀ a : Byte,
    gmul (gmul a 2) 14 ^^^ gmul a 11 ^^^ gmul a 13 ^^^ gmul (gmul a 3) 9 = a := by decide +kernel

/-- The coefficients off the diagonal: 0 in each of the three other places of a column. -/
theorem mixRow_next : ∀ a : Byte,
    gmul (gmul a 3) 14 ^^^ gmul (gmul a 2) 11 ^^^ gmul a 13 ^^^ gmul a 9 = 0 := by decide +kernel

theorem mixRow_opposite : ∀ a : Byte,
    gmul a 14 ^^^ gmul (gmul a 3) 11 ^^^ gmul (gmul a 2) 13 ^^^ gmul a 9 = 0 := by decide +kernel

theorem mixRow_previous : ∀ a : Byte,
    gmul a 14 ^^^ gmul a 11 ^^^ gmul (gmul a 3) 13 ^^^ gmul (gmul a 2) 9 = 0 := by decide +kernel

/-- One row of the product of the two matrices: of the four bytes of a column only the first is left. -/
theorem mixRow (a b c d : Byte) :
    gmul (gmul a 2 ^^^ gmul b 3 ^^^ c ^^^ d) 14 ^^^ gmul (a ^^^ gmul b 2 ^^^ gmul c 3 ^^^ d) 11
      ^^^ gmul (a ^^^ b ^^^ gmul c 2 ^^^ gmul d 3) 13
      ^^^ gmul (gmul a 3 ^^^ b ^^^ c ^^^ gmul d 2) 9 = a := by
  have regroup : gmul (gmul a 2 ^^^ gmul b 3 ^^^ c ^^^ d) 14
      ^^^ gmul (a ^^^ gmul b 2 ^^^ gmul c 3 ^^^ d) 11
      ^^^ gmul (a ^^^ b ^^^ gmul c 2 ^^^ gmul d 3) 13
      ^^^ gmul (gmul a 3 ^^^ b ^^^ c ^^^ gmul d 2) 9
    = (gmul (gmul a 2) 14 ^^^ gmul a 11 ^^^ gmul a 13 ^^^ gmul (gmul a 3) 9)
      ^^^ (gmul (gmul b 3) 14 ^^^ gmul (gmul b 2) 11 ^^^ gmul b 13 ^^^ gmul b 9)
      ^^^ (gmul c 14 ^^^ gmul (gmul c 3) 11 ^^^ gmul (gmul c 2) 13 ^^^ gmul c 9)
      ^^^ (gmul d 14 ^^^ gmul d 11 ^^^ gmul (gmul d 3) 13 ^^^ gmul (gmul d 2) 9) := by
    simp only [gmul_xor]
    ac_rfl
  rw [regroup, mixRow_diagonal, mixRow_next, mixRow_opposite, mixRow_previous]
  simp

/-- `InvMixColumns` undoes `MixColumns`, column by column; the rows are one row turned round. -/
theorem invMixColumns_mixColumns (n : Nat) {s : Bytes} (h : s.length = 4 * n) :
    invMixColumns (mixColumns s) = s := by
  induction n generalizing s with
  | zero => rw [List.length_eq_zero_iff.mp h]; rfl
  | succ n ih =>
    match s, h with
    | a :: b :: c :: d :: rest, h =>
      have columns : rest.length = 4 * n := by simp only [List.length_cons] at h; omega
      rw [mixColumns, invMixColumns, ih columns]
      congr 1
      · exact mixRow a b c d
      congr 1
      · refine Eq.trans ?_ (mixRow b c d a)
        ac_rfl
      congr 1
      · refine Eq.trans ?_ (mixRow c d a b)
        ac_rfl
      congr 1
      · refine Eq.trans ?_ (mixRow d a b c)
        ac_rfl

/-! ### The rounds (R256, R257) -/

/-- One round of decryption undoes what one round of encryption did before its key. -/
theorem invSubBytes_invShiftRows {s : Bytes} (h : s.length = 16) :
    invSubBytes (invShiftRows (shiftRows (subBytes s))) = s := by
  rw [invShiftRows_shiftRows ((subBytes_length s).trans h), invSubBytes_subBytes]

theorem invMixColumns_round {s k : Bytes} (hs : s.length = 16) (hk : k.length = 16) :
    invMixColumns (xorBytes (xorBytes (mixColumns s) k) k) = s := by
  have length : (mixColumns s).length = 16 := (mixColumns_length 4 s hs).1
  rw [xorBytes_xorBytes _ k (length.trans hk.symm), invMixColumns_mixColumns 4 hs]

theorem encRounds_cons (s k : Bytes) {ks : List Bytes} (h : ks ≠ []) :
    encRounds s (k :: ks) = encRounds (xorBytes (mixColumns (shiftRows (subBytes s))) k) ks := by
  cases ks with
  | nil => exact absurd rfl h
  | cons k' ks => rfl

theorem decRounds_cons (s k : Bytes) {ks : List Bytes} (h : ks ≠ []) :
    decRounds s (k :: ks) = decRounds (invMixColumns (xorBytes (invSubBytes (invShiftRows s)) k)) ks := by
  cases ks with
  | nil => exact absurd rfl h
  | cons k' ks => rfl

/-- Decryption with the round keys `middle` and `last` taken back to front comes to the state after the
first round's `ShiftRows`, whatever keys are still to be met. -/
theorem decRounds_encRounds (middle : List Bytes) (last s : Bytes) (earlier : List Bytes)
    (hs : s.length = 16) (hlast : last.length = 16) (hmiddle : ∀ k ∈ middle, k.length = 16)
    (hearlier : earlier ≠ []) :
    decRounds (xorBytes (encRounds s (middle ++ [last])) last) (middle.reverse ++ earlier)
      = decRounds (shiftRows (subBytes s)) earlier := by
  induction middle generalizing s earlier with
  | nil =>
    have undone := xorBytes_xorBytes (shiftRows (subBytes s)) last
      ((shiftRows_length _).trans hlast.symm)
    exact congrArg (decRounds · earlier) undone
  | cons k middle ih =>
    have hk := hmiddle k (by simp)
    have mixedLength := (mixColumns_length 4 _ (shiftRows_length (subBytes s))).1
    have roundLength := xorBytes_length_of_eq mixedLength hk
    rw [List.cons_append, encRounds_cons s k (by simp), List.reverse_cons, List.append_assoc,
      List.singleton_append, ih _ (k :: earlier) roundLength
        (fun r hr => hmiddle r (List.mem_cons_of_mem _ hr)) (by simp),
      decRounds_cons _ k hearlier, invSubBytes_invShiftRows roundLength,
      invMixColumns_round (shiftRows_length _) hk]

/-- The eleven round keys: the key, nine in the middle, and the last (R254). -/
theorem roundKeys_split (k : Bytes) : ∃ middle last, roundKeys k = k :: (middle ++ [last]) := by
  refine ⟨(roundKeysFrom k rcon).dropLast, (roundKeysFrom k rcon).getLast (by simp [rcon, roundKeysFrom]), ?_⟩
  rw [List.dropLast_append_getLast, roundKeys]

theorem blockDec_blockEnc {k x : Bytes} (hk : k.length = 16) (hx : x.length = 16) :
    blockDec k (blockEnc k x) = x := by
  obtain ⟨middle, last, split⟩ := roundKeys_split k
  have lengths : ∀ r ∈ k :: (middle ++ [last]), r.length = 16 := split ▸ roundKeys_length k hk
  have whitened := xorBytes_length_of_eq hx hk
  have reversed : (k :: (middle ++ [last])).reverse = last :: (middle.reverse ++ [k]) := by simp
  have enc : blockEnc k x = encRounds (xorBytes x k) (middle ++ [last]) := by
    rw [blockEnc, split]
  have dec (y : Bytes) : blockDec k y = decRounds (xorBytes y last) (middle.reverse ++ [k]) := by
    rw [blockDec, split, reversed]
  rw [dec, enc, decRounds_encRounds middle last _ [k] whitened (lengths last (by simp))
    (fun r hr => lengths r (by simp [hr])) (by simp), decRounds,
    invSubBytes_invShiftRows whitened, xorBytes_xorBytes x k (hx.trans hk.symm)]

/-- Settles O30. -/
theorem aesMeetsTheCipherLaw : Obligations.AesMeetsTheCipherLaw :=
  { encLength := fun k x hk hx => blockEnc_length k x hk hx
    decLength := fun k x hk hx => blockDec_length k x hk hx
    inverse := fun _ _ hk hx => blockDec_blockEnc hk hx }

end Sys2Proof.Machine

/-! The unit commands one by one (spec/42_challenge_solver.md R190 to R201, spec/40_crypto_engine.md R137 to
R145, spec/41_message_framer.md R160 to R168): from each operation's cases to the command's whole frame. -/

namespace Sys2Proof.Machine

/-! ### A unit command from its operation -/

theorem exec_unit_done {i : Instr} {op : State → OpResult} {s t : State}
    (hi : exec i s = .next (unitCommand op s)) (hb : s.busy = false)
    (h : op (clearCmdErr s) = .done t) : exec i s = .next (setUnitCause .none t) :=
  hi.trans (congrArg _ (unitCommand_done hb h))

theorem exec_unit_raised {i : Instr} {op : State → OpResult} {s t : State} {c : Cause}
    (hi : exec i s = .next (unitCommand op s)) (hb : s.busy = false)
    (h : op (clearCmdErr s) = .raised c t) (ht : t.busy = false) :
    exec i s = .next (setUnitCause c t) :=
  hi.trans (congrArg _ ((unitCommand_raised hb h).trans (raise_idle c ht)))

theorem exec_unit_lacking {i : Instr} {op : State → OpResult} {s : State}
    (hi : exec i s = .next (unitCommand op s)) (hb : s.busy = false)
    (h : op (clearCmdErr s) = .lacking) : exec i s = .next (setUnitCause .badSequence s) :=
  hi.trans (congrArg _ (unitCommand_lacking hb h))

/-! ### DECODE (R191, R201) -/

/-- Four bytes read as an operand, the first one the most significant (R60, R97). -/
theorem be32_toNat (b0 b1 b2 b3 : Byte) : (be32 [b0, b1, b2, b3]).toNat
    = b0.toNat * 2 ^ 24 + b1.toNat * 2 ^ 16 + b2.toNat * 2 ^ 8 + b3.toNat := by
  have value : fromBE [b0, b1, b2, b3]
      = b0.toNat * 2 ^ 24 + b1.toNat * 2 ^ 16 + b2.toNat * 2 ^ 8 + b3.toNat := by
    simp only [fromBE, List.foldl]
    omega
  rw [be32, BitVec.toNat_ofNat, value]
  omega

theorem decodeOp_wrong_length {s : State} (hk : s.coutKind = .plaintext) (hl : s.coutLen ≠ 9) :
    decodeOp s = .raised .badChallengeLen s := by
  rw [decodeOp, if_neg (not_not.mpr hk), if_pos hl]

theorem decodeOp_lacking_of {s : State} (h : s.coutKind ≠ .plaintext
    ∨ (s.coutLen = 9 ∧ s.readBytes .cout 0 9 = none)) : decodeOp s = .lacking := by
  by_cases plain : s.coutKind = .plaintext
  · obtain notPlain | ⟨len, unwritten⟩ := h
    · exact absurd plain notPlain
    · rw [decodeOp, if_neg (not_not.mpr plain), if_neg (not_not.mpr len), Config.chalLen, unwritten]
  · exact if_pos plain

/-- Settles O20, by what `COUT` holds. -/
theorem decodeLoadsTheChallenge : Obligations.DecodeLoadsTheChallenge := by
  unfold Obligations.DecodeLoadsTheChallenge
  refine ⟨rfl, fun s idle => ⟨?_, fun plain len => ?_, fun lacks => ?_⟩⟩
  · intro c0 c1 c2 c3 c4 c5 c6 c7 c8 plain len read
    exact ⟨_, _, be32_toNat c1 c2 c3 c4, be32_toNat c5 c6 c7 c8,
      exec_unit_done rfl idle (decodeOp_of_read (s := clearCmdErr s) plain len read)⟩
  · exact exec_unit_raised rfl idle (decodeOp_wrong_length (s := clearCmdErr s) plain len) idle
  · exact exec_unit_lacking rfl idle (decodeOp_lacking_of (s := clearCmdErr s) lacks)

/-! ### SOLVE (R198) -/

/-- Settles O21, by whether the spec gives the operation a value. -/
theorem solveEvaluatesTheRegisters : Obligations.SolveEvaluatesTheRegisters := by
  unfold Obligations.SolveEvaluatesTheRegisters
  refine ⟨rfl, fun s idle => ⟨fun op l r hop hl hr => ⟨fun n value => ?_, fun none => ?_⟩,
    fun lacks => ?_⟩⟩
  · obtain ⟨v, hv, done⟩ := evaluate_of_solverValue (clearCmdErr s) value
    have solved := (solveOp_some (s := clearCmdErr s) hop hl hr).trans done
    exact ⟨v, hv, exec_unit_done rfl idle solved⟩
  · have raised := (solveOp_some (s := clearCmdErr s) hop hl hr).trans
      (evaluate_of_no_solverValue (clearCmdErr s) none)
    exact exec_unit_raised rfl idle raised idle
  · exact exec_unit_lacking rfl idle (solveOp_lacking (s := clearCmdErr s) lacks)

/-! ### ENCODE (R113, R199) -/

/-- Byte `i` of a big-endian string of `k` bytes (R11). -/
theorem toBE_getElem? (k v i : Nat) (hi : i < k) :
    (toBE k v)[i]? = some (BitVec.ofNat 8 (v / 256 ^ (k - 1 - i))) := by
  induction k generalizing i with
  | zero => cases hi
  | succ k ih =>
    cases i with
    | zero => rfl
    | succ i =>
      rw [toBE, List.getElem?_cons_succ, ih i (by omega)]
      congr 4
      omega

theorem encodeOp_lacking_of {s : State} (h : s.resultValid = false ∨ s.result = none) :
    encodeOp s = .lacking := by
  rcases h with invalid | none
  · simp [encodeOp, invalid]
  · simp [encodeOp, none]

/-- Settles O22. -/
theorem encodeWritesTheResultBytes : Obligations.EncodeWritesTheResultBytes := by
  unfold Obligations.EncodeWritesTheResultBytes
  refine ⟨rfl, fun s idle => ⟨fun v valid result => ?_, fun lacks => ?_⟩⟩
  · have byte (i : Nat) (hi : i < 8) :
        (toBE64 v)[i]? = some (BitVec.ofNat 8 (v.toNat / 2 ^ (8 * (7 - i)))) := by
      rw [toBE64, toBE_getElem? 8 v.toNat i hi, show 256 = 2 ^ 8 by rfl, ← pow_mul]
    exact ⟨toBE64 v, _, toBE64_length v, byte, s.writeBytes_stored .cin 0 (toBE64 v),
      exec_unit_done rfl idle (encodeOp_of_result (s := clearCmdErr s) valid result)⟩
  · exact exec_unit_lacking rfl idle (encodeOp_lacking_of (s := clearCmdErr s) lacks)

/-! ### Two arrays written one after the other -/

/-- Two arrays written from their first index on hold both strings, and nothing else changes. -/
theorem storedBoth_writeBytes (s : State) {sp sp' : Space} {bs bs' : Bytes} (hne : sp ≠ sp')
    (hb : bs.length ≤ sp.size) (hb' : bs'.length ≤ sp'.size) :
    StoredBoth sp bs sp' bs' s.mem
      ((s.mem.writeRange (sp.addr 0) bs).writeRange (sp'.addr 0) bs') := by
  have size' := sp'.size_le
  have first := s.readBytes_writeBytes_same sp 0 bs (by omega)
  rw [← State.readBytes_writeBytes_other _ 0 bs' 0 _ hne (by omega)] at first
  obtain ⟨second, kept'⟩ := (s.writeBytes sp 0 bs).writeBytes_stored sp' 0 bs'
  obtain ⟨_, kept⟩ := s.writeBytes_stored sp 0 bs
  exact ⟨(State.readBytes_some first).2, second, fun a outside outside' =>
    (kept' a outside').trans (kept a outside)⟩

/-! ### ENCRYPT (R137, R145) -/

theorem encryptOp_too_long {s : State} {n : BitVec 8} (hn : s.cinLen = some n)
    (h : 96 < n.toNat) : encryptOp s = .raised .encryptFail (encryptFailed s) := by
  have tooLong : Config.ptMax < n.toNat := h
  simp only [encryptOp, encryptWith, hn, tooLong, ↓reduceIte]

theorem encryptOp_lacking_of {s : State} (h : s.cinLen = none ∨ ∃ n, s.cinLen = some n
    ∧ n.toNat ≤ 96 ∧ (s.readBytes .cin 0 n.toNat = none ∨ s.keyBytes = none)) :
    encryptOp s = .lacking := by
  rcases h with none | ⟨n, hn, le, none⟩
  · simp only [encryptOp, encryptWith, none]
  · have fits : ¬Config.ptMax < n.toNat := Nat.not_lt.mpr le
    simp only [encryptOp, encryptWith, hn, fits, ↓reduceIte]
    split
    · rename_i p k hp hk
      rw [hp, hk] at none
      rcases none with none | none <;> cases none
    · rfl

/-- An accepted ENCRYPT as a command, field by field. -/
theorem encryptCommand_eq (iv ct : Bytes) (s : State) :
    setUnitCause .none (putCiphertext iv ct (clearCmdErr s)) = { s with
      mem := (s.mem.writeRange (Space.ivTx.addr 0) iv).writeRange (Space.cout.addr 0) ct,
      ivTxValid := true, coutLen := BitVec.ofNat 8 ct.length, coutKind := .ciphertext, draws := s.draws + 1,
      cmdErr := false, unitCause := .none } := by
  simp only [setUnitCause, putCiphertext, State.writeBytes, clearCmdErr]

/-- A failed ENCRYPT as a command, field by field. -/
theorem encryptFailedCommand_eq (s : State) :
    setUnitCause .encryptFail (encryptFailed (clearCmdErr s)) = { s with
      ivTxValid := false, coutLen := 0, coutKind := .none, cmdErr := false,
      unitCause := .encryptFail } := by
  simp only [setUnitCause, encryptFailed, dropOutput, clearCmdErr]

/-- Settles O23, by the length in `CIN_LEN`. -/
theorem encryptWritesCiphertextAndItsIv : Obligations.EncryptWritesCiphertextAndItsIv := by
  unfold Obligations.EncryptWritesCiphertextAndItsIv
  refine ⟨rfl, fun s idle => ⟨fun n p k hn le hp hk => ?_, fun n hn lt => ?_, fun lacks => ?_⟩⟩
  · have length := ciphertext_length (p := p) (State.readBytes_length hk) (nextDraw_length s)
    rw [State.readBytes_length hp] at length
    have stored := storedBoth_writeBytes s (sp := .ivTx) (sp' := .cout) (bs := s.nextDraw)
      (bs' := cbcEnc blockEnc k s.nextDraw (pad p)) (by decide)
      (by rw [nextDraw_length]; decide) (by simp only [Space.size]; omega)
    have ran := exec_unit_done (i := .encrypt) rfl idle
      (encryptWith_of_read (iv := s.nextDraw) (s := clearCmdErr s) hn le hp hk)
    rw [encryptCommand_eq] at ran
    exact ⟨s.nextDraw, _, _, rfl, rfl, length, stored, ran⟩
  · rw [← encryptFailedCommand_eq]
    exact exec_unit_raised rfl idle (encryptOp_too_long (s := clearCmdErr s) hn lt) idle
  · exact exec_unit_lacking rfl idle (encryptOp_lacking_of (s := clearCmdErr s) lacks)

/-! ### DECRYPT (R138, R143) -/

theorem decryptOp_fails_of {s : State} (h : s.ivRxValid = false ∨ ∃ n, s.cinLen = some n
    ∧ (n.toNat = 0 ∨ n.toNat % 16 ≠ 0 ∨ 128 < n.toNat)) :
    decryptOp s = .raised .decryptFail (decryptFailed s) := by
  cases valid : s.ivRxValid with
  | false => simp [decryptOp, valid]
  | true =>
    obtain invalid | ⟨n, hn, wrong⟩ := h
    · rw [valid] at invalid; cases invalid
    · have refusedLength : validCtLen n.toNat = false := by
        rw [← Bool.not_eq_true, validCtLen_iff]; omega
      simp [decryptOp, valid, hn, refusedLength]

theorem decryptOp_lacking_of {s : State} (valid : s.ivRxValid = true)
    (h : s.cinLen = none ∨ ∃ n, s.cinLen = some n ∧ validCtLen n.toNat = true
      ∧ (s.readBytes .cin 0 n.toNat = none ∨ s.keyBytes = none
        ∨ s.readBytes .ivRx 0 16 = none)) : decryptOp s = .lacking := by
  rcases h with none | ⟨n, hn, accepted, none⟩
  · simp only [decryptOp, valid, none, ↓reduceIte]
  · simp only [decryptOp, valid, hn, accepted, ↓reduceIte]
    split
    · rename_i c k iv hc hk hiv
      have hiv : s.readBytes .ivRx 0 16 = some iv := hiv
      rw [hc, hk, hiv] at none
      rcases none with none | none | none <;> cases none
    · rfl

/-- An accepted DECRYPT as a command, field by field. -/
theorem decryptCommand_eq (u : Bytes) (s : State) :
    setUnitCause .none (putPlaintext u (clearCmdErr s)) = { s with
      mem := (s.writeBytes .cout 0 u).mem, ivRxValid := false,
      coutLen := BitVec.ofNat 8 u.length, coutKind := .plaintext, cmdErr := false,
      unitCause := .none } := by
  simp only [setUnitCause, putPlaintext, State.writeBytes, clearCmdErr]

/-- A failed DECRYPT as a command, field by field. -/
theorem decryptFailedCommand_eq (s : State) :
    setUnitCause .decryptFail (decryptFailed (clearCmdErr s)) = { s with
      ivRxValid := false, coutLen := 0, coutKind := .none, cmdErr := false,
      unitCause := .decryptFail } := by
  simp only [setUnitCause, decryptFailed, dropOutput, clearCmdErr]

/-- Settles O24, by what `Unpad` makes of the decrypted message. -/
theorem decryptWritesPlaintextOrFails : Obligations.DecryptWritesPlaintextOrFails := by
  unfold Obligations.DecryptWritesPlaintextOrFails
  refine ⟨rfl, fun s idle => ⟨?_, fun fails => ?_, fun valid lacks => ?_⟩⟩
  · intro n c k iv valid hn whole positive atMost hc hk hiv
    have accepted : validCtLen n.toNat = true := (validCtLen_iff _).mpr ⟨positive, whole, atMost⟩
    have length := State.readBytes_length hc
    have decrypted : cbcDecrypt blockDec c k iv = (unpad (cbcDec blockDec k iv c)).getD [] :=
      if_pos (by rw [length]; exact accepted)
    have ran := decryptOp_of_read (s := clearCmdErr s) valid hn accepted hc hk hiv
    rw [decrypted] at ran
    refine ⟨fun u hu nonempty => ?_, fun empty => ?_⟩
    · have done : decryptOp (clearCmdErr s) = .done (putPlaintext u (clearCmdErr s)) := by
        rw [ran, hu, Option.getD_some, if_neg (mt List.length_eq_zero_iff.mp nonempty)]
      have command := exec_unit_done (i := .decrypt) rfl idle done
      rw [decryptCommand_eq] at command
      exact ⟨_, s.writeBytes_stored .cout 0 u, command⟩
    · have raised : decryptOp (clearCmdErr s)
          = .raised .decryptFail (decryptFailed (clearCmdErr s)) := by
        rcases empty with invalid | empty
        · rw [ran, invalid]; rfl
        · rw [ran, empty]; rfl
      rw [← decryptFailedCommand_eq]
      exact exec_unit_raised rfl idle raised idle
  · rw [← decryptFailedCommand_eq]
    exact exec_unit_raised rfl idle (decryptOp_fails_of (s := clearCmdErr s) fails) idle
  · refine exec_unit_lacking rfl idle (decryptOp_lacking_of (s := clearCmdErr s) valid ?_)
    rcases lacks with none | ⟨n, hn, whole, positive, atMost, none⟩
    · exact .inl none
    · exact .inr ⟨n, hn, (validCtLen_iff _).mpr ⟨positive, whole, atMost⟩, none⟩

/-! ### BUILD_REQ and BUILD_RESP (R162, R163) -/

theorem buildReqOp_lacking_of {s : State} (h : s.userField = none) : buildReqOp s = .lacking := by
  simp only [buildReqOp, h]

/-- Settles O32, by whether the name that is read is written. -/
theorem buildReqWritesTheRequestFrame : Obligations.BuildReqWritesTheRequestFrame := by
  unfold Obligations.BuildReqWritesTheRequestFrame
  refine ⟨rfl, fun s idle => ⟨fun n u hn hu => ?_, fun lacks => ?_⟩⟩
  · have built := buildReqOp_of_name (s := clearCmdErr s) (State.userField_of_read hn hu)
    rw [List.append_assoc]
    exact ⟨_, s.writeBytes_stored .txbuf 0 _, exec_unit_done rfl idle built⟩
  · rw [← State.userField_eq_none_iff] at lacks
    exact exec_unit_lacking rfl idle (buildReqOp_lacking_of (s := clearCmdErr s) lacks)

theorem buildRespOp_lacking_of {s : State} (h : s.ivTxValid = false ∨ s.coutKind ≠ .ciphertext
    ∨ s.userField = none ∨ s.readBytes .ivTx 0 16 = none
    ∨ s.readBytes .cout 0 s.coutLen.toNat = none) : buildRespOp s = .lacking := by
  unfold buildRespOp
  split
  · rfl
  · rename_i interlocks
    rw [not_or, not_not] at interlocks
    obtain ⟨valid, kind⟩ := interlocks
    split
    · rename_i u iv ct hu hiv hct
      have hiv : s.readBytes .ivTx 0 16 = some iv := hiv
      rw [hu, hiv, hct] at h
      rcases h with invalid | notCipher | none | none | none
      · exact absurd invalid valid
      · exact absurd kind notCipher
      all_goals cases none
    · rfl

/-- The length field of a ciphertext that fits `COUT` (R98, R163). -/
theorem toBE32_setWidth (n : BitVec 8) : toBE32 (n.setWidth 32) = [0, 0, 0, n] := by
  have low : (n.setWidth 32).toNat = n.toNat := BitVec.toNat_setWidth_of_le (by decide)
  have small := n.isLt
  rw [toBE32, low]
  simp only [toBE]
  rw [Nat.div_eq_of_lt (by omega), Nat.div_eq_of_lt (by omega), Nat.div_eq_of_lt (by omega),
    pow_zero, Nat.div_one, BitVec.ofNat_toNat, BitVec.setWidth_eq]
  rfl

/-- Settles O33, by whether the interlocks are set and the fields written. -/
theorem buildRespWritesTheResponseFrame : Obligations.BuildRespWritesTheResponseFrame := by
  unfold Obligations.BuildRespWritesTheResponseFrame
  refine ⟨rfl, fun s idle => ⟨?_, fun lacks => ?_⟩⟩
  · intro n u iv ct valid kind hn hu hiv hct
    have built := buildRespOp_of_read (s := clearCmdErr s) valid kind (State.userField_of_read hn hu)
      hiv hct
    have stored := s.writeBytes_stored .txbuf 0 (longFrameBytes code115
      (u ++ List.replicate (16 - u.length) 0) iv (s.coutLen.setWidth 32) (responsePayload ct))
    refine ⟨_, ?_, exec_unit_done rfl idle built⟩
    have frame : longFrameBytes code115 (u ++ List.replicate (16 - u.length) 0) iv
          (s.coutLen.setWidth 32) (responsePayload ct)
        = [0x31, 0x31, 0x35] ++ (u ++ List.replicate (16 - u.length) 0) ++ iv ++ [0, 0, 0, s.coutLen]
          ++ ct ++ List.replicate (128 - s.coutLen.toNat) 0 := by
      rw [longFrameBytes, toBE32_setWidth, responsePayload, State.readBytes_length hct,
        ← List.append_assoc]
      rfl
    rw [← frame]
    exact stored
  · refine exec_unit_lacking rfl idle (buildRespOp_lacking_of (s := clearCmdErr s) ?_)
    rw [← or_assoc (a := s.unameSrcLen = none), ← State.userField_eq_none_iff] at lacks
    exact lacks

end Sys2Proof.Machine

/-! The framer's parsing commands, and the frames as instructions of their own (spec/41_message_framer.md
R160 to R170; spec/60_exceptions.md R271 to R278). -/

namespace Sys2Proof.Machine

/-! ### PARSE_CHAL (R165 to R167) -/

theorem parseChalOp_raises {s : State} {code : Bytes} {c : Cause}
    (hcode : s.readBytes .rxbuf 0 3 = some code) (hc : classifyCode .challenge code = .raises c) :
    parseChalOp s = .raised c s := by
  have hcode : s.rxCode = some code := hcode
  simp only [parseChalOp, hcode, hc]

/-- With code `"110"` the length decides first, read from all four bytes. -/
theorem parseChalOp_bad_length {s : State} {len : Bytes}
    (hcode : s.readBytes .rxbuf 0 3 = some code110) (hlen : s.readBytes .rxbuf 35 4 = some len)
    (h : 96 < (be32 len).toNat) : parseChalOp s = .raised .badLength s := by
  have hcode : s.rxCode = some code110 := hcode
  have hlen : s.readBytes .rxbuf 35 Config.lenField = some len := hlen
  have tooLong : Config.ptMax < (be32 len).toNat := h
  have proceeds : classifyCode .challenge code110 = .proceed := by decide
  simp only [parseChalOp, hcode, proceeds, hlen, tooLong, ↓reduceIte]

theorem parseChalOp_of_read {s : State} {len iv ct : Bytes}
    (hcode : s.readBytes .rxbuf 0 3 = some code110) (hlen : s.readBytes .rxbuf 35 4 = some len)
    (h : (be32 len).toNat ≤ 96) (hiv : s.readBytes .rxbuf 19 16 = some iv)
    (hct : s.readBytes .rxbuf 39 (be32 len).toNat = some ct) :
    parseChalOp s = .done (extractChallenge iv ct s) := by
  have hcode : s.rxCode = some code110 := hcode
  have hlen : s.readBytes .rxbuf 35 Config.lenField = some len := hlen
  have hiv : s.readBytes .rxbuf 19 Config.ivLen = some iv := hiv
  have fits : ¬Config.ptMax < (be32 len).toNat := Nat.not_lt.mpr h
  have proceeds : classifyCode .challenge code110 = .proceed := by decide
  simp only [parseChalOp, hcode, proceeds, hlen, fits, hiv, hct, acceptChallenge, ↓reduceIte]
  rw [List.take_of_length_le (Nat.le_of_eq (State.readBytes_length hct))]

theorem parseChalOp_lacking_of {s : State} (h : s.readBytes .rxbuf 0 3 = none
    ∨ (s.readBytes .rxbuf 0 3 = some code110 ∧ (s.readBytes .rxbuf 35 4 = none
      ∨ ∃ len, s.readBytes .rxbuf 35 4 = some len ∧ (be32 len).toNat ≤ 96
        ∧ (s.readBytes .rxbuf 19 16 = none ∨ s.readBytes .rxbuf 39 (be32 len).toNat = none)))) :
    parseChalOp s = .lacking := by
  rcases h with noCode | ⟨hcode, rest⟩
  · have noCode : s.rxCode = none := noCode
    simp only [parseChalOp, noCode]
  · have hcode : s.rxCode = some code110 := hcode
    have proceeds : classifyCode .challenge code110 = .proceed := by decide
    rcases rest with noLength | ⟨len, hlen, h, unwritten⟩
    · have noLength : s.readBytes .rxbuf 35 Config.lenField = none := noLength
      simp only [parseChalOp, hcode, proceeds, noLength]
    · have hlen : s.readBytes .rxbuf 35 Config.lenField = some len := hlen
      have fits : ¬Config.ptMax < (be32 len).toNat := Nat.not_lt.mpr h
      simp only [parseChalOp, hcode, proceeds, hlen, fits, ↓reduceIte]
      split
      · rename_i iv ct hiv hct
        have hiv : s.readBytes .rxbuf 19 16 = some iv := hiv
        rw [hiv, hct] at unwritten
        rcases unwritten with e | e <;> cases e
      · rfl

/-- An accepted Challenge frame, field by field. -/
theorem extractChallenge_eq (iv ct : Bytes) (s : State) : extractChallenge iv ct s = { s with
    mem := (s.mem.writeRange (Space.ivRx.addr 0) iv).writeRange (Space.cin.addr 0) ct,
    ivRxValid := true, cinLen := some (BitVec.ofNat 8 ct.length) } := by
  simp only [extractChallenge, State.writeBytes]

theorem extractCommand_eq (iv ct : Bytes) (s : State) :
    setUnitCause .none (extractChallenge iv ct (clearCmdErr s)) = { s with
      mem := (s.mem.writeRange (Space.ivRx.addr 0) iv).writeRange (Space.cin.addr 0) ct,
      ivRxValid := true, cinLen := some (BitVec.ofNat 8 ct.length), cmdErr := false,
      unitCause := .none } := by
  simp only [setUnitCause, extractChallenge, State.writeBytes, clearCmdErr]

/-- The IV and the ciphertext of a Challenge frame stand in `IV_RX` and `CIN` (R167). -/
theorem extractChallenge_stored {iv ct : Bytes} (s : State) (hiv : iv.length = 16)
    (hct : ct.length ≤ 96) : StoredBoth .ivRx iv .cin ct s.mem
      ((s.mem.writeRange (Space.ivRx.addr 0) iv).writeRange (Space.cin.addr 0) ct) :=
  storedBoth_writeBytes s (by decide) (by rw [hiv]; decide) (by simp only [Space.size]; omega)

/-- Settles O34, in the order of the tests: the code, the length, then the bytes. -/
theorem parseChalChecksThenExtracts : Obligations.ParseChalChecksThenExtracts := by
  unfold Obligations.ParseChalChecksThenExtracts
  refine ⟨rfl, fun s idle => ⟨fun read => ?_, fun c read not305 not110 => ?_,
    fun n0 n1 n2 n3 read len => ⟨fun long => ?_, ?_⟩, fun lacks => ?_⟩⟩
  · exact exec_unit_raised rfl idle (parseChalOp_raises (s := clearCmdErr s) read rfl) idle
  · have unexpected : classifyCode .challenge c = .raises .unexpectedCode :=
      (if_neg not305).trans (if_neg not110)
    exact exec_unit_raised rfl idle (parseChalOp_raises (s := clearCmdErr s) read unexpected) idle
  · rw [← be32_toNat] at long
    exact exec_unit_raised rfl idle (parseChalOp_bad_length (s := clearCmdErr s) read len long) idle
  · rintro iv ct rfl rfl rfl le hiv hct
    have value : (be32 [0, 0, 0, n3]).toNat = n3.toNat := by rw [be32_toNat]; simp
    have ctLength := State.readBytes_length hct
    rw [← value] at hct
    have ran := exec_unit_done (i := .parseChal) rfl idle (parseChalOp_of_read (s := clearCmdErr s)
      read len (by omega) hiv hct)
    rw [extractCommand_eq, ctLength, BitVec.ofNat_toNat, BitVec.setWidth_eq] at ran
    exact ⟨_, extractChallenge_stored s (State.readBytes_length hiv) (by omega), ran⟩
  · refine exec_unit_lacking rfl idle (parseChalOp_lacking_of (s := clearCmdErr s) ?_)
    rcases lacks with noCode | ⟨code, noLength | ⟨n3, len, le, unwritten⟩⟩
    · exact .inl noCode
    · exact .inr ⟨code, .inl noLength⟩
    · have value : (be32 [0, 0, 0, n3]).toNat = n3.toNat := by rw [be32_toNat]; simp
      exact .inr ⟨code, .inr ⟨_, len, by omega, value.symm ▸ unwritten⟩⟩

/-! ### PARSE_STAT (R164, R168) -/

theorem parseStatOp_raises {s : State} {code : Bytes} {c : Cause}
    (h : s.readBytes .rxbuf 0 3 = some code) (hc : classifyCode .status code = .raises c) :
    parseStatOp s = .raised c (putVerdict .none s) := by
  have h : s.rxCode = some code := h
  simp only [parseStatOp, h, hc]

theorem parseStatOp_success {s : State} (h : s.readBytes .rxbuf 0 3 = some code205) :
    parseStatOp s = .done (putVerdict .success s) := by
  have h : s.rxCode = some code205 := h
  have verdict : classifyCode .status code205 = .success := by decide
  simp only [parseStatOp, h, verdict]

theorem parseStatOp_failure {s : State} (h : s.readBytes .rxbuf 0 3 = some code210) :
    parseStatOp s = .done (putVerdict .failure s) := by
  have h : s.rxCode = some code210 := h
  have verdict : classifyCode .status code210 = .failure := by decide
  simp only [parseStatOp, h, verdict]

theorem parseStatOp_lacking_of {s : State} (h : s.readBytes .rxbuf 0 3 = none) :
    parseStatOp s = .lacking := by
  have h : s.rxCode = none := h
  simp only [parseStatOp, h]

/-- Settles O35, by the code: `"305"`, the two verdicts, any other. -/
theorem parseStatGivesTheVerdict : Obligations.ParseStatGivesTheVerdict := by
  unfold Obligations.ParseStatGivesTheVerdict
  refine ⟨rfl, fun s idle => ⟨fun c read => ?_, fun unwritten => ?_⟩⟩
  · by_cases is305 : c = [0x33, 0x30, 0x35]
    · subst is305
      exact exec_unit_raised rfl idle (parseStatOp_raises (s := clearCmdErr s) read rfl) idle
    by_cases is205 : c = [0x32, 0x30, 0x35]
    · subst is205
      exact exec_unit_done rfl idle (parseStatOp_success (s := clearCmdErr s) read)
    by_cases is210 : c = [0x32, 0x31, 0x30]
    · subst is210
      exact exec_unit_done rfl idle (parseStatOp_failure (s := clearCmdErr s) read)
    have other : classifyCode .status c = .raises .unexpectedStatus :=
      (if_neg is305).trans ((if_neg is205).trans (if_neg is210))
    rw [if_neg is205, if_neg is210, if_neg is305, if_neg (not_or.mpr ⟨is205, is210⟩)]
    exact exec_unit_raised rfl idle (parseStatOp_raises (s := clearCmdErr s) read other) idle
  · exact exec_unit_lacking rfl idle (parseStatOp_lacking_of (s := clearCmdErr s) unwritten)

/-! ### The frames as instructions -/

/-- Settles O36: a frame the client builds is stored whole at the start of `TXBUF`. -/
theorem builtFramesStandInTxbuf : Obligations.BuiltFramesStandInTxbuf := by
  unfold Obligations.BuiltFramesStandInTxbuf
  intro u s _
  exact ⟨⟨_, s.writeBytes_stored .txbuf 0 (shortFrameBytes code105 u), rfl⟩, fun iv p n _ _ =>
    ⟨_, s.writeBytes_stored .txbuf 0 (longFrameBytes code115 u iv n p), rfl⟩⟩

theorem exec_challenge110 (u iv p : Bytes) (n : BitVec 32) (s : State) :
    exec (.challenge110 u iv n p) s = outcomeOf (acceptChallenge iv n p s) := rfl

/-- Settles O37, by the length field. -/
theorem challengeFrameIsCheckedThenExtracted : Obligations.ChallengeFrameIsCheckedThenExtracted := by
  unfold Obligations.ChallengeFrameIsCheckedThenExtracted
  intro u iv p n s hiv hp
  rcases acceptChallenge_cases iv n p s with ⟨long, e⟩ | ⟨fits, e⟩
  · refine ⟨fun fits => by omega, fun _ => ?_⟩
    rw [exec_challenge110, e, outcomeOf, raise_eq_raisedState]
  · have length : (p.take n.toNat).length = n.toNat := by rw [List.length_take]; omega
    refine ⟨fun _ => ⟨_, extractChallenge_stored s hiv (by omega), ?_⟩, fun long => by omega⟩
    rw [exec_challenge110, e, outcomeOf, extractChallenge_eq, length]

/-- Settles O38: the code alone picks the row, and the row's rule reads no other field. -/
theorem statusAndErrorFramesHaveOneEffect : Obligations.StatusAndErrorFramesHaveOneEffect := by
  unfold Obligations.StatusAndErrorFramesHaveOneEffect
  intro c u iv p n s
  exact ⟨rfl, rfl, rfl, rfl, rfl, rfl⟩

/-! ### Raising and resetting -/

/-- Settles O39. -/
theorem raisingInASessionEntersError : Obligations.RaisingInASessionEntersError := by
  unfold Obligations.RaisingInASessionEntersError
  exact ⟨fun c s busy => raise_busy c busy, rfl, rfl, rfl, rfl, rfl, rfl, rfl, rfl, rfl, rfl, rfl⟩

theorem exec_reset (s : State) :
    exec .reset s = .next (if s.busy then refuseCommand s else hardReset s) := rfl

/-- Settles O6: the reset input and an idle RESET both leave `hardReset`, a busy RESET a refusal. -/
theorem resetClearsTheEngineOnly : Obligations.ResetClearsTheEngineOnly := by
  unfold Obligations.ResetClearsTheEngineOnly
  refine ⟨rfl, fun s => ⟨fun ts turn => ?_, fun idle => ?_, fun busy => ?_⟩⟩
  · have moved : step s = .next (hardReset s.nextTurn) := by
      unfold step
      rw [turn]
    have next : s.nextTurn.turns = ts := by rw [nextTurn_turns, turn, List.tail_cons]
    rw [moved, hardReset, next]
    rfl
  · rw [exec_reset, if_neg (Bool.eq_false_iff.mp idle), hardReset]
  · rw [exec_reset, if_pos busy, refuseCommand]

/-! ### The compute step on a decoded challenge (R217) -/

theorem computeStep_of_read {s : State} {c : Bytes} (hk : s.coutKind = .plaintext)
    (hl : s.coutLen = 9) (hc : s.readBytes .cout 0 9 = some c) :
    computeStep s = runChallengeWord
      (challengeInstr (c.headD 0) (be32 (slice c 1 4)) (be32 (slice c 5 4)))
      (loadChallenge c s) := by
  simp only [computeStep, decodeOp_of_read hk hl hc]
  rfl

theorem runChallengeWord_of_done {op : Byte} {l r : Operand} {s t : State}
    (h : evaluate op l r s = .done t) (hv : t.resultValid = true) :
    runChallengeWord (challengeInstr op l r) s = afterSolve t := by
  simp only [runChallengeWord, exec_challengeInstr, h, outcomeOf, hv, ↓reduceIte]

theorem runChallengeWord_of_raised {op : Byte} {l r : Operand} {s : State} {c : Cause}
    (h : evaluate op l r s = .raised c (dropResult s)) (hb : s.busy = true) :
    runChallengeWord (challengeInstr op l r) s = .next (enterError c (dropResult s)) := by
  have inSession : (dropResult s).busy = true := hb
  simp only [runChallengeWord, exec_challengeInstr, h, outcomeOf, raise_busy c inSession,
    enterError_resultValid, dropResult_resultValid, Bool.false_eq_true, ↓reduceIte]

/-- On the engine's turn a session that is about to compute takes the compute step. -/
theorem step_computes {s : State} {ts : List Turn} (turn : s.turns = .engine :: ts)
    (ha : s.txActive = false) (here : s.pstate = .challengeReceived) : step s = computeStep s.nextTurn := by
  have notReceiving : s.nextTurn.rxEnabled = false := by
    rw [← Bool.not_eq_true, rxEnabled_iff, nextTurn_pstate, here]
    rintro ⟨_, _, e | e, _⟩ <;> cases e
  have computing : s.nextTurn.computeEnabled = true := by
    rw [State.computeEnabled, nextTurn_pstate, nextTurn_txActive, here, ha]
    rfl
  have notSending : s.nextTurn.txActive = false := ha
  rw [step_of_engine_turn turn, engineStep, notSending, notReceiving, computing]
  rfl

/-- Settles O52: the value is the one the solver leaves, and T3 goes through to the Response. -/
theorem computeStepBuildsTheResponse : Obligations.ComputeStepBuildsTheResponse := by
  unfold Obligations.ComputeStepBuildsTheResponse
  intro s ts c k u n h turn busy notSending here len read hk hu value
  have plain := (h.running_at busy).computing_plaintext here notSending
  have keyLength := State.readBytes_length hk
  obtain ⟨v, hv, solved⟩ := evaluate_of_solverValue (loadChallenge c s.nextTurn) value
  have frame := (loadChallenge_frame c s.nextTurn).trans (putResult_frame v _)
  have built := afterSolve_of_result (s := putResult v (loadChallenge c s.nextTurn)) rfl rfl
    (frame.owner.keyBytes.trans hk) (frame.owner.userField.trans hu)
  have moved : step s = .next (responseBuilt k u v (putResult v (loadChallenge c s.nextTurn))) := by
    rw [step_computes turn notSending here, computeStep_of_read (s := s.nextTurn) plain len read,
      runChallengeWord_of_done solved rfl, built]
  have sent := responseBuilt_readBytes v (putResult v (loadChallenge c s.nextTurn)) keyLength
    (userField_some hu)
  have payload : responsePayload (resultCiphertext k v (putResult v (loadChallenge c s.nextTurn)))
      = cbcEnc blockEnc k s.nextDraw (pad (toBE64 v)) ++ List.replicate 112 0 := by
    rw [responsePayload, resultCiphertext_length v _ keyLength]
    rfl
  rw [payload] at sent
  refine ⟨_, v, s.nextDraw, moved, hv, rfl, sent, ?_⟩
  simp [responseBuilt, encryptedResult, busy, here, turn]

/-- Settles O53: without a plaintext of nine bytes or a value the compute step is the entry to `Error`. -/
theorem noResponseAfterASolverFailure : Obligations.NoResponseAfterASolverFailure := by
  unfold Obligations.NoResponseAfterASolverFailure
  intro s ts c h turn busy notSending here failure
  have plain := (h.running_at busy).computing_plaintext here notSending
  have moved := step_computes turn notSending here
  by_cases len : s.coutLen = 9
  · obtain wrong | ⟨read, value⟩ := failure
    · exact absurd len wrong
    · have raised := evaluate_of_no_solverValue (loadChallenge c s.nextTurn) value
      rw [computeStep_of_read (s := s.nextTurn) plain len read, runChallengeWord_of_raised raised busy] at moved
      exact ⟨_, moved, rfl, rfl, rfl, (if_neg (not_not.mpr len)).symm, rfl, rfl, rfl, rfl, rfl, rfl⟩
  · have raised := decodeOp_wrong_length (s := s.nextTurn) plain len
    simp only [computeStep, raised] at moved
    exact ⟨_, moved, rfl, rfl, rfl, (if_pos len).symm, rfl, rfl, rfl, rfl, rfl, rfl⟩

end Sys2Proof.Machine

/-! The host's accesses (spec/10_state.md R27 to R45): writes while a session runs and while idle, and what a
read returns. -/

namespace Sys2Proof.Machine

/-! ### Writes while a session runs (R45) -/

/-- While busy no command is accepted, whatever its code is (R45, R112). -/
theorem exec_commandInstr_busy {s : State} (hb : s.busy = true) (b : Byte) :
    exec (commandInstr b) s = .next (refuseCommand s) := by
  rcases exec_commandInstr_cases b s with e | ⟨_, idle, _⟩ | ⟨u, accepted, _⟩ | ⟨op, _, e⟩
  · exact e
  · rw [hb] at idle; cases idle
  · obtain ⟨idle, _⟩ := startAccepted_some accepted
    rw [hb] at idle; cases idle
  · rw [e, unitCommand_busy hb]

theorem hostAccess_command (v : BitVec 64) (s : State) :
    hostAccess (.write .cmd v) s = exec (commandInstr (v.setWidth 8)) s := rfl

theorem hostAccess_write {r : HostReg} (hr : r ≠ .cmd) (v : BitVec 64) (s : State) :
    hostAccess (.write r v) s = .next (hostWrite r v s) := by
  cases r <;> first | rfl | exact absurd rfl hr

theorem hostAccess_writeBytes (sp : Space) (off : Nat) (data : Bytes) (s : State) :
    hostAccess (.writeBytes sp off data) s = hostWriteBytes sp off data s := rfl

theorem hostAccess_read (r : HostReg) (s : State) :
    hostAccess (.read r) s = .next { s with lastRead := some (readReg s r) } := rfl

theorem hostAccess_readBytes (sp : Space) (off n : Nat) (s : State) :
    hostAccess (.readBytes sp off n) s
      = .next { s with lastRead := some (readArray s sp off n) } := rfl

/-- Settles O43: a write is refused before its register or index is looked at. -/
theorem hostCannotDisturbASession : Obligations.HostCannotDisturbASession := by
  unfold Obligations.HostCannotDisturbASession
  refine fun s => ⟨fun busy => ⟨fun r v => ?_, fun sp off data => ?_⟩,
    fun r => ⟨_, hostAccess_read r s⟩, fun sp off n => ⟨_, hostAccess_readBytes sp off n s⟩⟩
  · by_cases command : r = .cmd
    · rw [command, hostAccess_command, exec_commandInstr_busy busy, refuseCommand]
    · rw [hostAccess_write command, hostWrite, if_pos busy, refuseCommand]
  · rw [hostAccess_writeBytes, hostWriteBytes, if_pos busy, refuseCommand]

/-! ### Writes while idle (R34, R37, R40) -/

theorem hostAccess_write_idle {s : State} (hb : s.busy = false) {r : HostReg} (hr : r ≠ .cmd)
    (v : BitVec 64) : hostAccess (.write r v) s = .next (putReg r v s) := by
  rw [hostAccess_write hr, hostWrite, if_neg (Bool.eq_false_iff.mp hb)]

/-- The registers that the host only reads are not changed (R40). -/
theorem putReg_readOnly {r : HostReg} (hc : r ≠ .cinLen) (hu : r ≠ .unameSrcLen) (ho : r ≠ .op)
    (hl : r ≠ .left) (hr : r ≠ .right) (v : BitVec 64) (s : State) : putReg r v s = s := by
  cases r <;> first | rfl | contradiction

theorem hostWritable_of_ne {sp : Space} (hiv : sp ≠ .ivTx) (hc : sp ≠ .cout) (ht : sp ≠ .txbuf) :
    sp.hostWritable = true := by
  cases sp <;> first | rfl | contradiction

/-- Settles O44, register by register and array by array. -/
theorem hostWritesReachTheirRegister : Obligations.HostWritesReachTheirRegister := by
  unfold Obligations.HostWritesReachTheirRegister
  intro s v idle
  have write {r : HostReg} (hr : r ≠ .cmd) := hostAccess_write_idle idle hr v
  have nameWrite := write (r := .unameSrcLen) (by decide)
  refine ⟨write (by decide), fun inRange => ?_, fun _ => ?_, write (by decide), write (by decide),
    write (by decide), fun r hcmd hc hu ho hl hr => ?_, fun sp off data readOnly => ?_,
    fun sp off data hiv hc ht inArray => ?_⟩
  · rw [nameWrite, putReg, nameLengthAfter_of_le _ inRange]
  · rcases nameLengthAfter_cases s.unameSrcLen (v.setWidth 8) with old | ⟨w, inRange, new⟩
    · exact .inl (by rw [nameWrite, putReg, old])
    · exact .inr ⟨w, inRange, by rw [nameWrite, putReg, new]⟩
  · rw [write hcmd, putReg_readOnly hc hu ho hl hr]
  · have notWritable : sp.hostWritable = false := by
      rcases readOnly with rfl | rfl | rfl <;> rfl
    rw [hostAccess_writeBytes, hostWriteBytes, if_neg (Bool.eq_false_iff.mp idle),
      if_neg (Bool.eq_false_iff.mp notWritable)]
  · refine ⟨_, s.writeBytes_stored sp off data, ?_⟩
    have whole : (sp == .ivRx && off == 0 && data.length == Config.ivLen)
        = decide (sp = .ivRx ∧ off = 0 ∧ data.length = 16) := by
      rw [Bool.eq_iff_iff]
      simp [Config.ivLen, and_assoc]
    rw [hostAccess_writeBytes, hostWriteBytes, if_neg (Bool.eq_false_iff.mp idle),
      if_pos (hostWritable_of_ne hiv hc ht), if_pos inArray, putBytes, whole]
    rfl

/-! ### Reads -/

/-- Registers hold nothing of the key: no integer read looks at the buffers (R40). -/
theorem readReg_mem (s : State) (m : Memory) (r : HostReg) : readReg { s with mem := m } r = readReg s r := by
  cases r <;> rfl

theorem readArray_key (s : State) (off n : Nat) : readArray s .key off n = .refused := rfl

/-- The pages of two arrays are apart. -/
theorem addr_outside_key {sp : Space} (hne : sp ≠ .key) {i : Nat} (hi : i < 256) :
    ¬(Space.key.addr 0 ≤ sp.addr i ∧ sp.addr i < Space.key.addr 16) := by
  revert hne
  cases sp <;> simp [Space.addr, Space.number] <;> omega

/-- A read of an array looks at no byte of another (R36, R40). -/
theorem readArray_mem {s : State} {m : Memory}
    (h : ∀ a, ¬(Space.key.addr 0 ≤ a ∧ a < Space.key.addr 16) → m.read a = s.mem.read a)
    (sp : Space) (off n : Nat) : readArray { s with mem := m } sp off n = readArray s sp off n := by
  by_cases key : sp = .key
  · rw [key, readArray_key, readArray_key]
  · have bytes : State.readBytes { s with mem := m } sp off n = s.readBytes sp off n := by
      unfold State.readBytes
      split
      · rename_i inArray
        refine Memory.readRange_congr fun x low high => h x ?_
        have size := sp.size_le
        obtain ⟨i, rfl⟩ := Nat.exists_eq_add_of_le low
        have outside := addr_outside_key key (i := off + i) (by omega)
        rwa [show sp.addr off + i = sp.addr (off + i) by simp only [Space.addr]; omega]
      · rfl
    simp only [readArray, bytes]

/-- Settles O45: a read looks at the registers, or at the bytes of an array other than the key. -/
theorem keyIsNeverReadable : Obligations.KeyIsNeverReadable := by
  unfold Obligations.KeyIsNeverReadable
  intro s m h
  refine ⟨fun r => ⟨_, hostAccess_read r s, ?_⟩, fun sp off n =>
    ⟨_, hostAccess_readBytes sp off n s, ?_⟩, fun off n => hostAccess_readBytes .key off n s⟩
  · rw [hostAccess_read, readReg_mem]
  · rw [hostAccess_readBytes, readArray_mem h]

/-! ### STATUS (R28) -/

theorem coutKind_code_le (k : CoutKind) : k.code ≤ 2 := by cases k <;> decide

/-- The flags fill eight bits. -/
theorem statusWord_toNat (s : State) : s.statusWord.toNat = s.busy.toNat + 2 * s.isDone.toNat
    + 4 * s.ivRxValid.toNat + 8 * s.ivTxValid.toNat + 16 * s.resultValid.toNat + 32 * s.cmdErr.toNat
    + 64 * s.coutKind.code := by
  have code := coutKind_code_le s.coutKind
  have busy := Bool.toNat_le s.busy
  have done := Bool.toNat_le s.isDone
  have ivRx := Bool.toNat_le s.ivRxValid
  have ivTx := Bool.toNat_le s.ivTxValid
  have result := Bool.toNat_le s.resultValid
  have cmdErr := Bool.toNat_le s.cmdErr
  rw [State.statusWord, BitVec.toNat_ofNat]
  omega

theorem getLsbD_eq_of_mod {w : BitVec 8} {i : Nat} {b : Bool} (h : w.toNat / 2 ^ i % 2 = b.toNat) :
    w.getLsbD i = b := by
  rw [BitVec.getLsbD, Nat.testBit_eq_decide_div_mod_eq, h]
  cases b <;> rfl

/-- Each digit of the sum is one flag (R28). -/
theorem statusWord_bits (s : State) : s.statusWord.getLsbD 0 = s.busy
    ∧ s.statusWord.getLsbD 1 = s.isDone ∧ s.statusWord.getLsbD 2 = s.ivRxValid
    ∧ s.statusWord.getLsbD 3 = s.ivTxValid ∧ s.statusWord.getLsbD 4 = s.resultValid
    ∧ s.statusWord.getLsbD 5 = s.cmdErr ∧ s.statusWord.toNat / 64 = s.coutKind.code := by
  have busy := Bool.toNat_le s.busy
  have done := Bool.toNat_le s.isDone
  have ivRx := Bool.toNat_le s.ivRxValid
  have ivTx := Bool.toNat_le s.ivTxValid
  have result := Bool.toNat_le s.resultValid
  have cmdErr := Bool.toNat_le s.cmdErr
  have sum := statusWord_toNat s
  refine ⟨getLsbD_eq_of_mod ?_, getLsbD_eq_of_mod ?_, getLsbD_eq_of_mod ?_, getLsbD_eq_of_mod ?_,
    getLsbD_eq_of_mod ?_, getLsbD_eq_of_mod ?_, ?_⟩
  all_goals omega

theorem isDone_iff (s : State) : s.isDone = true
    ↔ s.pstate = .success ∨ s.pstate = .failure ∨ s.pstate = .error := by
  unfold State.isDone
  cases s.pstate <;> simp [PState.terminal]

/-- Settles O46. -/
theorem statusWordShowsTheFlags : Obligations.StatusWordShowsTheFlags := by
  unfold Obligations.StatusWordShowsTheFlags
  intro s
  obtain ⟨busy, done, ivRx, ivTx, result, cmdErr, kind⟩ := statusWord_bits s
  exact ⟨busy, by rw [done, isDone_iff], ivRx, ivTx, result, cmdErr, kind,
    hostAccess_read .status s⟩

/-! ### What a read returns (R14, R23 to R33) -/

theorem readArray_of_read {s : State} {sp : Space} {off n : Nat} {bs : Bytes} (hne : sp ≠ .key)
    (h : s.readBytes sp off n = some bs) : readArray s sp off n = .bytes bs := by
  have readable : sp.hostReadable = true := by cases sp <;> first | rfl | exact absurd rfl hne
  rw [readArray, if_pos readable, h]

theorem readArray_refused {s : State} {sp : Space} {off n : Nat}
    (h : sp = .key ∨ s.readBytes sp off n = none) : readArray s sp off n = .refused := by
  rcases h with rfl | unwritten
  · exact readArray_key s off n
  · rw [readArray, unwritten]
    exact ite_self _

theorem readReg_result_refused {s : State} (h : s.resultValid = false ∨ s.result = none) :
    readReg s .result = .refused := by
  rcases h with invalid | noValue
  · exact if_neg (Bool.eq_false_iff.mp invalid)
  · rw [readReg, noValue]
    exact ite_self _

theorem readReg_result {s : State} {v : Result} (hv : s.resultValid = true)
    (h : s.result = some v) : readReg s .result = .value v := by
  rw [readReg, if_pos hv, h, readValue, BitVec.setWidth_eq]

/-- Settles O47: a register gives what `readValue` makes of it, an array what its bytes make. -/
theorem readOfNoValueIsRefused : Obligations.ReadOfNoValueIsRefused := by
  unfold Obligations.ReadOfNoValueIsRefused
  intro s
  refine ⟨hostAccess_read .cmd s, ?_, ?_, ?_, ?_, ?_, fun h => ?_, fun v hv h => ?_,
    fun sp off n bs hne h => ?_, fun sp off n h => ?_⟩
  · rw [hostAccess_read, readReg]
    cases s.op <;> rfl
  · rw [hostAccess_read, readReg]
    cases s.left <;> rfl
  · rw [hostAccess_read, readReg]
    cases s.right <;> rfl
  · rw [hostAccess_read, readReg]
    cases s.cinLen <;> rfl
  · rw [hostAccess_read, readReg]
    cases s.unameSrcLen <;> rfl
  · rw [hostAccess_read, readReg_result_refused h]
  · rw [hostAccess_read, readReg_result hv h]
  · rw [hostAccess_readBytes, readArray_of_read hne h]
  · rw [hostAccess_readBytes, readArray_refused h]

/-- The codes of R30 and R271, as the table lists them. -/
theorem cause_code_of_mem {c : Cause} {code : BitVec 64}
    (h : (c, code) ∈ [(Cause.none, (0 : BitVec 64)), (.serverReported, 1), (.unexpectedCode, 2),
      (.badLength, 3), (.decryptFail, 4), (.encryptFail, 5), (.divByZero, 6), (.unknownOperator, 7),
      (.unexpectedStatus, 8), (.transportClosed, 9), (.transportError, 10), (.badChallengeLen, 11),
      (.badSequence, 12)]) : BitVec.ofNat 64 c.code = code := by
  simp only [List.mem_cons, Prod.mk.injEq, List.not_mem_nil, or_false] at h
  rcases h with ⟨rfl, rfl⟩ | ⟨rfl, rfl⟩ | ⟨rfl, rfl⟩ | ⟨rfl, rfl⟩ | ⟨rfl, rfl⟩ | ⟨rfl, rfl⟩
    | ⟨rfl, rfl⟩ | ⟨rfl, rfl⟩ | ⟨rfl, rfl⟩ | ⟨rfl, rfl⟩ | ⟨rfl, rfl⟩ | ⟨rfl, rfl⟩ | ⟨rfl, rfl⟩ <;> rfl

/-- Settles O59, register by register. -/
theorem readsShowReportsAndCounters : Obligations.ReadsShowReportsAndCounters := by
  unfold Obligations.ReadsShowReportsAndCounters
  refine fun s => ⟨?_, ?_, fun c code row => ⟨fun cause => ?_, fun cause => ?_⟩, ?_,
    hostAccess_read .coutLen s, hostAccess_read .txLen s, hostAccess_read .txCnt s,
    hostAccess_read .rxNeed s, hostAccess_read .rxCnt s⟩
  · rw [hostAccess_read, readReg]
    cases s.pstate <;> rfl
  · rw [hostAccess_read, readReg]
    cases s.errReason <;> rfl
  · rw [hostAccess_read, readReg, cause, cause_code_of_mem row]
  · rw [hostAccess_read, readReg, cause, cause_code_of_mem row]
  · rw [hostAccess_read, readReg]
    cases s.verdict <;> rfl

end Sys2Proof.Machine

/-! One step from any state, invariant or not (spec/20_memory.md R74; spec/43_protocol_sequencer.md R212 to
R218): which agent's move it is, and what the three steps of the engine do. -/

namespace Sys2Proof.Machine

/-! ### Whose move it is -/

theorem step_of_host_turn {s : State} {ts : List Turn} (turn : s.turns = .host :: ts) :
    step s = hostStep s.nextTurn := by
  unfold step
  rw [turn]

theorem hostStep_of_head {s : State} {a : HostAction} {q : List HostAction}
    (h : s.hostQueue = a :: q) : hostStep s = hostAccess a (takeHostAction s) := by
  unfold hostStep
  rw [h]

/-- The state with a turn taken, written out. -/
theorem nextTurn_eq {s : State} {turn : Turn} {ts : List Turn} (h : s.turns = turn :: ts) :
    s.nextTurn = { s with turns := ts } := by
  rw [State.nextTurn, h, List.tail_cons]

theorem takeTxEvent_nextTurn_eq {s : State} {turn : Turn} {ts : List Turn} {e : TxEvent}
    {es : List TxEvent} (h : s.turns = turn :: ts) (he : s.txEvents = e :: es) :
    takeTxEvent s.nextTurn = { s with turns := ts, txEvents := es } := by
  rw [nextTurn_eq h, takeTxEvent, he, List.tail_cons]

theorem takeRxEvent_nextTurn_eq {s : State} {turn : Turn} {ts : List Turn} {e : RxEvent}
    {es : List RxEvent} (h : s.turns = turn :: ts) (he : s.rxStream = e :: es) :
    takeRxEvent s.nextTurn = { s with turns := ts, rxStream := es } := by
  rw [nextTurn_eq h, takeRxEvent, he, List.tail_cons]

/-- Settles O48: on its turn the host makes its next access, and a write of `CMD` runs its command. -/
theorem stepRunsTheCommandWritten : Obligations.StepRunsTheCommandWritten := by
  unfold Obligations.StepRunsTheCommandWritten
  intro s ts q v i turn queue decoded
  cases decoded
  have queue' : s.nextTurn.hostQueue = .write .cmd v :: q := queue
  rw [step_of_host_turn turn, hostStep_of_head queue', hostAccess_command, takeHostAction, queue',
    List.tail_cons, nextTurn_eq turn]

/-- Settles O56: with no turn nobody moves, and without its event the engine's turn passes. -/
theorem engineWaitsWithoutAnEvent : Obligations.EngineWaitsWithoutAnEvent := by
  unfold Obligations.EngineWaitsWithoutAnEvent
  refine fun s => ⟨fun noTurn => ?_, fun ts turn notReady => ?_⟩
  · unfold step
    rw [noTurn]
  · have notReady' : eventReady s.nextTurn = false := notReady
    rw [step_of_engine_turn turn, engineStep_of_not_ready notReady', nextTurn_eq turn]

/-! ### The TX step (R213) -/

theorem engineStep_sends {s : State} {e : TxEvent} {es : List TxEvent} (ha : s.txActive = true)
    (he : s.txEvents = e :: es) : engineStep s = txStep e (takeTxEvent s) := by
  rw [engineStep, if_pos ha, he]

theorem step_sends {s : State} {ts : List Turn} {e : TxEvent} {es : List TxEvent}
    (turn : s.turns = .engine :: ts) (ha : s.txActive = true) (he : s.txEvents = e :: es) :
    step s = txStep e { s with turns := ts, txEvents := es } := by
  have ha' : s.nextTurn.txActive = true := ha
  have he' : s.nextTurn.txEvents = e :: es := he
  rw [step_of_engine_turn turn, engineStep_sends ha' he', takeTxEvent_nextTurn_eq turn he]

theorem txStep_accept {s : State} {b : Bytes} (h : s.readBytes .txbuf s.txCnt.toNat 1 = some b) :
    txStep .accept s = if s.txCnt + 1 = s.txLen then .next (frameSent (byteAccepted b s))
      else .next (byteAccepted b s) := by
  rw [txStep, h]
  rfl

theorem txStep_err {s : State} {b : Bytes} (h : s.readBytes .txbuf s.txCnt.toNat 1 = some b) :
    txStep .err s = .next (enterError .transportError s) := by
  rw [txStep, h]

/-- Settles O54, by the peer's answer and whether the byte was the last one. -/
theorem txStepSendsOneByte : Obligations.TxStepSendsOneByte := by
  unfold Obligations.TxStepSendsOneByte
  intro s ts es b turn sending offered
  have accepted (he : s.txEvents = .accept :: es) :=
    (step_sends turn sending he).trans (txStep_accept (b := [b]) offered)
  refine ⟨fun he more => ?_, fun he last here => ?_, fun he last here => ?_, fun he => ?_⟩
  · exact (accepted he).trans (if_neg more)
  · rw [accepted he, if_pos last, frameSent_of_init (by exact here), startReceiving, stopSending,
      byteAccepted]
  · rw [accepted he, if_pos last, frameSent_of_challengeReceived (by exact here), startReceiving,
      stopSending, byteAccepted]
  · exact (step_sends turn sending he).trans (txStep_err (b := [b]) offered)

/-! ### The RX step (R214) -/

theorem engineStep_receives {s : State} {e : RxEvent} {es : List RxEvent}
    (hr : s.rxEnabled = true) (he : s.rxStream = e :: es) :
    engineStep s = rxStep e (takeRxEvent s) := by
  obtain ⟨_, notSending, _⟩ := (rxEnabled_iff s).mp hr
  rw [engineStep, if_neg (Bool.eq_false_iff.mp notSending), if_pos hr, he]

theorem step_receives {s : State} {ts : List Turn} {e : RxEvent} {es : List RxEvent}
    (turn : s.turns = .engine :: ts) (hr : s.rxEnabled = true) (he : s.rxStream = e :: es) :
    step s = rxStep e { s with turns := ts, rxStream := es } := by
  have hr' : s.nextTurn.rxEnabled = true := hr
  have he' : s.nextTurn.rxStream = e :: es := he
  rw [step_of_engine_turn turn, engineStep_receives hr' he', takeRxEvent_nextTurn_eq turn he]

theorem rxStep_byte (b : Byte) (s : State) : rxStep (.byte b) s
    = if s.rxCnt + 1 = s.rxNeed then frameReceived (putRxByte b s) else .next (putRxByte b s) := rfl

/-- Settles O55, by the peer's event. -/
theorem rxStepReceivesOneByte : Obligations.RxStepReceivesOneByte := by
  unfold Obligations.RxStepReceivesOneByte
  intro s ts es turn busy notSending here below
  have enabled := (rxEnabled_iff s).mpr ⟨busy, notSending, here, below⟩
  refine ⟨fun b he more => ⟨_, s.writeBytes_stored .rxbuf s.rxCnt.toNat [b], ?_⟩, fun he => ?_,
    fun he => ?_⟩
  · rw [step_receives turn enabled he, rxStep_byte, if_neg more]
    rfl
  · exact step_receives turn enabled he
  · exact step_receives turn enabled he

/-! ### The last byte of a frame (R216, R218) -/

/-- A frame at the challenge point runs to a next state, in a session or not (R164). -/
theorem exec_challengePointInstr_next (f : Bytes) (s : State) :
    ∃ t, exec (challengePointInstr f) s = .next t := by
  rw [exec_challengePointInstr]
  rcases classifyCode_challenge (frameCode f) with ⟨c, hc, _⟩ | hc <;> rw [hc]
  · exact ⟨_, rfl⟩
  · rcases acceptChallenge_cases (frameIv f) (framePayloadLen f) (framePayload f) s with
      ⟨_, e⟩ | ⟨_, e⟩
    · exact ⟨_, congrArg outcomeOf e⟩
    · exact ⟨_, congrArg outcomeOf e⟩

/-- A frame at the status point leaves a verdict, or in a session enters `Error` without one (R168). -/
theorem exec_statusPointInstr_next (f : Bytes) {s : State} (hb : s.busy = true) :
    ∃ t, exec (statusPointInstr f) s = .next t
      ∧ (t.verdict = .none → t.pstate = .error ∧ t.busy = false) := by
  rw [exec_statusPointInstr]
  rcases classifyCode_status (frameCode f) with ⟨c, hc, _⟩ | hc | hc <;> rw [hc]
  · exact ⟨_, congrArg Host.Outcome.next (raise_busy c hb), fun _ => ⟨rfl, rfl⟩⟩
  · exact ⟨_, rfl, fun noVerdict => by cases noVerdict⟩
  · exact ⟨_, rfl, fun noVerdict => by cases noVerdict⟩

theorem runChallengeFrame_of_next {i : Instr} {s t : State} (h : exec i s = .next t) :
    runChallengeFrame i s = if t.pstate = .error then .next t else afterChallenge t := by
  rw [runChallengeFrame, h]

theorem runStatusFrame_of_next {i : Instr} {s t : State} (h : exec i s = .next t) :
    runStatusFrame i s = .next (afterStatus t) := by
  rw [runStatusFrame, h]

theorem afterStatus_success {s : State} (h : s.verdict = .success) :
    afterStatus s = endSession .success s := by
  unfold afterStatus; rw [h]

theorem afterStatus_failure {s : State} (h : s.verdict = .failure) :
    afterStatus s = endSession .failure s := by
  unfold afterStatus; rw [h]

theorem afterStatus_none {s : State} (h : s.verdict = .none) : afterStatus s = s := by
  unfold afterStatus; rw [h]

/-- With one byte missing and that byte at hand, the step reads the frame in the state that holds it. -/
theorem step_completes_frame {s : State} {ts : List Turn} {es : List RxEvent} {b : Byte}
    (turn : s.turns = .engine :: ts) (hr : s.rxEnabled = true) (he : s.rxStream = .byte b :: es)
    (hlast : s.rxCnt + 1 = s.rxNeed) :
    step s = frameReceived (putRxByte b { s with turns := ts, rxStream := es }) := by
  rw [step_receives turn hr he, rxStep_byte]
  exact if_pos hlast

/-- Settles O49: the 167 bytes are the frame, which runs, and DECRYPT follows unless it raised. -/
theorem stepRunsTheChallengeFrame : Obligations.StepRunsTheChallengeFrame := by
  unfold Obligations.StepRunsTheChallengeFrame
  intro s ts es b g i turn busy notSending here need cnt he received decoded
  have enabled := (rxEnabled_iff s).mpr
    ⟨busy, notSending, .inl here, by rw [need, cnt]; decide⟩
  have length : (g ++ [b]).length = 167 := by
    rw [List.length_append, State.readBytes_length received]; rfl
  rw [decode_challengePoint length] at decoded
  cases decoded
  have last : s.rxCnt + 1 = s.rxNeed := by rw [need, cnt]; decide
  have stored : putRxByte b { s with turns := ts, rxStream := es }
      = { s with mem := (s.writeBytes .rxbuf 166 [b]).mem, turns := ts, rxStream := es,
                 rxCnt := 167 } := by
    simp only [putRxByte, State.writeBytes, cnt]
    rfl
  have read : (putRxByte b { s with turns := ts, rxStream := es }).readBytes .rxbuf 0 167
      = some (g ++ [b]) := by
    rw [stored]
    exact State.readBytes_writeBytes_snoc b received (by decide)
  have moved := (step_completes_frame turn enabled he last).trans
    (frameReceived_at_challenge (s := putRxByte b { s with turns := ts, rxStream := es }) here read)
  obtain ⟨t, ran⟩ := exec_challengePointInstr_next (g ++ [b])
    (putRxByte b { s with turns := ts, rxStream := es })
  rw [runChallengeFrame_of_next ran] at moved
  rw [stored] at ran
  refine ⟨_, t, s.writeBytes_stored .rxbuf 166 [b], ran, fun raised => ?_, fun goesOn => ?_⟩
  · exact moved.trans (if_pos raised)
  · rw [moved, if_neg goesOn, afterChallenge]
    cases decryptOp t <;> rfl

/-- Settles O50: the 19 bytes are the frame, which runs, and its verdict ends the session. -/
theorem stepRunsTheStatusFrame : Obligations.StepRunsTheStatusFrame := by
  unfold Obligations.StepRunsTheStatusFrame
  intro s ts es b g i turn busy notSending here need cnt he received decoded
  have enabled := (rxEnabled_iff s).mpr
    ⟨busy, notSending, .inr here, by rw [need, cnt]; decide⟩
  have length : (g ++ [b]).length = 19 := by
    rw [List.length_append, State.readBytes_length received]; rfl
  rw [decode_statusPoint length] at decoded
  cases decoded
  have last : s.rxCnt + 1 = s.rxNeed := by rw [need, cnt]; decide
  have stored : putRxByte b { s with turns := ts, rxStream := es }
      = { s with mem := (s.writeBytes .rxbuf 18 [b]).mem, turns := ts, rxStream := es,
                 rxCnt := 19 } := by
    simp only [putRxByte, State.writeBytes, cnt]
    rfl
  have read : (putRxByte b { s with turns := ts, rxStream := es }).readBytes .rxbuf 0 19
      = some (g ++ [b]) := by
    rw [stored]
    exact State.readBytes_writeBytes_snoc b received (by decide)
  have moved := (step_completes_frame turn enabled he last).trans
    (frameReceived_at_status (s := putRxByte b { s with turns := ts, rxStream := es }) here read)
  obtain ⟨t, ran, withoutVerdict⟩ := exec_statusPointInstr_next (g ++ [b])
    (s := putRxByte b { s with turns := ts, rxStream := es }) busy
  rw [runStatusFrame_of_next ran] at moved
  rw [stored] at ran
  refine ⟨_, t, s.writeBytes_stored .rxbuf 18 [b], ran, fun success => ?_, fun failure => ?_,
    fun noVerdict => ⟨?_, withoutVerdict noVerdict⟩⟩
  · rw [moved, afterStatus_success success, endSession]
  · rw [moved, afterStatus_failure failure, endSession]
  · rw [moved, afterStatus_none noVerdict]

/-! ### The challenge in the compute step (R217) -/

/-- A challenge runs to a next state, in a session or not (R192 to R197). -/
theorem exec_challengeInstr_next (op : Byte) (l r : Operand) (s : State) :
    ∃ t, exec (challengeInstr op l r) s = .next t := by
  rw [exec_challengeInstr]
  rcases evaluate_cases op l r s with ⟨v, e⟩ | e | e <;> exact ⟨_, congrArg outcomeOf e⟩

/-- Settles O51: the decoded challenge runs in the state it is loaded into, and T3 goes on with a result. -/
theorem stepRunsTheChallengeWord : Obligations.StepRunsTheChallengeWord := by
  unfold Obligations.StepRunsTheChallengeWord
  intro s ts c i turn _ notSending here plain len read decoded
  rw [decode_challengeWord_of_length (State.readBytes_length read)] at decoded
  cases decoded
  obtain ⟨t, ran⟩ := exec_challengeInstr_next (c.headD 0) (be32 (slice c 1 4)) (be32 (slice c 5 4))
    (loadChallenge c s.nextTurn)
  have moved : step s = if t.resultValid then afterSolve t else .next t := by
    rw [step_computes turn notSending here, computeStep_of_read (s := s.nextTurn) plain len read,
      runChallengeWord, ran]
  rw [nextTurn_eq turn] at ran
  refine ⟨t, ran, fun noResult => ?_, fun result => ?_⟩
  · rw [moved, if_neg (Bool.eq_false_iff.mp noResult)]
  · rw [moved, if_pos result]

end Sys2Proof.Machine
